-- ==== Sys2Proof/Word.lean ====
section
/-! DEFINITION. The word types of quantizer_8x8 (spec/00_scope.md R9, R10; spec/20_memory.md R61). -/

namespace Sys2Proof

/-- One word of the command stream or of the status port: 32 bits, bit 0 least significant (R9, R61). -/
abbrev Word := BitVec 32

/-- One byte of a sink; its first bit is bit 7 (R9, R66). -/
abbrev Byte := BitVec 8

/-- A bit string, first bit at the head of the list (R10). -/
abbrev Bits := List Bool

end Sys2Proof
end

