-- ==== Sys2Proof/Syntax.lean ====
section
/-! DEFINITION. The commands (spec/30_encoding.md R92): one constructor per row of the opcode table. -/

namespace Sys2Proof

/-- The eleven commands. An illegal header word is no command: it is a case of the decoder (R96). -/
inductive Instr where
  /-- R133. -/
  | nop
  /-- R134. -/
  | init
  /-- R135; the payload word is the new `WIDTH`. -/
  | setw (n : Word)
  /-- R136; the payload word is the new `HEIGHT`. -/
  | seth (n : Word)
  /-- R137; the payload word is the new `NBLK`. -/
  | setn (n : Word)
  /-- R138. -/
  | begin
  /-- R150; the 64 payload words in row-major order (R95). -/
  | ldblk (p : List Word)
  /-- R190. -/
  | build
  /-- R220. -/
  | emit
  /-- R240. -/
  | wrtab
  /-- R248. -/
  | wrdat
deriving DecidableEq, Repr

end Sys2Proof
end

