-- ==== Sys2Proof/WellFormed.lean ====
section
/-! DEFINITION. Which terms of `Instr` are commands of the hardware: `LDBLK` carries exactly 64 words (R93, R95). -/

namespace Sys2Proof

/-- The payload of `LDBLK` has 64 words; every other term is a command as it stands. -/
def Instr.wellFormed : Instr → Bool
  | .ldblk p => p.length == 64
  | .nop | .init | .setw _ | .seth _ | .setn _ | .begin | .build | .emit | .wrtab | .wrdat => true

end Sys2Proof
end

