-- ==== Sys2Proof/Decode.lean ====
section
/-! DEFINITION. Decoding the command stream, and encoding (spec/30_encoding.md R90 to R98; spec/20_memory.md R78). -/

namespace Sys2Proof

/-- Field `OP`, bits 31:24 of a header word (R91). -/
def opField (w : Word) : BitVec 8 := w.extractLsb' 24 8

/-- Field `RSVD`, bits 23:0 of a header word (R91). -/
def rsvdField (w : Word) : BitVec 24 := w.extractLsb' 0 24

/-- `P(OP)`, the number of payload words, from the opcode alone, listed or reserved (R93). -/
def payloadCount (w : Word) : Nat :=
  if opField w = 0x02#8 ∨ opField w = 0x03#8 ∨ opField w = 0x04#8 then 1
  else if opField w = 0x10#8 then 64
  else 0

/-- The command of opcode `op` with payload `p`, from the opcode map R92; none for a reserved opcode. -/
def instrOf (op : BitVec 8) (p : List Word) : Option Instr :=
  if op = 0x00#8 then some .nop
  else if op = 0x01#8 then some .init
  else if op = 0x02#8 then p.head?.map .setw
  else if op = 0x03#8 then p.head?.map .seth
  else if op = 0x04#8 then p.head?.map .setn
  else if op = 0x05#8 then some .begin
  else if op = 0x10#8 then some (.ldblk p)
  else if op = 0x20#8 then some .build
  else if op = 0x30#8 then some .emit
  else if op = 0x40#8 then some .wrtab
  else if op = 0x41#8 then some .wrdat
  else none

/-- A header word and its payload as a command; none when the word is illegal (R96, R97). -/
def decodeCommand (w : Word) (p : List Word) : Option Instr :=
  if rsvdField w = 0#24 then instrOf (opField w) p else none

/-- What the head of the command stream is. -/
inductive Decoded where
  /-- No command has been issued: the header or a payload word is missing (R78). -/
  | waiting
  /-- An illegal header word; its payload is consumed with it (R93, R96). -/
  | illegal (header : Word) (rest : List Word)
  /-- A command, and the stream after it. -/
  | command (i : Instr) (rest : List Word)
deriving DecidableEq, Repr

/-- The decoder: total on every command stream (R90, R93, R96). -/
def decode : List Word → Decoded
  | [] => .waiting
  | w :: ws =>
    if ws.length < payloadCount w then .waiting
    else
      match decodeCommand w (ws.take (payloadCount w)) with
      | some i => .command i (ws.drop (payloadCount w))
      | none => .illegal w (ws.drop (payloadCount w))

/-- The opcode of a command (R92). -/
def Instr.opcode : Instr → BitVec 8
  | .nop => 0x00#8
  | .init => 0x01#8
  | .setw _ => 0x02#8
  | .seth _ => 0x03#8
  | .setn _ => 0x04#8
  | .begin => 0x05#8
  | .ldblk _ => 0x10#8
  | .build => 0x20#8
  | .emit => 0x30#8
  | .wrtab => 0x40#8
  | .wrdat => 0x41#8

/-- The payload words of a command (R94, R95). -/
def Instr.payload : Instr → List Word
  | .setw n | .seth n | .setn n => [n]
  | .ldblk p => p
  | .nop | .init | .begin | .build | .emit | .wrtab | .wrdat => []

/-- The header word of an opcode: `OP << 24`, `RSVD` zero (R91, R97). -/
def headerWord (op : BitVec 8) : Word := op.setWidth 32 <<< 24

/-- The words of a command (R90, R98). -/
def encode (i : Instr) : List Word := headerWord i.opcode :: i.payload

/-- The longest command has 65 words (R93). -/
def maxCommandWords : Nat := 65

/-- The words of an instruction given as the opcode table numbers its bits: word `k` is bits `32k+31 : 32k`, and every
bit from `nbits` up is 0 (log 23). -/
def tableWords (nbits w : Nat) : List Word :=
  (List.range maxCommandWords).map fun k => BitVec.ofNat 32 ((w % 2 ^ nbits) >>> (32 * k))

/-- The one command at the head of those words. -/
def tableCommandWords (nbits w : Nat) : List Word :=
  match tableWords nbits w with
  | [] => []
  | h :: ps => h :: ps.take (payloadCount h)

/-- The instruction the decoder reads from an opcode-table word. -/
def decodeTableWord (nbits w : Nat) : Option Instr :=
  match decode (tableWords nbits w) with
  | .command i _ => some i
  | .illegal _ _ => none
  | .waiting => none

end Sys2Proof
end

