-- ==== Sys2Proof/Config.lean ====
section
/-! DEFINITION. The parameters of spec/00_scope.md R7 and the free values: what the spec leaves open is a constant
without a body, so that nothing can be proved of its value. -/

namespace Sys2Proof

/-- What rounding does at an exact half (R7, R154). The spec specifies one value only (U11); another would be another
constructor (log 19). -/
inductive Tie where
  | halfEven
deriving DecidableEq, Repr

/-- The parameters that R7 lets a model take as arguments. They are carried in State because a step takes nothing
else (log 2); no command writes them. -/
structure Params where
  /-- `NCH`, channels per block position. -/
  nch : Nat
  /-- `MAX_N`, capacity of the coefficient buffer in block positions. -/
  maxN : Nat
  /-- `TIE`. -/
  tie : Tie
deriving DecidableEq, Repr

/-- The values R7 gives this hardware: `NCH = 3`, `MAX_N = 2^32 - 1`, `TIE = half_even`. -/
def Params.standard : Params := { nch := 3, maxN := 4294967295, tie := .halfEven }

/-- The parameter values a claim may be made for: `NCH >= 1` (D5) and `MAX_N <= 2^32 - 1` (R7). Above 5 channels the
40-bit counters of R194 could overflow (DEDUCED, log 16). -/
def Params.wf (p : Params) : Bool :=
  decide (1 ≤ p.nch) && decide (p.nch ≤ 5) && decide (p.maxN ≤ 4294967295)

namespace Config

/-- OPEN: `Q_LUMA` and `Q_CHROMA` (R7, R8). `divisorLess1 k i` is one less than the divisor of class number `k` at
row-major index `i`, so that every divisor is in 1..255. Nothing else is known of it (log 2). -/
opaque divisorLess1 : Nat → Nat → Fin 255

/-- What entry `k` of unit `u` of `CBUF` reads as when no `LDBLK` has written that unit since reset or `INIT`
(R48, U1: unspecified; log 4). -/
opaque cbufUnwritten : Nat → Nat → BitVec 12

/-- What `FREQ[t]` holds at key index `x` before the first `BUILD` after reset or `INIT`, `t` being the table number
(R41, R48, U1: unspecified; log 5). -/
opaque freqUnspecified : Nat → Nat → BitVec 40

/-- The host's answer to the `i`-th question `SinkPresent(s)` where it has prepared no answer (R70, U9; log 3). -/
opaque sinkPresent : Nat → Nat → Bool

end Config
end Sys2Proof
end

