-- ==== Sys2Proof/Machine/Tables.lean ====
section
/-! DEFINITION. The four tables: their numbers, their classes, their key indices and their empty contents
(spec/10_state.md R41, R42; spec/30_encoding.md R100; spec/20_memory.md R76). -/

namespace Sys2Proof.Machine

/-- The channel classes (R7, R12): class number `K` is 0 for `LUMA`, 1 for `CHROMA` (R192). -/
inductive ChClass where
  | luma
  | chroma
deriving DecidableEq, Repr

/-- The four tables, in the fixed order of the table file (R41, R109). -/
inductive TableId where
  | dcY
  | acY
  | dcC
  | acC
deriving DecidableEq, Repr

/-- One value for each table. -/
structure Tables (α : Type) where
  dcY : α
  acY : α
  dcC : α
  acC : α
deriving DecidableEq, Repr

/-- The value of table `t`. -/
def Tables.get {α : Type} (x : Tables α) : TableId → α
  | .dcY => x.dcY
  | .acY => x.acY
  | .dcC => x.dcC
  | .acC => x.acC

/-- Table `t` changed by `f`, the other three kept. -/
def Tables.modify {α : Type} (x : Tables α) (t : TableId) (f : α → α) : Tables α :=
  match t with
  | .dcY => { x with dcY := f x.dcY }
  | .acY => { x with acY := f x.acY }
  | .dcC => { x with dcC := f x.dcC }
  | .acC => { x with acC := f x.acC }

/-- The same function of each table (R190: "for t in 0..3"). -/
def Tables.map {α β : Type} (f : α → β) (x : Tables α) : Tables β :=
  { dcY := f x.dcY, acY := f x.acY, dcC := f x.dcC, acC := f x.acC }

/-- Table numbers 0 to 3 (R41, R76). -/
def tableNumber : TableId → Nat
  | .dcY => 0
  | .acY => 1
  | .dcC => 2
  | .acC => 3

/-- The DC table `2K` of a class (R192, R193). -/
def dcTable : ChClass → TableId
  | .luma => .dcY
  | .chroma => .dcC

/-- The AC table `2K + 1` of a class (R192, R193). -/
def acTable : ChClass → TableId
  | .luma => .acY
  | .chroma => .acC

/-- Whether a table's keys are categories (tables 0 and 2) or symbols (tables 1 and 3) (R100). -/
def isDcTable : TableId → Bool
  | .dcY | .dcC => true
  | .acY | .acC => false

/-- Entries of a table: 12 categories, or 256 key bytes (R41). -/
def tableSize (t : TableId) : Nat := if isDcTable t then 12 else 256

/-- The four tables given by a function of the table. -/
def Tables.of {α : Type} (f : TableId → α) : Tables α :=
  { dcY := f .dcY, acY := f .acY, dcC := f .dcC, acC := f .acC }

/-- Four frequency tables with every entry 0 (R191). A counter is a natural number (R194, log 9). -/
def zeroFreq : Tables (List Nat) := Tables.of fun t => List.replicate (tableSize t) 0

/-- Four frequency tables whose content is unspecified: free values (R48, U1; log 5). -/
def unspecifiedFreq : Tables (List Nat) :=
  Tables.of fun t => (List.range (tableSize t)).map fun x => (Config.freqUnspecified (tableNumber t) x).toNat

/-- Four code tables with every entry invalid (R42, R48). An entry is `none` when `valid = 0`, else its bits; `len` is
their number (log 14). -/
def invalidCode : Tables (List (Option Bits)) := Tables.of fun t => List.replicate (tableSize t) none

end Sys2Proof.Machine
end

