-- ==== Sys2Proof/Machine/Rom.lean ====
section
/-! DEFINITION. The two read-only memories (spec/10_state.md R38, R39; spec/41_quantize_zigzag.md R158, R159). -/

namespace Sys2Proof.Machine

/-- One entry of `QROM`: 8 bits unsigned in 1..255 (R8, R38). Zero cannot be written down. -/
structure Divisor where
  bits : BitVec 8
  ne_zero : bits ≠ 0#8
deriving DecidableEq, Repr

/-- The divisor of value one more than `x`. -/
def divisorOf (x : Fin 255) : Divisor where
  bits := BitVec.ofNat 8 (x.val + 1)
  ne_zero := by
    intro h
    have h' := congrArg BitVec.toNat h
    have := x.isLt
    simp only [BitVec.toNat_ofNat] at h'
    omega

/-- An 8×8 divisor matrix, row-major: entry `8*r + c` is row `r`, column `c` (R38, R95). -/
abbrev DivMatrix := Vector Divisor 64

/-- `QROM`: one matrix per class (R38). -/
structure QRom where
  luma : DivMatrix
  chroma : DivMatrix
deriving DecidableEq, Repr

/-- `QROM[K]`. -/
def QRom.get (q : QRom) : ChClass → DivMatrix
  | .luma => q.luma
  | .chroma => q.chroma

/-- The constant content of `QROM`: the OPEN parameters `Q_LUMA` and `Q_CHROMA` (R7, R8, R38; log 2). -/
def qromContent : QRom where
  luma := Vector.ofFn fun i => divisorOf (Config.divisorLess1 0 i.val)
  chroma := Vector.ofFn fun i => divisorOf (Config.divisorLess1 1 i.val)

/-- `ZZROM`: 64 pairs (row, column) of 3-bit numbers (R39). -/
abbrev ZZRom := Vector (BitVec 3 × BitVec 3) 64

/-- The row-major index `8*r + c` read at each `k`, the third form of R158's table. -/
def zigzagIndex : List Nat :=
  [0, 1, 8, 16, 9, 2, 3, 10, 17, 24, 32, 25, 18, 11, 4, 5] ++
  [12, 19, 26, 33, 40, 48, 41, 34, 27, 20, 13, 6, 7, 14, 21, 28] ++
  [35, 42, 49, 56, 57, 50, 43, 36, 29, 22, 15, 23, 30, 37, 44, 51] ++
  [58, 59, 52, 45, 38, 31, 39, 46, 53, 60, 61, 54, 47, 55, 62, 63]

/-- The content of `ZZROM` (R158). -/
def zzromContent : ZZRom :=
  Vector.ofFn fun k =>
    let i := zigzagIndex.getD k.val 0
    (BitVec.ofNat 3 (i / 8), BitVec.ofNat 3 (i % 8))

/-- R159, the positions of anti-diagonal `s`, `r + c = s`, in the order they are visited: `r` increasing when `s` is
odd, decreasing when `s` is even. -/
def antiDiagonal (s : Nat) : List (Nat × Nat) :=
  let down := ((List.range 8).filter fun r => decide (r ≤ s) && decide (s - r ≤ 7)).map fun r => (r, s - r)
  if s % 2 = 1 then down else down.reverse

/-- R159, the whole scan: anti-diagonals 0 to 14. -/
def generatedScan : List (Nat × Nat) := (List.range 15).flatMap antiDiagonal

end Sys2Proof.Machine
end

