-- ==== Sys2Proof/Machine/State.lean ====
section
/-! DEFINITION. The state of the machine (spec/10_state.md R20) and of the host it acts on (R45), its reset value (R48),
and the reasons a step of the MODEL can stop. A fault of the HARDWARE (R260) is a next state, never one of these. -/

namespace Sys2Proof.Machine

/-- `PHASE` (R23). The values 4, 5 and 6 are never held (V5), so they have no constructor. -/
inductive Phase where
  | idle
  | load
  | tables
  | done
  | fault
deriving DecidableEq, Repr

/-- The six fault kinds of the hardware (R260). The codes 7 to 15 are never held (V4). -/
inductive FaultKind where
  /-- R262: the host answered that a sink is absent. -/
  | pathNotFound
  /-- R263: `EMIT` looked up a key without a code. -/
  | inconsistentSymbolStatistics
  /-- R267: a quantised element out of range. -/
  | coefficientRange
  /-- R264: a header word that is no command. -/
  | illegalCommand
  /-- R265: a command out of order. -/
  | illegalSequence
  /-- R266: more block positions than `MAX_N`. -/
  | capacityExceeded
deriving DecidableEq, Repr

/-- A coefficient vector as `CBUF` holds it: 64 entries of 12 bits, two's complement (R40). -/
abbrev CoefVec := Vector (BitVec 12) 64

/-- `CBUF`: the units written, with their vectors, in the one canonical form `CoefMem.wf` (log 4). -/
abbrev CoefMem := List (Nat × CoefVec)

/-- The state. -/
structure State where
  /-- `PHASE`, R23. -/
  phase : Phase
  /-- `ERR`, R32; `none` is the code 0. -/
  err : Option FaultKind
  /-- `ERRINFO`, R33. -/
  errinfo : Word
  /-- `TABW`, R29. -/
  tabw : Bool
  /-- `DATW`, R29. -/
  datw : Bool
  /-- `WIDTH`, R25. -/
  width : Word
  /-- `HEIGHT`, R26. -/
  height : Word
  /-- `NBLK`, R27. -/
  nblk : Word
  /-- `LDCNT`, R28. -/
  ldcnt : BitVec 64
  /-- `BITLEN`, R34. -/
  bitlen : BitVec 64
  /-- `TABCNT`, R35. -/
  tabcnt : Word
  /-- `QROM`, R38. -/
  qrom : QRom
  /-- `ZZROM`, R39. -/
  zzrom : ZZRom
  /-- `CBUF`, R40. -/
  cbuf : CoefMem
  /-- `FREQ[t]`, R41. -/
  freq : Tables (List Nat)
  /-- `CODE[t]`, R42. -/
  code : Tables (List (Option Bits))
  /-- `BITBUF`, R44. -/
  bitbuf : Bits
  /-- Host: `SINK[0]`, the table file (R45). -/
  sink0 : List Byte
  /-- Host: `SINK[1]`, the data file (R45). -/
  sink1 : List Byte
  /-- Host: `CS`, the words placed on the command stream and not yet consumed (R60, R61; log 1). -/
  cs : List Word
  /-- Host: a reset request, taken before the next command (R300; log 10). -/
  rst : Bool
  /-- Host: its prepared answers to `SinkPresent`, the next one first (R70, U9; log 3). -/
  answers : List Bool
  /-- The model's own: how many `SinkPresent` questions were asked; it indexes the free answers (log 3). -/
  asked : Nat
  /-- The model's own place for the parameters of R7 (log 2). -/
  cfg : Params
deriving DecidableEq, Repr

/-- The one reason the model stops. No command the decoder yields raises it. -/
inductive Fault where
  /-- Raised by the meaning of `LDBLK` on a term whose payload is not 64 words, which the decoder never yields: such a
  term is no command of the hardware (log 17). Safe. -/
  | illFormedBlock
deriving DecidableEq, Repr

/-- The reasons the model gives no meaning. -/
inductive Refusal where
  /-- Raised by an arm of `exec` whose instruction has no meaning yet; no arm does. Safe. -/
  | notModelled (mnemonic : String)
deriving DecidableEq, Repr

/-- The state after reset (R48), with the host's side as a model must start it: nothing on the stream, empty sinks, no
prepared answer (log 1, log 3, log 11). `FREQ` and `CBUF` are unspecified: free values (log 4, log 5). -/
def State.reset : State where
  phase := .idle
  err := none
  errinfo := 0#32
  tabw := false
  datw := false
  width := 0#32
  height := 0#32
  nblk := 0#32
  ldcnt := 0#64
  bitlen := 0#64
  tabcnt := 0#32
  qrom := qromContent
  zzrom := zzromContent
  cbuf := []
  freq := unspecifiedFreq
  code := invalidCode
  bitbuf := []
  sink0 := []
  sink1 := []
  cs := []
  rst := false
  answers := []
  asked := 0
  cfg := Params.standard

end Sys2Proof.Machine
end

