-- ==== Sys2Proof/Machine/Flags.lean ====
section
/-! DEFINITION. The two flags, `TABW` and `DATW`, and every way they are written (spec/10_state.md R29). The hardware has no
condition codes. -/

namespace Sys2Proof.Machine

/-- `TABW <- 1`, by a `WRTAB` that completes (R29, R240). -/
def setTabw (s : State) : State := { s with tabw := true }

/-- `DATW <- 1`, by a `WRDAT` that completes (R29, R248). -/
def setDatw (s : State) : State := { s with datw := true }

/-- Both flags cleared, by reset, `INIT` and `BEGIN` (R29). -/
def clearFlags (s : State) : State := { s with tabw := false, datw := false }

end Sys2Proof.Machine
end

