-- ==== Sys2Proof/Machine/Operands.lean ====
section
/-! DEFINITION. Every operand form: the two payload forms (spec/30_encoding.md R94, R95), the implicit operand "the next
unit" (spec/41_quantize_zigzag.md R151), and keys as table indices (spec/30_encoding.md R100). -/

namespace Sys2Proof.Machine

/-- The payload of `SETW`, `SETH`, `SETN`: the word used whole as an unsigned number (R94). -/
def zextOperand (p : Word) : Word := p

/-- The signed numerator `n = sext_32(p)` of a coefficient word, which denotes `n / 2^16` (R95, R153). -/
def coefNumerator (p : Word) : Int := p.toInt

/-- Channel of unit `u`: `u - floor_div(u, NCH)*NCH` (R28, R150). -/
def unitChannel (nch u : Nat) : Nat := u - u / nch * nch

/-- Block position of unit `u`: `floor_div(u, NCH)` (R28, R151). -/
def unitBlock (nch u : Nat) : Nat := u / nch

/-- `class(ch)`: channel 0 is `LUMA`, every other `CHROMA` (R7, R151). -/
def classOf (ch : Nat) : ChClass := if ch = 0 then .luma else .chroma

/-- The class of unit `u`. -/
def unitClass (s : State) (u : Nat) : ChClass := classOf (unitChannel s.cfg.nch u)

/-- `NBLK*NCH`, the number of units of the image (R27). -/
def unitTotal (s : State) : Nat := s.nblk.toNat * s.cfg.nch

/-- A symbol `(run, cat)` (R100, R174). -/
structure Sym where
  run : Nat
  cat : Nat
deriving DecidableEq, Repr

/-- The key byte `run*16 + cat` of a symbol (R100). -/
def keyByte (x : Sym) : Nat := x.run * 16 + x.cat

/-- The symbol of a key byte: `kb[7:4]` and `kb[3:0]` (R100). -/
def symOfKey (kb : Nat) : Sym := { run := kb / 16, cat := kb % 16 }

end Sys2Proof.Machine
end

