-- ==== Sys2Proof/Machine/Status.lean ====
section
/-! DEFINITION. Codes of `PHASE` and `ERR`, the register `STATUS`, and the status port (spec/10_state.md R23, R30 to R37;
spec/60_exceptions.md R260). -/

namespace Sys2Proof.Machine

/-- The value of `PHASE` (R23). -/
def phaseCode : Phase → BitVec 3
  | .idle => 0#3
  | .load => 1#3
  | .tables => 2#3
  | .done => 3#3
  | .fault => 7#3

/-- The code of a fault kind (R260). -/
def faultCode : FaultKind → BitVec 4
  | .pathNotFound => 1#4
  | .inconsistentSymbolStatistics => 2#4
  | .coefficientRange => 3#4
  | .illegalCommand => 4#4
  | .illegalSequence => 5#4
  | .capacityExceeded => 6#4

/-- The value of `ERR`: 0 when no fault was taken (R32). -/
def errCode : Option FaultKind → BitVec 4
  | none => 0#4
  | some k => faultCode k

/-- `ID`, hard-wired: the ASCII bytes `Q`, `8`, `X`, `8` (R30; log 13). -/
def idValue : Word := 0x51385838#32

/-- `STATUS` (R31): `PHASE` in bits 2:0, `ERR` in bits 7:4, `TABW` in bit 8, `DATW` in bit 9, every other bit 0. -/
def statusWord (s : State) : Word :=
  (phaseCode s.phase).setWidth 32 ||| ((errCode s.err).setWidth 32 <<< 4) |||
    ((BitVec.ofBool s.tabw).setWidth 32 <<< 8) ||| ((BitVec.ofBool s.datw).setWidth 32 <<< 9)

/-- `SR[n]`: the status port (R36); register numbers 11 to 255 read 0 (R37). A read changes nothing (R74). -/
def readSR (s : State) (n : BitVec 8) : Word :=
  match n.toNat with
  | 0 => idValue
  | 1 => statusWord s
  | 2 => s.errinfo
  | 3 => s.width
  | 4 => s.height
  | 5 => s.nblk
  | 6 => s.ldcnt.extractLsb' 0 32
  | 7 => s.ldcnt.extractLsb' 32 32
  | 8 => s.bitlen.extractLsb' 0 32
  | 9 => s.bitlen.extractLsb' 32 32
  | 10 => s.tabcnt
  | _ => 0#32

end Sys2Proof.Machine
end

