-- ==== Sys2Proof/Machine/Ops.lean ====
section
/-! DEFINITION. The shared operations: `CBUF` reads and writes, taking a fault and returning from one, the steps common
to every command, and the sinks (spec/40_control_commands.md R130; spec/60_exceptions.md R268, R271). -/

namespace Sys2Proof.Machine

/-- What a meaning answers. -/
abbrev Result := Host.Outcome State Fault Refusal

/-! ### The coefficient buffer -/

/-- The canonical form: unit numbers strictly rising (log 4). -/
def CoefMem.wf : CoefMem → Bool
  | [] => true
  | [_] => true
  | a :: b :: m => decide (a.1 < b.1) && CoefMem.wf (b :: m)

/-- What a unit that nothing has written holds: free values (R48, U1; log 4). -/
def unwrittenVec (u : Nat) : CoefVec := Vector.ofFn fun k => Config.cbufUnwritten u k.val

/-- The vector of unit `u` as it is stored. -/
def CoefMem.read (m : CoefMem) (u : Nat) : CoefVec :=
  match m with
  | [] => unwrittenVec u
  | (v, x) :: rest => if v = u then x else CoefMem.read rest u

/-- `MemWrite(CBUF, (u, 0), 64, x)`: one whole vector (R40, R72). -/
def CoefMem.write (m : CoefMem) (u : Nat) (x : CoefVec) : CoefMem :=
  match m with
  | [] => [(u, x)]
  | (v, y) :: rest =>
    if u < v then (u, x) :: (v, y) :: rest
    else if u = v then (u, x) :: rest
    else (v, y) :: CoefMem.write rest u x

/-- 64 integers as `CBUF` stores them, 12 bits each (R40). -/
def vecOfInts (z : List Int) : CoefVec := Vector.ofFn fun k => BitVec.ofInt 12 (z.getD k.val 0)

/-- A stored vector as integers, each entry read as two's complement (R40). -/
def intsOfVec (x : CoefVec) : List Int := x.toList.map BitVec.toInt

/-- `MemRead(CBUF, (u, 0), 64)`. -/
def coefs (s : State) (u : Nat) : List Int := intsOfVec (CoefMem.read s.cbuf u)

/-! ### Faults -/

/-- `raise k(info)`: fault entry (R268). Exactly three writes; nothing is saved because nothing is resumed. -/
def raise (k : FaultKind) (info : Word) (s : State) : State :=
  { s with err := some k, errinfo := info, phase := .fault }

/-- `ERRINFO` of `IllegalSequence`: opcode in bits 31:24, `PHASE` in bits 2:0 (R261, R265). -/
def sequenceInfo (op : BitVec 8) (ph : Phase) : Word := (op.setWidth 32 <<< 24) ||| (phaseCode ph).setWidth 32

/-- Every element of the core at its reset value, the sinks and the rest of the host's side untouched: `INIT` (R134)
and the reset input (R300, R303). It is the only return from the fault state (R271). `QROM` and `ZZROM` hold their
constants (R38, R39). `FREQ` and `CBUF` become unspecified (log 4, log 5). -/
def resetCore (s : State) : State :=
  clearFlags
    { s with
      phase := .idle, err := none, errinfo := 0#32, width := 0#32, height := 0#32, nblk := 0#32, ldcnt := 0#64,
      bitlen := 0#64, tabcnt := 0#32, cbuf := [], freq := unspecifiedFreq, code := invalidCode, bitbuf := [] }

/-- The reset input, asserted between two commands: the request is taken (R300; log 10). -/
def takeReset (s : State) : State := resetCore { s with rst := false }

/-- Steps 2 and 4 of R130 for a command other than `INIT`: in `FAULT` it does nothing (R269); outside its legal phases
it raises `IllegalSequence` (R131); else it runs. -/
def inPhase (op : BitVec 8) (legal : List Phase) (body : State → Result) (s : State) : Result :=
  if s.phase = .fault then .next s
  else if s.phase ∈ legal then body s
  else .next (raise .illegalSequence (sequenceInfo op s.phase) s)

/-- Steps 2 and 3 of R130 for an illegal header word `w`: ignored in `FAULT` (R269), else `IllegalCommand(w)` (R264). -/
def illegalHeader (w : Word) (s : State) : Result :=
  if s.phase = .fault then .next s else .next (raise .illegalCommand w s)

/-! ### Sinks -/

/-- `SinkPresent(i)`: the host's next prepared answer, else a free value (R70, U9; log 3). -/
def sinkAnswer (s : State) (i : Nat) : Bool :=
  match s.answers with
  | b :: _ => b
  | [] => Config.sinkPresent s.asked i

/-- The question has been asked: its answer is used up (R70: the core keeps no copy). -/
def answerUsed (s : State) : State := { s with answers := s.answers.tail, asked := s.asked + 1 }

/-- `SinkReplace(0, bytes)` (R11, R45). -/
def replaceSink0 (bytes : List Byte) (s : State) : State := { s with sink0 := bytes }

/-- `SinkReplace(1, bytes)` (R11, R45). -/
def replaceSink1 (bytes : List Byte) (s : State) : State := { s with sink1 := bytes }

/-! ### Fetch -/

/-- `s` with the words of a table row's command placed at the head of the command stream. -/
def placeCommand (s : State) (nbits w : Nat) : State :=
  { s with cs := tableCommandWords nbits w ++ s.cs, rst := false }

end Sys2Proof.Machine
end

