-- ==== Sys2Proof/Machine/Prims.lean ====
section
/-! DEFINITION. The pseudocode primitives of spec/00_scope.md R11 that are functions of numbers: `bitlen`, `bin_k`,
`dec`. -/

namespace Sys2Proof.Machine

/-- `bitlen(m)`: 0 for 0, else the unique `k >= 1` with `2^(k-1) <= m < 2^k` (R11). -/
def bitlen (m : Nat) : Nat := if m = 0 then 0 else m.log2 + 1

/-- `bin_k(u)`: the `k` low bits of `u`, most significant first (R11, R63). -/
def bin : Nat → Nat → Bits
  | 0, _ => []
  | k + 1, u => u.testBit k :: bin k u

/-- The ASCII byte of a decimal digit (R68). -/
def digitByte (d : Nat) : Byte := BitVec.ofNat 8 (0x30 + d)

/-- The digits of `u` before `acc`, the first argument bounding their number. -/
def decDigits : Nat → Nat → List Byte → List Byte
  | 0, _, acc => acc
  | fuel + 1, u, acc =>
    if u < 10 then digitByte u :: acc else decDigits fuel (u / 10) (digitByte (u % 10) :: acc)

/-- `dec(u)`: the decimal ASCII digits of `u`, no leading zero, `dec(0) = "0"` (R11, R108). -/
def dec (u : Nat) : List Byte := decDigits (u + 1) u []

end Sys2Proof.Machine
end

