-- ==== Sys2Proof/Machine/RunLength.lean ====
section
/-! DEFINITION. The unit rle_ac_encoder: category, value bits, run-length symbols (spec/42_run_length.md R170 to R182;
spec/30_encoding.md R103). -/

namespace Sys2Proof.Machine

/-- `cat(v) = bitlen(abs(v))` (R170). -/
def cat (v : Int) : Nat := bitlen v.natAbs

/-- `val(v)`: the value bit pattern, `cat(v)` bits (R103, R172). -/
def val (v : Int) : Bits :=
  if v = 0 then []
  else if 0 < v then bin (cat v) v.toNat
  else bin (cat v) (v + 2 ^ cat v - 1).toNat

/-- A pair of the encoder's output (R174). -/
structure RlePair where
  sym : Sym
  value : Bits
deriving DecidableEq, Repr

/-- The terminator `((0,0), ε)` (R179). -/
def eob : RlePair := { sym := { run := 0, cat := 0 }, value := [] }

/-- The greatest index, counted from `i`, of a nonzero element, or `-1` (R175). -/
def lastNonzeroFrom (i : Nat) : List Int → Int
  | [] => -1
  | x :: xs =>
    let later := lastNonzeroFrom (i + 1) xs
    if later = -1 ∧ x ≠ 0 then i else later

/-- `last` of R175. -/
def lastNonzero (a : List Int) : Int := lastNonzeroFrom 0 a

/-- The loop of R176 at index `i` with run counter `run`, over the elements from `i` on. -/
def rleFrom (last : Int) : Nat → Nat → List Int → List RlePair
  | _, _, [] => [eob]
  | i, run, x :: xs =>
    if last < i then [eob]
    else if x = 0 ∧ run < 15 then rleFrom last (i + 1) (run + 1) xs
    else { sym := { run := run, cat := cat x }, value := val x } :: rleFrom last (i + 1) 0 xs

/-- `rle(a)` (R176). -/
def rle (a : List Int) : List RlePair := rleFrom (lastNonzero a) 0 0 a

end Sys2Proof.Machine
end

