-- ==== Sys2Proof/Machine/Huffman.lean ====
section
/-! DEFINITION. `BUILD`: frequency collection, huffman_tree_builder, canonical_code_generator (spec/43_huffman.md R190 to
R203). -/

namespace Sys2Proof.Machine

/-! ### Frequency collection -/

/-- `FREQ[t][x] += 1` (R192). -/
def bump (t : TableId) (x : Nat) (f : Tables (List Nat)) : Tables (List Nat) :=
  f.modify t fun l => l.modify x (· + 1)

/-- The AC symbols of one coefficient vector, terminator included (R173, R192). -/
def acPairs (z : List Int) : List RlePair := rle z.tail

/-- What one unit of class `k` with coefficient vector `z` adds to the counts (R192, R193). -/
def countVec (k : ChClass) (z : List Int) (f : Tables (List Nat)) : Tables (List Nat) :=
  (acPairs z).foldl (fun f p => bump (acTable k) (keyByte p.sym) f) (bump (dcTable k) (cat (z.headD 0)) f)

/-- Collection over every unit of the image, ascending, from cleared tables (R191, R192). -/
def collect (s : State) : Tables (List Nat) :=
  (List.range (unitTotal s)).foldl (fun f u => countVec (unitClass s u) (coefs s u) f) zeroFreq

/-! ### huffman_tree_builder -/

/-- A code tree; `inner child0 child1` (R197). -/
inductive Tree where
  | leaf (key : Nat)
  | inner (child0 child1 : Tree)
deriving DecidableEq, Repr

/-- A node of the store (R197); its subtree stands where R197 has `kind`. -/
structure Node where
  weight : Nat
  ord : Nat
  tree : Tree
deriving DecidableEq, Repr

/-- Node `x` is before node `y` (R198). -/
def Node.before (x y : Node) : Bool :=
  decide (x.weight < y.weight) || (decide (x.weight = y.weight) && decide (x.ord < y.ord))

/-- The minimum of `live` under R198, and `live` without it. -/
def takeMin : List Node → Option (Node × List Node)
  | [] => none
  | x :: xs =>
    match takeMin xs with
    | none => some (x, xs)
    | some (m, rest) => if x.before m then some (x, xs) else some (m, x :: rest)

/-- The node made of `a`, taken first, and `b` (R199). -/
def mergeNodes (a b : Node) (ord : Nat) : Node :=
  { weight := a.weight + b.weight, ord := ord, tree := .inner a.tree b.tree }

/-- The loop of R199: at most `fuel` merges; `ord` numbers the next node. -/
def mergeAll : Nat → Nat → List Node → List Node
  | 0, _, live => live
  | fuel + 1, ord, live =>
    match takeMin live with
    | none => live
    | some (a, rest) =>
      match takeMin rest with
      | none => live
      | some (b, rest') => mergeAll fuel (ord + 1) (rest' ++ [mergeNodes a b ord])

/-- The observed keys, ascending, with their counts (R195, R196). -/
def observed (freq : List Nat) : List (Nat × Nat) :=
  (freq.zipIdx.filter fun wk => decide (0 < wk.1)).map fun wk => (wk.2, wk.1)

/-- The leaves, numbered in ascending key order (R196, R197). -/
def leaves (freq : List Nat) : List Node :=
  (observed freq).zipIdx.map fun e => { weight := e.1.2, ord := e.2, tree := .leaf e.1.1 }

/-- The root of the tree of a frequency table; none when no key was observed (R195, R199). -/
def buildTree (freq : List Nat) : Option Tree :=
  let ls := leaves freq
  ((mergeAll ls.length ls.length ls).head?).map Node.tree

/-! ### canonical_code_generator -/

/-- `walk(node, prefix)` (R202): every leaf's key with the labels on its path. -/
def walk : Tree → Bits → List (Nat × Bits)
  | .leaf key, pre => [(key, pre)]
  | .inner c0 c1, pre => walk c0 (pre ++ [false]) ++ walk c1 (pre ++ [true])

/-- The codes of a tree; a tree of a single leaf gets the code `"0"` (R202, R203). -/
def treeCodes : Tree → List (Nat × Bits)
  | .leaf key => [(key, [false])]
  | .inner c0 c1 => walk (.inner c0 c1) []

/-- `codes_of(FREQ[t])` (R190, R195 to R203): one entry per key index, `none` where it has no code. -/
def codesOf (freq : List Nat) : List (Option Bits) :=
  match buildTree freq with
  | none => freq.map fun _ => none
  | some t => (List.range freq.length).map fun key => (treeCodes t).lookup key

/-- `count(t)`: the valid entries of a code table (R109, R190). -/
def countValid (code : List (Option Bits)) : Nat := (code.filter Option.isSome).length

/-- `TABCNT` (R35, R190). -/
def tabcntOf (c : Tables (List (Option Bits))) : Word :=
  BitVec.ofNat 32 (countValid c.dcY) ||| (BitVec.ofNat 32 (countValid c.acY) <<< 8) |||
    (BitVec.ofNat 32 (countValid c.dcC) <<< 16) ||| (BitVec.ofNat 32 (countValid c.acC) <<< 24)

/-! ### The command -/

/-- The four code tables of the image loaded (R190). -/
def builtCode (s : State) : Tables (List (Option Bits)) := (collect s).map codesOf

/-- What `BUILD` leaves: `FREQ`, `CODE`, `TABCNT`, `PHASE` (R190; `FREQ` as its pseudocode leaves it, log 6). -/
def buildTables (s : State) : State :=
  { s with freq := collect s, code := builtCode s, tabcnt := tabcntOf (builtCode s), phase := .tables }

/-- `BUILD` (R190). -/
def execBuild (s : State) : Result :=
  inPhase 0x20#8 [.load]
    (fun s =>
      if s.ldcnt.toNat = unitTotal s then .next (buildTables s)
      else .next (raise .illegalSequence (sequenceInfo 0x20#8 s.phase) s))
    s

end Sys2Proof.Machine
end

