-- ==== Sys2Proof/Machine/Bitstream.lean ====
section
/-! DEFINITION. `EMIT`: the unit bitstream_packer (spec/44_bitstream.md R220 to R228). -/

namespace Sys2Proof.Machine

/-- `ERRINFO` of `InconsistentSymbolStatistics`: `(t << 8) | x` (R221, R261). -/
def lookupInfo (t : TableId) (x : Nat) : Word := BitVec.ofNat 32 (tableNumber t * 256 + x)

/-- `lookup(t, x)` (R221): the code, or what the fault records. A key without a code is never coded otherwise. -/
def lookup (code : Tables (List (Option Bits))) (t : TableId) (x : Nat) : Except Word Bits :=
  match (code.get t)[x]? with
  | some (some b) => .ok b
  | some none => .error (lookupInfo t x)
  | none => .error (lookupInfo t x)

/-- The bits of the AC pairs, in order: each symbol's code, then its value (R222). -/
def pairBits (code : Tables (List (Option Bits))) (t : TableId) : List RlePair → Except Word Bits
  | [] => .ok []
  | p :: ps =>
    match lookup code t (keyByte p.sym) with
    | .error e => .error e
    | .ok c =>
      match pairBits code t ps with
      | .error e => .error e
      | .ok bs => .ok (c ++ p.value ++ bs)

/-- `unit_bits` of a unit of class `k` with coefficient vector `z` (R222). -/
def vecBits (code : Tables (List (Option Bits))) (k : ChClass) (z : List Int) : Except Word Bits :=
  match lookup code (dcTable k) (cat (z.headD 0)) with
  | .error e => .error e
  | .ok c =>
    match pairBits code (acTable k) (acPairs z) with
    | .error e => .error e
    | .ok bs => .ok (c ++ val (z.headD 0) ++ bs)

/-- `unit_bits(u)` (R222). -/
def unitBits (s : State) (u : Nat) : Except Word Bits := vecBits s.code (unitClass s u) (coefs s u)

/-- The bits of the units `us`, in order, stopping at the first failing lookup (R220, R223, R272). -/
def unitsBits (s : State) : List Nat → Except Word Bits
  | [] => .ok []
  | u :: us =>
    match unitBits s u with
    | .error e => .error e
    | .ok b =>
      match unitsBits s us with
      | .error e => .error e
      | .ok bs => .ok (b ++ bs)

/-- The header `bin_32(NBLK)` (R224). -/
def headerBits (s : State) : Bits := bin 32 s.nblk.toNat

/-- The whole sequence (R224), or what the first failing lookup records. -/
def emitBits (s : State) : Except Word Bits :=
  match unitsBits s (List.range (unitTotal s)) with
  | .error e => .error e
  | .ok bs => .ok (headerBits s ++ bs)

/-- What `EMIT` leaves with the sequence `b` (R220, R226). -/
def finishEmit (b : Bits) (s : State) : State :=
  { s with bitbuf := b, bitlen := BitVec.ofNat 64 b.length, phase := .done }

/-- `EMIT` (R220). -/
def execEmit (s : State) : Result :=
  inPhase 0x30#8 [.tables]
    (fun s =>
      match emitBits s with
      | .error info => .next (raise .inconsistentSymbolStatistics info s)
      | .ok b => .next (finishEmit b s))
    s

/-! ### Packing into bytes -/

/-- The byte of eight bits, the first in bit 7 (R66). -/
def byteOfBits (b : Bits) : Byte := BitVec.ofNat 8 (b.foldl (fun a x => 2 * a + x.toNat) 0)

/-- The bit sequence zero-padded to whole bytes (R67). -/
def padBits (b : Bits) : Bits := b ++ List.replicate ((8 - b.length % 8) % 8) false

/-- Eight bits at a time (R66); a rest of fewer than eight bits, which padding excludes, yields nothing. -/
def bytesOfBits : Bits → List Byte
  | b7 :: b6 :: b5 :: b4 :: b3 :: b2 :: b1 :: b0 :: rest =>
    byteOfBits [b7, b6, b5, b4, b3, b2, b1, b0] :: bytesOfBits rest
  | _ => []

/-- `pack(B)` (R228). -/
def pack (b : Bits) : List Byte := bytesOfBits (padBits b)

end Sys2Proof.Machine
end

