-- ==== Sys2Proof/Machine/Container.lean ====
section
/-! DEFINITION. `WRTAB` and `WRDAT`: the unit jpeg_container_writer (spec/45_container.md R240 to R253; spec/30_encoding.md
R105 to R116). -/

namespace Sys2Proof.Machine

/-- The line feed that ends every line (R108). -/
def lf : Byte := 0x0A#8

/-- The comma (R68). -/
def comma : Byte := 0x2C#8

/-- A code as the characters `0` and `1`, first bit first (R108). -/
def codeChars (b : Bits) : List Byte := b.map fun x => if x then 0x31#8 else 0x30#8

/-- Line 1: `WIDTH`, comma, `HEIGHT` (R109, R115). -/
def geometryLine (w h : Word) : List Byte := dec w.toNat ++ [comma] ++ dec h.toNat ++ [lf]

/-- The key line of an entry: a category (R110) or `run,cat` (R111). -/
def keyLine (isDc : Bool) (x : Nat) : List Byte :=
  if isDc then dec x ++ [lf]
  else dec (symOfKey x).run ++ [comma] ++ dec (symOfKey x).cat ++ [lf]

/-- The two lines of an entry (R110 to R112). -/
def entryLines (isDc : Bool) (x : Nat) (b : Bits) : List Byte := keyLine isDc x ++ codeChars b ++ [lf]

/-- The valid entries of a code table, ascending by key index from `x` on (R116). -/
def validEntriesFrom (x : Nat) : List (Option Bits) → List (Nat × Bits)
  | [] => []
  | none :: rest => validEntriesFrom (x + 1) rest
  | some b :: rest => (x, b) :: validEntriesFrom (x + 1) rest

/-- The valid entries of a code table, ascending by key index. -/
def validEntries (code : List (Option Bits)) : List (Nat × Bits) := validEntriesFrom 0 code

/-- `section(t)`: the count line, then the entries (R109, R241). -/
def sectionLines (isDc : Bool) (code : List (Option Bits)) : List Byte :=
  dec (validEntries code).length ++ [lf] ++ (validEntries code).flatMap fun e => entryLines isDc e.1 e.2

/-- The table file of a geometry and four code tables (R109). -/
def tableFile (w h : Word) (c : Tables (List (Option Bits))) : List Byte :=
  geometryLine w h ++ sectionLines true c.dcY ++ sectionLines false c.acY ++ sectionLines true c.dcC ++
    sectionLines false c.acC

/-- `table_file_bytes()` (R241). -/
def tableFileBytes (s : State) : List Byte := tableFile s.width s.height s.code

/-- `WRTAB` in phase `DONE` (R240). -/
def writeTable (s : State) : Result :=
  if sinkAnswer s 0 then .next (setTabw (replaceSink0 (tableFileBytes s) (answerUsed s)))
  else .next (raise .pathNotFound 0#32 (answerUsed s))

/-- `WRDAT` in phase `DONE` (R248). -/
def writeData (s : State) : Result :=
  if sinkAnswer s 1 then .next (setDatw (replaceSink1 (pack s.bitbuf) (answerUsed s)))
  else .next (raise .pathNotFound 1#32 (answerUsed s))

/-- `WRTAB` (R240). -/
def execWrtab (s : State) : Result := inPhase 0x40#8 [.done] writeTable s

/-- `WRDAT` (R248). -/
def execWrdat (s : State) : Result := inPhase 0x41#8 [.done] writeData s

end Sys2Proof.Machine
end

