-- ==== Sys2Proof/Machine/Control.lean ====
section
/-! DEFINITION. The control commands (spec/40_control_commands.md R133 to R138). -/

namespace Sys2Proof.Machine

/-- `NOP` (R133): no effect, in every phase. -/
def execNop (s : State) : Result := .next s

/-- `INIT` (R134): legal in every phase, `FAULT` included. -/
def execInit (s : State) : Result := .next (resetCore s)

/-- `SETW n` (R135). -/
def execSetw (n : Word) (s : State) : Result :=
  inPhase 0x02#8 [.idle] (fun s => .next { s with width := zextOperand n }) s

/-- `SETH n` (R136). -/
def execSeth (n : Word) (s : State) : Result :=
  inPhase 0x03#8 [.idle] (fun s => .next { s with height := zextOperand n }) s

/-- `SETN n` (R137). -/
def execSetn (n : Word) (s : State) : Result :=
  inPhase 0x04#8 [.idle] (fun s => .next { s with nblk := zextOperand n }) s

/-- What `BEGIN` leaves when the capacity suffices (R138). -/
def beginLoad (s : State) : State :=
  clearFlags
    { s with
      ldcnt := 0#64, bitlen := 0#64, tabcnt := 0#32, code := invalidCode, bitbuf := [], phase := .load }

/-- `BEGIN` (R138): `CapacityExceeded(NBLK)` when `NBLK > MAX_N` (R266). -/
def execBegin (s : State) : Result :=
  inPhase 0x05#8 [.idle]
    (fun s =>
      if s.cfg.maxN < s.nblk.toNat then .next (raise .capacityExceeded s.nblk s) else .next (beginLoad s))
    s

end Sys2Proof.Machine
end

