-- ==== Sys2Proof/Machine/Quantize.lean ====
section
/-! DEFINITION. `LDBLK`: the units quantizer_8x8 and zigzag_64_reorder (spec/41_quantize_zigzag.md R150 to R160). -/

namespace Sys2Proof.Machine

/-- What rounding does at an exact half between `fl` and `fl + 1` (R154). -/
def tieBreak : Tie → Int → Int
  | .halfEven, fl => if fl % 2 = 0 then fl else fl + 1

/-- `quant(n, d)` (R153): the integer nearest to `n / (d * 2^16)`, exact. -/
def quant (tie : Tie) (n : Int) (d : Nat) : Int :=
  let D : Int := d * 65536
  let fl := n / D
  let rem := n - fl * D
  if 2 * rem < D then fl else if 2 * rem > D then fl + 1 else tieBreak tie fl

/-- `q[0..63]` of R150: element `i` from payload word `i` and divisor `i`, row-major. -/
def quantBlock (tie : Tie) (m : DivMatrix) (p : List Word) : List Int :=
  List.zipWith (fun w d => quant tie (coefNumerator w) d.bits.toNat) p m.toList

/-- Largest magnitude of element `i`: 2047 for the DC element, 1023 for the others (R155). -/
def coefLimit (i : Nat) : Nat := if i = 0 then 2047 else 1023

/-- The first index, counted from `i`, whose element is out of range (R155). -/
def outOfRangeFrom (i : Nat) : List Int → Option Nat
  | [] => none
  | v :: vs => if coefLimit i < v.natAbs then some i else outOfRangeFrom (i + 1) vs

/-- The lowest failing row-major index of a quantised block, if any (R155). -/
def firstOutOfRange (q : List Int) : Option Nat := outOfRangeFrom 0 q

/-- `z[k] = q[8*r + c]` for `(r, c) = ZZROM[k]` (R157). -/
def zigzag (scan : ZZRom) (q : List Int) : List Int :=
  scan.toList.map fun rc => q.getD (8 * rc.1.toNat + rc.2.toNat) 0

/-- The quantised block of the next unit: the class of unit `LDCNT` selects the matrix (R150, R151). -/
def nextBlock (p : List Word) (s : State) : List Int :=
  quantBlock s.cfg.tie (s.qrom.get (unitClass s s.ldcnt.toNat)) p

/-- `LDBLK` after its checks: one vector stored, one unit counted (R150). -/
def storeUnit (q : List Int) (s : State) : State :=
  { s with
    cbuf := CoefMem.write s.cbuf s.ldcnt.toNat (vecOfInts (zigzag s.zzrom q))
    ldcnt := s.ldcnt + 1#64 }

/-- The body of `LDBLK` in phase `LOAD`: count, then range, then effect (R150, R272). -/
def loadBlock (p : List Word) (s : State) : Result :=
  if unitTotal s ≤ s.ldcnt.toNat then
    .next (raise .illegalSequence (sequenceInfo 0x10#8 s.phase) s)
  else
    match firstOutOfRange (nextBlock p s) with
    | some i => .next (raise .coefficientRange (BitVec.ofNat 32 i) s)
    | none => .next (storeUnit (nextBlock p s) s)

/-- `LDBLK p[0..63]` (R150). A payload that is not 64 words is no command (log 17). -/
def execLdblk (p : List Word) (s : State) : Result :=
  if p.length = 64 then inPhase 0x10#8 [.load] (loadBlock p) s else .fault .illFormedBlock

end Sys2Proof.Machine
end

