-- ==== Sys2Proof/Machine/Dispatch.lean ====
section
/-! DEFINITION. One arm per command. -/

namespace Sys2Proof.Machine

def exec (i : Instr) (s : State) : Host.Outcome State Fault Refusal :=
  match i with
  | .nop => Sys2Proof.Machine.execNop s
  | .init => Sys2Proof.Machine.execInit s
  | .setw n => Sys2Proof.Machine.execSetw n s
  | .seth n => Sys2Proof.Machine.execSeth n s
  | .setn n => Sys2Proof.Machine.execSetn n s
  | .begin => Sys2Proof.Machine.execBegin s
  | .ldblk p => Sys2Proof.Machine.execLdblk p s
  | .build => Sys2Proof.Machine.execBuild s
  | .emit => Sys2Proof.Machine.execEmit s
  | .wrtab => Sys2Proof.Machine.execWrtab s
  | .wrdat => Sys2Proof.Machine.execWrdat s

end Sys2Proof.Machine
end

