-- ==== Sys2Proof/Machine/Step.lean ====
section
/-! DEFINITION. One step of the machine: the reset request, else the next command of the stream (spec/40_control_commands.md
R130; spec/20_memory.md R75, R78; spec/70_reset_and_hazards.md R300). -/

namespace Sys2Proof.Machine

/-- One step. A reset request is taken first (log 10). A stream that holds no whole command leaves the core waiting with
its state unchanged (R78; log 1). Otherwise the command's words are consumed (R93) and it is executed (R130). -/
def step (s : State) : Host.Outcome State Fault Refusal :=
  if s.rst then .next (takeReset s)
  else
    match decode s.cs with
    | .waiting => .next s
    | .illegal w rest => illegalHeader w { s with cs := rest }
    | .command i rest => exec i { s with cs := rest }

/-- `s` with one command, given as the opcode table numbers its bits, next on the command stream (log 18, log 23). -/
def State.withFetchWord (s : State) (nbits w : Nat) : State := placeCommand s nbits w

end Sys2Proof.Machine
end

