-- ==== Sys2Proof/Machine/Assembler.lean ====
section
/-! DEFINITION. The assembler: operands, commands, pseudo-commands, and the text form (spec/30_encoding.md R98, R99). It is
a tool of the host; no step of the machine uses it. -/

namespace Sys2Proof

/-- An assembler operand `x` of `LDBLK`: the word `(x * 65536) mod 2^32`, refused unless `x * 65536` is an integer in
`-2^31 .. 2^31 - 1` (R98). -/
def asmCoef (x : Rat) : Option Word :=
  let y := x * 65536
  if y.den = 1 ∧ -2147483648 ≤ y.num ∧ y.num ≤ 2147483647 then some (BitVec.ofInt 32 y.num) else none

/-- An assembler operand `n`: an unsigned integer below `2^32` (R98). -/
def asmWord (n : Nat) : Option Word := if n < 4294967296 then some (BitVec.ofNat 32 n) else none

/-- One line of assembler: a command of R98 or a pseudo-command of R99. -/
inductive AsmLine where
  | nop
  | init
  | setw (n : Nat)
  | seth (n : Nat)
  | setn (n : Nat)
  | begin
  | ldblk (xs : List Rat)
  | build
  | emit
  | wrtab
  | wrdat
  | setdim (w h n : Nat)
  | ldzero
  | lddc (x : Rat)
  | encode
  | flush
deriving DecidableEq, Repr

/-- The operands of an `LDBLK` line: exactly 64, each representable. -/
def asmBlock (xs : List Rat) : Option Instr :=
  if xs.length = 64 then (xs.mapM asmCoef).map .ldblk else none

/-- What a line assembles to; none where the assembler refuses it (R98, R99). -/
def asmLine : AsmLine → Option (List Instr)
  | .nop => some [.nop]
  | .init => some [.init]
  | .setw n => (asmWord n).map fun x => [.setw x]
  | .seth n => (asmWord n).map fun x => [.seth x]
  | .setn n => (asmWord n).map fun x => [.setn x]
  | .begin => some [.begin]
  | .ldblk xs => (asmBlock xs).map fun i => [i]
  | .build => some [.build]
  | .emit => some [.emit]
  | .wrtab => some [.wrtab]
  | .wrdat => some [.wrdat]
  | .setdim w h n =>
    match asmWord w, asmWord h, asmWord n with
    | some x, some y, some z => some [.setw x, .seth y, .setn z]
    | _, _, _ => none
  | .ldzero => (asmBlock (List.replicate 64 0)).map fun i => [i]
  | .lddc x => (asmBlock (x :: List.replicate 63 0)).map fun i => [i]
  | .encode => some [.build, .emit]
  | .flush => some [.wrtab, .wrdat]

/-- A program: the words of its lines, in order; none when a line is refused. -/
def assemble (ls : List AsmLine) : Option (List Word) :=
  (ls.mapM asmLine).map fun is => is.flatten.flatMap encode

/-! ### The text form (R98; log 22) -/

/-- Blanks inside a line. -/
def isBlank (c : Char) : Bool := c == ' ' || c == '\t'

/-- Blanks removed at both ends. -/
def trimChars (l : List Char) : List Char := ((l.dropWhile isBlank).reverse.dropWhile isBlank).reverse

/-- The pieces of `l` between the separators `sep`, always at least one. -/
def splitAtChar (sep : Char) : List Char → List (List Char)
  | [] => [[]]
  | c :: cs =>
    match splitAtChar sep cs with
    | [] => [[]]
    | p :: ps => if c = sep then [] :: p :: ps else (c :: p) :: ps

/-- A line without its comment and outer blanks. -/
def codeOfLine (l : List Char) : List Char := trimChars (l.takeWhile fun c => c != ';')

/-- Code lines, a line that ends in a comma joined with the next that is not blank. -/
def joinLines : List (List Char) → List (List Char)
  | [] => []
  | l :: ls =>
    match joinLines ls with
    | [] => if l = [] then [] else [l]
    | n :: ns => if l = [] then n :: ns else if l.getLast? = some ',' then (l ++ n) :: ns else l :: n :: ns

/-- The value of a digit in base 16. -/
def hexDigit (c : Char) : Option Nat :=
  let v := c.toNat
  if 48 ≤ v ∧ v ≤ 57 then some (v - 48)
  else if 65 ≤ v ∧ v ≤ 70 then some (v - 55)
  else if 97 ≤ v ∧ v ≤ 102 then some (v - 87)
  else none

/-- A number of one or more digits in base `b`. -/
def digitsIn (b : Nat) (l : List Char) : Option Nat :=
  if l = [] then none
  else
    l.foldl (fun acc c => acc.bind fun a => (hexDigit c).bind fun d => if d < b then some (a * b + d) else none) (some 0)

/-- An operand `n`: decimal, or hexadecimal after `0x`. -/
def parseNat : List Char → Option Nat
  | '0' :: 'x' :: ds => digitsIn 16 ds
  | ds => digitsIn 10 ds

/-- An unsigned decimal number with an optional fraction. -/
def parseUnsigned (l : List Char) : Option Rat :=
  match splitAtChar '.' l with
  | [i] => (digitsIn 10 i).map fun n => (n : Rat)
  | [i, f] =>
    match digitsIn 10 i, digitsIn 10 f with
    | some n, some m => some (mkRat (n * 10 ^ f.length + m : Nat) (10 ^ f.length))
    | _, _ => none
  | _ => none

/-- An operand `x`: a decimal number, optional sign, optional fraction. -/
def parseRat : List Char → Option Rat
  | '-' :: l => (parseUnsigned l).map fun x => -x
  | '+' :: l => parseUnsigned l
  | l => parseUnsigned l

/-- The line of a mnemonic and its operands. -/
def lineOf (m : List Char) (ops : List (List Char)) : Option AsmLine :=
  match m, ops with
  | ['N', 'O', 'P'], [] => some .nop
  | ['I', 'N', 'I', 'T'], [] => some .init
  | ['S', 'E', 'T', 'W'], [a] => (parseNat a).map .setw
  | ['S', 'E', 'T', 'H'], [a] => (parseNat a).map .seth
  | ['S', 'E', 'T', 'N'], [a] => (parseNat a).map .setn
  | ['B', 'E', 'G', 'I', 'N'], [] => some .begin
  | ['L', 'D', 'B', 'L', 'K'], xs => (xs.mapM parseRat).map .ldblk
  | ['B', 'U', 'I', 'L', 'D'], [] => some .build
  | ['E', 'M', 'I', 'T'], [] => some .emit
  | ['W', 'R', 'T', 'A', 'B'], [] => some .wrtab
  | ['W', 'R', 'D', 'A', 'T'], [] => some .wrdat
  | ['S', 'E', 'T', 'D', 'I', 'M'], [a, b, c] =>
    match parseNat a, parseNat b, parseNat c with
    | some w, some h, some n => some (.setdim w h n)
    | _, _, _ => none
  | ['L', 'D', 'Z', 'E', 'R', 'O'], [] => some .ldzero
  | ['L', 'D', 'D', 'C'], [a] => (parseRat a).map .lddc
  | ['E', 'N', 'C', 'O', 'D', 'E'], [] => some .encode
  | ['F', 'L', 'U', 'S', 'H'], [] => some .flush
  | _, _ => none

/-- One code line. -/
def parseLine (l : List Char) : Option AsmLine :=
  let ops := trimChars (l.dropWhile fun c => !isBlank c)
  lineOf (l.takeWhile fun c => !isBlank c) (if ops = [] then [] else (splitAtChar ',' ops).map trimChars)

/-- A program text. -/
def parseProgram (text : List Char) : Option (List AsmLine) :=
  (joinLines ((splitAtChar '\n' text).map codeOfLine)).mapM parseLine

/-- The words of a program text; none when the assembler refuses a line. -/
def assembleText (text : List Char) : Option (List Word) := (parseProgram text).bind assemble

end Sys2Proof
end

