-- ==== Sys2Proof/Machine/HostSide.lean ====
section
/-! DEFINITION. What the host may do between two commands (spec/20_memory.md R81; spec/00_scope.md R13). Status reads change
nothing and are the function `readSR`. -/

namespace Sys2Proof.Machine

/-- One act of the host. It never removes or alters a word already consumed, and never acts inside a command (R81). -/
inductive HostAct where
  /-- Append words to the command stream. -/
  | append (ws : List Word)
  /-- Prepare one more answer to `SinkPresent`. -/
  | prepare (present : Bool)
  /-- Change or delete the content of sink 0. -/
  | changeSink0 (bytes : List Byte)
  /-- Change or delete the content of sink 1. -/
  | changeSink1 (bytes : List Byte)
  /-- Assert the reset input. -/
  | assertReset
deriving DecidableEq, Repr

/-- The state after an act of the host. -/
def hostAct (a : HostAct) (s : State) : State :=
  match a with
  | .append ws => { s with cs := s.cs ++ ws }
  | .prepare present => { s with answers := s.answers ++ [present] }
  | .changeSink0 bytes => { s with sink0 := bytes }
  | .changeSink1 bytes => { s with sink1 := bytes }
  | .assertReset => { s with rst := true }

end Sys2Proof.Machine
end

