-- ==== Sys2Proof/Machine/Reader.lean ====
section
/-! DEFINITION. The readers of the two artifacts that the round-trip rules speak of (spec/30_encoding.md R104, R118;
spec/42_run_length.md R181; spec/44_bitstream.md R231). They are no part of the hardware (R5 (d)) and no step uses them
(log 27). -/

namespace Sys2Proof.Machine

/-! ### Values and run-length pairs -/

/-- A bit string read as an unsigned integer, first bit most significant. -/
def ofBits (b : Bits) : Nat := b.foldl (fun a x => 2 * a + x.toNat) 0

/-- The inverse of `val` (R104); the empty string is 0. -/
def valInverse (b : Bits) : Int :=
  match b with
  | [] => 0
  | true :: _ => ofBits b
  | false :: _ => (ofBits b : Int) - 2 ^ b.length + 1

/-- The elements that the pairs before the terminator account for (R181). -/
def unrleElems : List RlePair → List Int
  | [] => []
  | p :: ps =>
    if p.sym = { run := 0, cat := 0 } then []
    else List.replicate p.sym.run 0 ++ [if 0 < p.sym.cat then valInverse p.value else 0] ++ unrleElems ps

/-- The inverse of `rle` (R181): 63 elements, zero where no pair says otherwise. -/
def unrle (ps : List RlePair) : List Int := unrleElems ps ++ List.replicate (63 - (unrleElems ps).length) 0

/-! ### The data file -/

/-- The bits of one byte, bit 7 first (R66). -/
def bitsOfByte (b : Byte) : Bits := bin 8 b.toNat

/-- The bits of a byte sequence (R66). -/
def unpack (l : List Byte) : Bits := l.flatMap bitsOfByte

/-- `b` without the prefix `p`, if it begins with it. -/
def dropPrefix : Bits → Bits → Option Bits
  | [], b => some b
  | _ :: _, [] => none
  | x :: p, y :: b => if x = y then dropPrefix p b else none

/-- The first entry whose code begins `b`: its key, and the bits after the code. -/
def matchCode : List (Nat × Bits) → Bits → Option (Nat × Bits)
  | [], _ => none
  | (key, c) :: es, b =>
    match dropPrefix c b with
    | some rest => some (key, rest)
    | none => matchCode es b

/-- AC pairs up to and including the terminator, at most `fuel` of them, and the bits after it (R231). -/
def readPairs (entries : List (Nat × Bits)) : Nat → Bits → Option (List RlePair × Bits)
  | 0, _ => none
  | fuel + 1, b =>
    match matchCode entries b with
    | none => none
    | some (key, rest) =>
      let x := symOfKey key
      if rest.length < x.cat then none
      else if key = 0 then some ([{ sym := x, value := [] }], rest)
      else
        match readPairs entries fuel (rest.drop x.cat) with
        | none => none
        | some (ps, b') => some ({ sym := x, value := rest.take x.cat } :: ps, b')

/-- One unit: DC category and value, then at most 64 AC pairs (R231). -/
def readVec (dc ac : List (Nat × Bits)) (b : Bits) : Option (List Int × Bits) :=
  match matchCode dc b with
  | none => none
  | some (k, rest) =>
    if rest.length < k then none
    else
      match readPairs ac 64 (rest.drop k) with
      | none => none
      | some (ps, b') => some (valInverse (rest.take k) :: unrle ps, b')

/-- The coefficient vectors of units, given the class of each (R231). -/
def readUnits (c : Tables (List (Option Bits))) : List ChClass → Bits → Option (List (List Int) × Bits)
  | [], b => some ([], b)
  | k :: ks, b =>
    match readVec (validEntries (c.get (dcTable k))) (validEntries (c.get (acTable k))) b with
    | none => none
    | some (z, b') =>
      match readUnits c ks b' with
      | none => none
      | some (zs, b'') => some (z :: zs, b'')

/-- The classes of the units of `nblk` block positions, in the order of R223. -/
def unitClasses (nch nblk : Nat) : List ChClass := (List.range (nblk * nch)).map fun u => classOf (unitChannel nch u)

/-- A data file read with its four code tables: `NBLK`, and the coefficient vector of every unit (R231). -/
def readDataFile (c : Tables (List (Option Bits))) (nch : Nat) (file : List Byte) : Option (Nat × List (List Int)) :=
  let b := unpack file
  if b.length < 32 then none
  else
    match readUnits c (unitClasses nch (ofBits (b.take 32))) (b.drop 32) with
    | none => none
    | some (zs, _) => some (ofBits (b.take 32), zs)

/-! ### The table file -/

/-- A text as lines, each ended by a line feed; what follows the last line feed is the second part. -/
def splitLines : List Byte → List (List Byte) × List Byte
  | [] => ([], [])
  | c :: cs =>
    match splitLines cs with
    | ([], last) => if c = lf then ([[]], last) else ([], c :: last)
    | (l :: ls, last) => if c = lf then ([] :: l :: ls, last) else ((c :: l) :: ls, last)

/-- A decimal number of one or more digits. -/
def readDec (l : List Byte) : Option Nat :=
  if l = [] then none
  else
    l.foldl
      (fun acc c =>
        acc.bind fun a => if 0x30 ≤ c.toNat ∧ c.toNat ≤ 0x39 then some (a * 10 + (c.toNat - 0x30)) else none)
      (some 0)

/-- Two decimal numbers separated by one comma. -/
def readPair (l : List Byte) : Option (Nat × Nat) :=
  match readDec (l.takeWhile fun c => c != comma), readDec ((l.dropWhile fun c => c != comma).drop 1) with
  | some a, some b => some (a, b)
  | _, _ => none

/-- A code line. -/
def readCode : List Byte → Option Bits
  | [] => some []
  | c :: cs =>
    match readCode cs with
    | none => none
    | some b => if c = 0x30#8 then some (false :: b) else if c = 0x31#8 then some (true :: b) else none

/-- A key line: a category, or `run,cat` as a key byte (R100, R110, R111). -/
def readKey (isDc : Bool) (l : List Byte) : Option Nat :=
  if isDc then readDec l else (readPair l).map fun rc => keyByte { run := rc.1, cat := rc.2 }

/-- `n` entries of two lines each, and the lines after them (R112, R118). -/
def readEntries (isDc : Bool) : Nat → List (List Byte) → Option (List (Nat × Bits) × List (List Byte))
  | 0, ls => some ([], ls)
  | n + 1, k :: c :: ls =>
    match readKey isDc k, readCode c, readEntries isDc n ls with
    | some x, some b, some (es, ls') => some ((x, b) :: es, ls')
    | _, _, _ => none
  | _ + 1, _ => none

/-- One section: the count line, then its entries (R109). -/
def readSection (isDc : Bool) : List (List Byte) → Option (List (Nat × Bits) × List (List Byte))
  | [] => none
  | n :: ls =>
    match readDec n with
    | none => none
    | some k => readEntries isDc k ls

/-- A table file: width, height and the entries of the four tables (R118). -/
def readTableFile (file : List Byte) : Option ((Nat × Nat) × Tables (List (Nat × Bits))) :=
  match splitLines file with
  | (g :: ls, []) =>
    match readPair g, readSection true ls with
    | some wh, some (dcY, ls1) =>
      match readSection false ls1 with
      | none => none
      | some (acY, ls2) =>
        match readSection true ls2 with
        | none => none
        | some (dcC, ls3) =>
          match readSection false ls3 with
          | some (acC, []) => some (wh, { dcY := dcY, acY := acY, dcC := dcC, acC := acC })
          | _ => none
    | _, _ => none
  | _ => none

end Sys2Proof.Machine
end

