-- ==== Sys2Proof/Safety.lean ====
section
/-! DEFINITION. What claims are stated in: the legality table (spec/40_control_commands.md R131), what the host can observe
(spec/00_scope.md R14), and the invariant of the machine (spec/10_state.md R28, R32, R33, R40 to R44). -/

namespace Sys2Proof.Machine

/-- R131: in which phases other than `FAULT` a command is legal. -/
def legalIn : Instr → Phase → Bool
  | .nop, _ | .init, _ => true
  | .setw _, p | .seth _, p | .setn _, p | .begin, p => p == .idle
  | .ldblk _, p | .build, p => p == .load
  | .emit, p => p == .tables
  | .wrtab, p | .wrdat, p => p == .done

/-- The 162 symbols the run-length encoder can produce (R102). -/
def possibleSym (x : Sym) : Bool :=
  (x.run == 0 && x.cat == 0) || (x.run == 15 && x.cat == 0) ||
    (decide (x.run ≤ 15) && decide (1 ≤ x.cat) && decide (x.cat ≤ 10))

/-- A coefficient vector in range: DC in -2047..2047, the 63 AC elements in -1023..1023 (R40, R155). -/
def vecInRange (z : List Int) : Prop :=
  z.length = 64 ∧ (z.headD 0).natAbs ≤ 2047 ∧ ∀ v ∈ z.tail, v.natAbs ≤ 1023

/-- What the host can observe (R14): the status registers and both sinks. -/
def sameObservation (s t : State) : Prop :=
  (∀ n, readSR s n = readSR t n) ∧ s.sink0 = t.sink0 ∧ s.sink1 = t.sink1

/-- The two states differ at most in elements that the spec leaves unspecified: `FREQ`, the units of `CBUF` not loaded
(R41, R48), and in phase `FAULT` also `CODE`, `BITBUF` and all of `CBUF` (R270). -/
def sameButUnspecified (s t : State) : Prop :=
  t = { s with freq := t.freq, cbuf := t.cbuf, code := t.code, bitbuf := t.bitbuf } ∧
    (s.phase ≠ .fault →
      t.code = s.code ∧ t.bitbuf = s.bitbuf ∧
        ∀ u < s.ldcnt.toNat, CoefMem.read t.cbuf u = CoefMem.read s.cbuf u)

/-- No result of an image stands yet: codes invalid, bit buffer empty, result registers and flags 0 (R29, R34, R35,
R42, R44). -/
def noResults (s : State) : Prop :=
  s.code = invalidCode ∧ s.tabcnt = 0#32 ∧ s.bitbuf = [] ∧ s.bitlen = 0#64 ∧ s.tabw = false ∧ s.datw = false

/-- The tables of the loaded image stand (R42, R190). -/
def tablesBuilt (s : State) : Prop :=
  s.ldcnt.toNat = unitTotal s ∧ s.code = builtCode s ∧ s.tabcnt = tabcntOf (builtCode s)

/-- The invariant. In phase `FAULT` it says nothing of `CODE`, `BITBUF` and the results (R270). -/
structure State.Inv (s : State) : Prop where
  /-- `ZZROM` holds its constant content (R39, R158). -/
  scan : s.zzrom = zzromContent
  /-- The parameters are those a claim is made for (R7). -/
  params : s.cfg.wf = true
  /-- `ERR != 0` exactly when `PHASE = FAULT` (R32). -/
  errPhase : s.err ≠ none ↔ s.phase = .fault
  /-- `ERRINFO` is 0 when `ERR = 0` (R33). -/
  errInfo : s.err = none → s.errinfo = 0#32
  /-- `LDCNT <= NBLK*NCH` (R28). -/
  count : s.ldcnt.toNat ≤ unitTotal s
  /-- `CBUF` is in its canonical form. -/
  memory : CoefMem.wf s.cbuf = true
  /-- Every unit loaded is stored, in range (R40). -/
  loaded : ∀ u < s.ldcnt.toNat, ∃ x, (u, x) ∈ s.cbuf ∧ vecInRange (intsOfVec x)
  /-- In `IDLE` no unit is loaded and no result stands (R48). -/
  inIdle : s.phase = .idle → s.ldcnt = 0#64 ∧ noResults s
  /-- From `BEGIN` on the image fits the buffer (R138). -/
  capacity : s.phase = .load ∨ s.phase = .tables ∨ s.phase = .done → s.nblk.toNat ≤ s.cfg.maxN
  /-- In `LOAD` no result stands (R138). -/
  inLoad : s.phase = .load → noResults s
  /-- In `TABLES` the tables stand and nothing is emitted (R190). -/
  inTables : s.phase = .tables →
    tablesBuilt s ∧ s.bitbuf = [] ∧ s.bitlen = 0#64 ∧ s.tabw = false ∧ s.datw = false
  /-- In `DONE` the bit sequence of the image stands and `BITLEN` counts it (R220, R226). -/
  inDone : s.phase = .done →
    tablesBuilt s ∧ emitBits s = .ok s.bitbuf ∧ s.bitlen = BitVec.ofNat 64 s.bitbuf.length

end Sys2Proof.Machine
end

