-- ==== Sys2Proof/Certificates/Slice0/Obligations.lean ====
section
/-! DEFINITION. The statements for the provers, from the numbered rules of spec/. A statement about `WRTAB` or `WRDAT` says
nothing of the model's own queue of answers (log 3); a statement about `BUILD`, `INIT` or reset says nothing of the
unspecified content of `FREQ` and `CBUF` (log 4 to log 6). -/

open Sys2Proof Sys2Proof.Machine

/-! ### Encoding and the step -/

/-- R98: the words of the commands, written out, decode to the commands they stand for. -/
def Obligations.SpecWordsDecode : Prop :=
  decode [0x00000000#32] = .command .nop [] ∧
  decode [0x01000000#32] = .command .init [] ∧
  decode [0x02000000#32, 0x00000280#32] = .command (.setw 0x280#32) [] ∧
  decode [0x03000000#32, 0x000001E0#32] = .command (.seth 0x1E0#32) [] ∧
  decode [0x04000000#32, 0x000012C0#32] = .command (.setn 0x12C0#32) [] ∧
  decode [0x05000000#32] = .command .begin [] ∧
  decode (0x10000000#32 :: List.replicate 64 0x00050000#32) = .command (.ldblk (List.replicate 64 0x50000#32)) [] ∧
  decode [0x20000000#32] = .command .build [] ∧
  decode [0x30000000#32] = .command .emit [] ∧
  decode [0x40000000#32] = .command .wrtab [] ∧
  decode [0x41000000#32] = .command .wrdat []

/-- R90, R93, R97, R98: every command, with every payload, is read back from its words, whatever follows it. -/
def Obligations.DecodeOfEncode : Prop :=
  ∀ (i : Instr) (rest : List Word), i.wellFormed = true → decode (encode i ++ rest) = .command i rest

/-- R91, R93, R97: a decoded command is well formed and its words are exactly the words consumed. -/
def Obligations.EncodeOfDecode : Prop :=
  ∀ (ws : List Word) (i : Instr) (rest : List Word),
    decode ws = .command i rest → i.wellFormed = true ∧ ws = encode i ++ rest

/-- R92, R93, R96: the payload count of every header word, and every header word with its payload present has exactly one
of the meanings "a listed command" and "illegal"; the payload is consumed in both cases. -/
def Obligations.HeaderHasOneMeaning : Prop :=
  ∀ (w : Word) (ws : List Word),
    (w.toNat / 2 ^ 24 ∈ [2, 3, 4] → payloadCount w = 1) ∧
    (w.toNat / 2 ^ 24 = 16 → payloadCount w = 64) ∧
    (w.toNat / 2 ^ 24 ∉ [2, 3, 4, 16] → payloadCount w = 0) ∧
    (payloadCount w ≤ ws.length →
      (decode (w :: ws) = .illegal w (ws.drop (payloadCount w)) ↔
        ¬(w.toNat % 2 ^ 24 = 0 ∧ w.toNat / 2 ^ 24 ∈ [0, 1, 2, 3, 4, 5, 0x10, 0x20, 0x30, 0x40, 0x41])) ∧
      ((∃ i, decode (w :: ws) = .command i (ws.drop (payloadCount w))) ↔
        w.toNat % 2 ^ 24 = 0 ∧ w.toNat / 2 ^ 24 ∈ [0, 1, 2, 3, 4, 5, 0x10, 0x20, 0x30, 0x40, 0x41]))

/-- R78: a command whose words have not all arrived has not been issued. That the model's step then answers the state
unchanged is its choice (log 1). -/
def Obligations.IncompleteCommandWaits : Prop :=
  (∀ ws : List Word, decode ws = .waiting ↔ ws = [] ∨ ∃ w ps, ws = w :: ps ∧ ps.length < payloadCount w) ∧
  ∀ s : State, s.rst = false → decode s.cs = .waiting → step s = .next s

/-- R130, R75: a step with no reset request executes the command at the head of the stream, in the state in which its
words are consumed; with a reset request it leaves the
state that `INIT` leaves (R303; when the request is taken is the model's choice, log 10). -/
def Obligations.StepRunsDecodedCommand : Prop :=
  (∀ (s : State) (i : Instr) (rest : List Word), s.rst = false → decode s.cs = .command i rest →
    step s = exec i { s with cs := rest }) ∧
  (∀ (s : State) (i : Instr) (rest : List Word), s.rst = false → i.wellFormed = true → s.cs = encode i ++ rest →
    step s = exec i { s with cs := rest }) ∧
  ∀ s : State, s.rst = true → step s = exec .init { s with rst := false }

/-- R312: every command, once issued, completes: every well-formed command answers a next state in every state. That a step
answers a next state also where no command is issued is the model's choice: in a waiting state, where R78 says that the core
makes no step, it answers the state unchanged (log 1), and with a reset request it takes the reset (log 10). -/
def Obligations.EveryCommandCompletes : Prop :=
  (∀ (i : Instr) (s : State), i.wellFormed = true → ∃ t, exec i s = .next t) ∧ ∀ s : State, ∃ t, step s = .next t

/-! ### Faults -/

/-- R264, R268: an illegal header word outside `FAULT` raises `IllegalCommand` with the whole word in `ERRINFO`; its
payload is consumed and nothing else changes. -/
def Obligations.IllegalCommandTaken : Prop :=
  ∀ (s : State) (w : Word) (rest : List Word),
    s.rst = false → s.phase ≠ .fault → decode s.cs = .illegal w rest →
    step s = .next { s with cs := rest, err := some .illegalCommand, errinfo := w, phase := .fault }

/-- R269: in `FAULT` every command but `INIT`, an illegal header included, is consumed and changes nothing. -/
def Obligations.FaultPhaseIgnores : Prop :=
  ∀ (s : State) (rest : List Word), s.rst = false → s.phase = .fault →
    (∀ i, i ≠ .init → decode s.cs = .command i rest → step s = .next { s with cs := rest }) ∧
    (∀ w, decode s.cs = .illegal w rest → step s = .next { s with cs := rest })

/-- R131, R265 (a), R261: a command in a phase in which R131 does not allow it raises `IllegalSequence` with its opcode in
bits 31:24 and the phase in bits 2:0 of `ERRINFO`. -/
def Obligations.OutOfPhaseRaises : Prop :=
  ∀ (i : Instr) (s : State), i.wellFormed = true → s.phase ≠ .fault → legalIn i s.phase = false →
    exec i s = .next
      { s with
        err := some .illegalSequence
        errinfo := (i.opcode.setWidth 32 <<< 24) ||| (phaseCode s.phase).setWidth 32
        phase := .fault }

/-- R265 (b), (c), R150, R190: one block too many, and a `BUILD` before every unit is loaded, raise `IllegalSequence`. -/
def Obligations.UnitCountGuards : Prop :=
  (∀ (s : State) (p : List Word), s.phase = .load → p.length = 64 → unitTotal s ≤ s.ldcnt.toNat →
    exec (.ldblk p) s = .next
      { s with err := some .illegalSequence, errinfo := 0x10000001#32, phase := .fault }) ∧
  ∀ s : State, s.phase = .load → s.ldcnt.toNat ≠ unitTotal s →
    exec .build s = .next { s with err := some .illegalSequence, errinfo := 0x20000001#32, phase := .fault }

/-- R270, R73: when a step takes a fault, the registers, the flags and both sinks keep their values. R271: the only ways
out of `FAULT` are `INIT` and reset. -/
def Obligations.FaultKeepsRegistersUntilInit : Prop :=
  ∀ s t : State, step s = .next t →
    (s.phase ≠ .fault → t.phase = .fault →
      t.err ≠ none ∧ t.width = s.width ∧ t.height = s.height ∧ t.nblk = s.nblk ∧ t.ldcnt = s.ldcnt ∧
      t.bitlen = s.bitlen ∧ t.tabcnt = s.tabcnt ∧ t.tabw = s.tabw ∧ t.datw = s.datw ∧
      t.sink0 = s.sink0 ∧ t.sink1 = s.sink1) ∧
    (s.phase = .fault → t.phase ≠ .fault →
      t.phase = .idle ∧ (s.rst = true ∨ ∃ rest, decode s.cs = .command .init rest))

/-! ### Control commands and reset -/

/-- R133: `NOP` changes nothing, in every phase. -/
def Obligations.NopChangesNothing : Prop := ∀ s : State, exec .nop s = .next s

/-- R134: `INIT` in every phase puts every element at its reset value and does not touch the ROMs, the sinks, the
parameters and the stream. `FREQ` and `CBUF` become unspecified. -/
def Obligations.InitRestoresResetValues : Prop :=
  ∀ s : State, ∃ t, exec .init s = .next t ∧
    t.phase = .idle ∧ t.err = none ∧ t.errinfo = 0#32 ∧ t.tabw = false ∧ t.datw = false ∧
    t.width = 0#32 ∧ t.height = 0#32 ∧ t.nblk = 0#32 ∧ t.ldcnt = 0#64 ∧ t.bitlen = 0#64 ∧ t.tabcnt = 0#32 ∧
    t.code = invalidCode ∧ t.bitbuf = [] ∧ readSR t 1#8 = 0#32 ∧
    t.qrom = s.qrom ∧ t.zzrom = s.zzrom ∧ t.cfg = s.cfg ∧
    t.sink0 = s.sink0 ∧ t.sink1 = s.sink1 ∧ t.cs = s.cs ∧ t.rst = s.rst ∧ t.answers = s.answers ∧ t.asked = s.asked

/-- R48: the state after reset, in the elements to which R48 gives a value. -/
def Obligations.ResetState : Prop :=
  State.reset.phase = .idle ∧ State.reset.err = none ∧ State.reset.errinfo = 0#32 ∧
  State.reset.tabw = false ∧ State.reset.datw = false ∧ State.reset.width = 0#32 ∧ State.reset.height = 0#32 ∧
  State.reset.nblk = 0#32 ∧ State.reset.ldcnt = 0#64 ∧ State.reset.bitlen = 0#64 ∧ State.reset.tabcnt = 0#32 ∧
  readSR State.reset 0#8 = 0x51385838#32 ∧ State.reset.zzrom = zzromContent ∧
  State.reset.bitbuf = [] ∧ ∀ (t : TableId) (e : Option Bits), e ∈ State.reset.code.get t → e = none

/-- R135, R136, R137: in `IDLE` each of the three commands stores its payload word whole and changes nothing else; in
`LOAD`, `TABLES` and `DONE` it raises `IllegalSequence`. -/
def Obligations.SetCommandsStorePayload : Prop :=
  (∀ n : Word, encode (.setw n) = [0x02000000#32, n] ∧ encode (.seth n) = [0x03000000#32, n] ∧
    encode (.setn n) = [0x04000000#32, n]) ∧
  (∀ (s : State) (n : Word), s.phase = .idle →
    exec (.setw n) s = .next { s with width := n } ∧
    exec (.seth n) s = .next { s with height := n } ∧
    exec (.setn n) s = .next { s with nblk := n }) ∧
  ∀ (s : State) (n : Word), s.phase ≠ .idle → s.phase ≠ .fault →
    ∀ c ∈ [(Instr.setw n, 0x02000000#32), (Instr.seth n, 0x03000000#32), (Instr.setn n, 0x04000000#32)],
      exec c.1 s = .next
        { s with
          err := some .illegalSequence
          errinfo := c.2 ||| (phaseCode s.phase).setWidth 32
          phase := .fault }

/-- R138, R266: `BEGIN` in `IDLE` clears the results and enters `LOAD` when `NBLK` is within the capacity, and otherwise
raises `CapacityExceeded(NBLK)`. -/
def Obligations.BeginEntersLoadWithinCapacity : Prop :=
  ∀ s : State, s.phase = .idle →
    (s.nblk.toNat ≤ s.cfg.maxN →
      exec .begin s = .next
        { s with
          ldcnt := 0#64, tabw := false, datw := false, bitlen := 0#64, tabcnt := 0#32, code := invalidCode,
          bitbuf := [], phase := .load }) ∧
    (s.cfg.maxN < s.nblk.toNat →
      exec .begin s = .next { s with err := some .capacityExceeded, errinfo := s.nblk, phase := .fault })

/-! ### LDBLK -/

/-- R153, R154: the result is the integer nearest to the exact quotient `n / (d * 2^16)`, the even one at an exact half. -/
def Obligations.QuantIsNearestTiesToEven : Prop :=
  ∀ (n : Int) (d : Nat), 1 ≤ d → d ≤ 255 →
    2 * (n - quant .halfEven n d * (d * 65536)).natAbs ≤ d * 65536 ∧
    (2 * (n - quant .halfEven n d * (d * 65536)).natAbs = d * 65536 → quant .halfEven n d % 2 = 0)

/-- R156 (a) to (f): range, odd symmetry, zero, when the result is zero, exact multiples, monotone. -/
def Obligations.QuantArithmeticLaws : Prop :=
  ∀ d : Nat, 1 ≤ d → d ≤ 255 →
    (∀ n : Int, -2147483648 ≤ n → n ≤ 2147483647 → -32768 ≤ quant .halfEven n d ∧ quant .halfEven n d ≤ 32768) ∧
    (∀ n : Int, quant .halfEven (-n) d = -quant .halfEven n d) ∧
    quant .halfEven 0 d = 0 ∧
    (∀ n : Int, quant .halfEven n d = 0 ↔ 2 * n.natAbs ≤ d * 65536) ∧
    (∀ m : Int, quant .halfEven (m * (d * 65536)) d = m) ∧
    ∀ n1 n2 : Int, n1 ≤ n2 → quant .halfEven n1 d ≤ quant .halfEven n2 d

/-- R150, R151, R38: element `i` of the quantised block is `quant` of payload word `i` read as a signed number and of the
divisor at index `i` of the matrix that the class of channel `LDCNT mod NCH` selects. -/
def Obligations.BlockUsesClassMatrix : Prop :=
  ∀ (s : State) (p : List Word) (i : Fin 64), p.length = 64 →
    (nextBlock p s).length = 64 ∧
    (nextBlock p s).getD i.val 0 =
      quant s.cfg.tie (p.getD i.val 0#32).toInt
        (if s.ldcnt.toNat % s.cfg.nch = 0 then s.qrom.luma[i] else s.qrom.chroma[i]).bits.toNat

/-- R150, R157: `LDBLK` in `LOAD` with a unit to load and every element in range stores one vector at unit `LDCNT`,
element `k` of it being the quantised element at `ZZROM[k]`, counts the unit, and changes nothing else. -/
def Obligations.LdblkStoresUnit : Prop :=
  ∀ (s : State) (p : List Word), s.phase = .load → p.length = 64 → s.ldcnt.toNat < unitTotal s →
    (∀ i < 64, ((nextBlock p s).getD i 0).natAbs ≤ if i = 0 then 2047 else 1023) →
    ∃ x : CoefVec,
      exec (.ldblk p) s = .next
        { s with cbuf := CoefMem.write s.cbuf s.ldcnt.toNat x, ldcnt := s.ldcnt + 1#64 } ∧
      ∀ k : Fin 64,
        (x[k]).toInt = (nextBlock p s).getD (8 * (s.zzrom[k]).1.toNat + (s.zzrom[k]).2.toNat) 0

/-- R155, R267, R272: the lowest failing row-major index is what `CoefficientRange` records; nothing is stored. -/
def Obligations.LdblkRefusesOutOfRange : Prop :=
  ∀ (s : State) (p : List Word) (i : Nat), s.phase = .load → p.length = 64 → s.ldcnt.toNat < unitTotal s →
    i < 64 → (∀ j < i, ((nextBlock p s).getD j 0).natAbs ≤ if j = 0 then 2047 else 1023) →
    (if i = 0 then 2047 else 1023) < ((nextBlock p s).getD i 0).natAbs →
    exec (.ldblk p) s = .next
      { s with err := some .coefficientRange, errinfo := BitVec.ofNat 32 i, phase := .fault }

/-- R40, R72: what is read of `CBUF` after a vector is written: that vector at its unit, every other unit as before. -/
def Obligations.CbufReadAfterWrite : Prop :=
  ∀ (m : CoefMem) (u v : Nat) (x : CoefVec),
    CoefMem.read (CoefMem.write m u x) v = if v = u then x else CoefMem.read m v

/-- R158, R159, R160: the table is the one the anti-diagonal rule generates, every position occurs exactly once, and
reading `z` at the table's entry of each position gives the block back. -/
def Obligations.ZigzagIsBijection : Prop :=
  zzromContent.toList.map (fun rc => (rc.1.toNat, rc.2.toNat)) = generatedScan ∧
  (∀ r c : BitVec 3, ∃! k : Fin 64, zzromContent[k] = (r, c)) ∧
  (∀ (q : List Int) (r c : BitVec 3) (k : Fin 64), q.length = 64 → zzromContent[k] = (r, c) →
    (zigzag zzromContent q).getD k.val 0 = q.getD (8 * r.toNat + c.toNat) 0) ∧
  ∀ q q' : List Int, q.length = 64 → q'.length = 64 → zigzag zzromContent q = zigzag zzromContent q' → q = q'

/-! ### Run-length coding -/

/-- R170: the category. -/
def Obligations.CategoryIsMagnitudeWidth : Prop :=
  cat 0 = 0 ∧
  ∀ (v : Int), cat (-v) = cat v ∧
    ∀ k : Nat, 1 ≤ k → (cat v = k ↔ 2 ^ (k - 1) ≤ v.natAbs ∧ v.natAbs ≤ 2 ^ k - 1)

/-- R103, R104: `val` has `cat` bits, a negative value is the complement of its negation, and `val` is a bijection with
the inverse R104 gives. -/
def Obligations.ValueBitsAreBijective : Prop :=
  (∀ v : Int, (val v).length = cat v ∧ valInverse (val v) = v) ∧
  (∀ v : Int, 0 < v → (val v).head? = some true ∧ val (-v) = (val v).map not) ∧
  ∀ b : Bits, b ≠ [] → cat (valInverse b) = b.length ∧ val (valInverse b) = b

/-- R179: the encoder always ends with exactly one terminator and never emits more than 64 pairs. -/
def Obligations.RleEndsWithOneTerminator : Prop :=
  ∀ a : List Int, a.length = 63 →
    ∃ ps : List RlePair, rle a = ps ++ [eob] ∧ ps.length ≤ 63 ∧ ∀ p ∈ ps, p.sym ≠ { run := 0, cat := 0 }

/-- R102, R174: over elements in range only the 162 possible symbols occur, each with as many value bits as its category. -/
def Obligations.RleSymbolsArePossible : Prop :=
  ∀ a : List Int, a.length = 63 → (∀ v ∈ a, v.natAbs ≤ 1023) →
    ∀ p ∈ rle a, possibleSym p.sym = true ∧ p.value.length = p.sym.cat

/-- R177, R178: `n` zeros before a nonzero element give one ZRL for every sixteen of them and a run of the rest;
no run exceeds 15. -/
def Obligations.RleSplitsRunsAtSixteen : Prop :=
  (∀ (n : Nat) (v : Int), n ≤ 62 → v ≠ 0 →
    rle (List.replicate n 0 ++ v :: List.replicate (62 - n) 0) =
      List.replicate (n / 16) { sym := { run := 15, cat := 0 }, value := [] } ++
        [{ sym := { run := n % 16, cat := cat v }, value := val v }, eob]) ∧
  ∀ (a : List Int) (p : RlePair), p ∈ rle a → p.sym.run ≤ 15

/-- R181: `rle` is undone by the inverse that R181 describes, on every sequence of 63 elements. -/
def Obligations.RleIsInvertible : Prop := ∀ a : List Int, a.length = 63 → unrle (rle a) = a

/-! ### BUILD -/

/-- R192, R193: after collection a counter of `dc_y` or `ac_y` is the number of occurrences of its key in the units of
channel 0, and a counter of `dc_c` or `ac_c` the number in the units of the other channels: for DC the units of that
category, for AC the pairs of that symbol in the run-length output. -/
def Obligations.CountersCountOccurrences : Prop :=
  ∀ (s : State) (x : Nat),
    (x < 12 →
      (collect s).dcY.getD x 0 =
        ((List.range (unitTotal s)).filter fun u =>
          decide (u % s.cfg.nch = 0) && decide (cat ((coefs s u).headD 0) = x)).length ∧
      (collect s).dcC.getD x 0 =
        ((List.range (unitTotal s)).filter fun u =>
          decide (u % s.cfg.nch ≠ 0) && decide (cat ((coefs s u).headD 0) = x)).length) ∧
    (x < 256 →
      (collect s).acY.getD x 0 =
        (((List.range (unitTotal s)).filter fun u => decide (u % s.cfg.nch = 0)).map fun u =>
          ((rle (coefs s u).tail).filter fun p => decide (p.sym.run * 16 + p.sym.cat = x)).length).sum ∧
      (collect s).acC.getD x 0 =
        (((List.range (unitTotal s)).filter fun u => decide (u % s.cfg.nch ≠ 0)).map fun u =>
          ((rle (coefs s u).tail).filter fun p => decide (p.sym.run * 16 + p.sym.cat = x)).length).sum)

/-- R190: `BUILD` in `LOAD` with every unit loaded: the four tables of the counts, the entry counts, phase `TABLES`, and
nothing else but `FREQ`. R35: the four bytes of `TABCNT` are the numbers of valid entries, each at most 255. -/
def Obligations.BuildMakesTables : Prop :=
  (∀ s : State, s.phase = .load → s.ldcnt.toNat = unitTotal s →
    ∃ f : Tables (List Nat),
      exec .build s = .next
        { s with
          freq := f
          code := (collect s).map codesOf
          tabcnt := tabcntOf ((collect s).map codesOf)
          phase := .tables }) ∧
  ∀ c : Tables (List (Option Bits)), (∀ t, countValid (c.get t) ≤ 255) →
    (tabcntOf c).toNat =
      countValid c.dcY + 2 ^ 8 * countValid c.acY + 2 ^ 16 * countValid c.dcC + 2 ^ 24 * countValid c.acC

/-- R43 (a), (c), R203, R204: exactly the observed keys have a code, every code has at least one bit, the only code of a
table of one key is `"0"`, and with `n` observed keys, two or more, a code has at most `n - 1` bits. R196 to R202: of
two observed keys the one counted less gets `0`, at equal counts the smaller key. The codes that R208, R209 and R210 work
out fix the leaf order, the tie-break between leaves and inner nodes, and the labels. -/
def Obligations.CodesExactlyObservedKeys : Prop :=
  (∀ freq : List Nat,
    (codesOf freq).length = freq.length ∧
    ∀ x < freq.length, ((∃ b, (codesOf freq)[x]? = some (some b)) ↔ 0 < freq.getD x 0) ∧
      ∀ b, (codesOf freq)[x]? = some (some b) →
        1 ≤ b.length ∧ ((observed freq).length = 1 → b = [false]) ∧
          (2 ≤ (observed freq).length → b.length + 1 ≤ (observed freq).length)) ∧
  (∀ (freq : List Nat) (x y : Nat), x < y → y < freq.length → 0 < freq.getD x 0 → 0 < freq.getD y 0 →
    (∀ z, z ≠ x → z ≠ y → freq.getD z 0 = 0) →
    (codesOf freq)[x]? = some (some [decide (freq.getD y 0 < freq.getD x 0)]) ∧
    (codesOf freq)[y]? = some (some [decide (freq.getD x 0 ≤ freq.getD y 0)])) ∧
  validEntries (codesOf [5, 2, 2, 1]) =
    [(0, [false]), (1, [true, true, true]), (2, [true, false]), (3, [true, true, false])] ∧
  validEntries (codesOf ((List.range 256).map fun k =>
      if k = 0 then 3 else if k = 1 then 1 else if k = 2 then 2 else if k = 17 then 1 else if k = 240 then 1 else 0)) =
    [(0, [true, true]), (1, [true, false, false]), (2, [false, true]), (17, [true, false, true]), (240, [false, false])] ∧
  validEntries (codesOf [1, 1, 1, 1]) =
    [(0, [false, false]), (1, [false, true]), (2, [true, false]), (3, [true, true])] ∧
  validEntries (codesOf [1, 1, 1]) = [(0, [true, false]), (1, [true, true]), (2, [false])] ∧
  validEntries (codesOf [2, 1, 1]) = [(0, [false]), (1, [true, false]), (2, [true, true])] ∧
  validEntries (codesOf [1, 1, 2, 4, 8]) =
    [(0, [true, true, true, false]), (1, [true, true, true, true]), (2, [true, true, false]), (3, [true, false]),
      (4, [false])] ∧
  validEntries (codesOf [0, 0, 0, 0, 0, 0, 0, 9]) = [(7, [false])] ∧
  ∀ n : Nat, validEntries (codesOf (List.replicate n 0)) = []

/-- R205 (a), R43 (b): no code is a prefix of another code of the same table, for every frequency table. -/
def Obligations.CodesArePrefixFree : Prop :=
  ∀ (freq : List Nat) (x y : Nat) (b c : Bits),
    (codesOf freq)[x]? = some (some b) → (codesOf freq)[y]? = some (some c) → x ≠ y → ¬ b <+: c

/-- R205 (b): with two or more observed keys the code is complete; with one the sum is 1/2. -/
def Obligations.CodesAreComplete : Prop :=
  ∀ freq : List Nat,
    (2 ≤ (observed freq).length →
      ((validEntries (codesOf freq)).map fun e => (1 / 2 : ℚ) ^ e.2.length).sum = 1) ∧
    ((observed freq).length = 1 →
      ((validEntries (codesOf freq)).map fun e => (1 / 2 : ℚ) ^ e.2.length).sum = 1 / 2)

/-- R205 (d): a key counted more often than another never has a longer code. -/
def Obligations.FrequentKeysHaveShortCodes : Prop :=
  ∀ (freq : List Nat) (x y : Nat) (b c : Bits),
    (codesOf freq)[x]? = some (some b) → (codesOf freq)[y]? = some (some c) → freq.getD y 0 < freq.getD x 0 →
    b.length ≤ c.length

/-- R194: with every unit loaded, the sums of the DC counters and the terminator counters are the numbers of units of the
classes, and no AC sum reaches `2^40`. -/
def Obligations.CounterSumsAndBounds : Prop :=
  ∀ s : State, s.Inv → s.ldcnt.toNat = unitTotal s →
    (collect s).dcY.sum = s.nblk.toNat ∧
    (collect s).dcC.sum = s.nblk.toNat * (s.cfg.nch - 1) ∧
    (collect s).acY.getD 0 0 = s.nblk.toNat ∧
    (collect s).acC.getD 0 0 = s.nblk.toNat * (s.cfg.nch - 1) ∧
    (collect s).acY.sum ≤ 64 * s.nblk.toNat ∧
    (collect s).acC.sum ≤ 64 * (s.nblk.toNat * (s.cfg.nch - 1)) ∧
    (collect s).acY.sum < 2 ^ 40 ∧ (collect s).acC.sum < 2 ^ 40 ∧
    (s.cfg.nch = 3 → (collect s).acY.sum < 2 ^ 39 ∧ (collect s).acC.sum < 2 ^ 39)

/-! ### EMIT -/

/-- R222: the bits of a unit are its DC code and value, then for each AC pair in order the code of its symbol and its
value. -/
def Obligations.UnitBitsInterleaveCodesAndValues : Prop :=
  ∀ (s : State) (u : Nat) (c : Bits) (cs : List Bits),
    (s.code.get (dcTable (unitClass s u)))[cat ((coefs s u).headD 0)]? = some (some c) →
    cs.length = (rle (coefs s u).tail).length →
    (∀ (i : Nat) (p : RlePair), (rle (coefs s u).tail)[i]? = some p →
      (s.code.get (acTable (unitClass s u)))[p.sym.run * 16 + p.sym.cat]? = some (some (cs.getD i []))) →
    unitBits s u =
      .ok (c ++ val ((coefs s u).headD 0) ++ ((rle (coefs s u).tail).zip cs).flatMap fun e => e.2 ++ e.1.value)

/-- R220, R224, R226: `EMIT` in `TABLES`, every unit having bits, leaves the header and the units' bits in unit order,
counts them, enters `DONE`, and changes nothing else. -/
def Obligations.EmitConcatenatesUnits : Prop :=
  ∀ (s : State) (bs : List Bits), s.phase = .tables → bs.length = unitTotal s →
    (∀ u < unitTotal s, unitBits s u = .ok (bs.getD u [])) →
    exec .emit s = .next
      { s with
        bitbuf := bin 32 s.nblk.toNat ++ bs.flatten
        bitlen := BitVec.ofNat 64 (32 + bs.flatten.length)
        phase := .done }

/-- R221, R263, R272: the first unit without bits makes `EMIT` raise `InconsistentSymbolStatistics`; `BITBUF` and
`BITLEN` stay. What a unit records is the first missing code in emission order, the DC category's and then the AC pairs' in
order: `(t << 8) | x`, with table 0 and 1 for channel 0 and 2 and 3 for the others. -/
def Obligations.EmitRefusesMissingCode : Prop :=
  (∀ (s : State) (u : Nat) (info : Word), s.phase = .tables → u < unitTotal s →
    (∀ v < u, ∃ b, unitBits s v = .ok b) → unitBits s u = .error info →
    exec .emit s = .next
      { s with err := some .inconsistentSymbolStatistics, errinfo := info, phase := .fault }) ∧
  (∀ (s : State) (u x : Nat), x = cat ((coefs s u).headD 0) →
    (u % s.cfg.nch = 0 → s.code.dcY[x]? = some none → unitBits s u = .error (BitVec.ofNat 32 x)) ∧
    (u % s.cfg.nch ≠ 0 → s.code.dcC[x]? = some none → unitBits s u = .error ((2#32 <<< 8) ||| BitVec.ofNat 32 x))) ∧
  (∀ (s : State) (u i : Nat) (p : RlePair), (rle (coefs s u).tail)[i]? = some p →
    (u % s.cfg.nch = 0 →
      (∃ c, s.code.dcY[cat ((coefs s u).headD 0)]? = some (some c)) →
      (∀ j < i, ∀ q, (rle (coefs s u).tail)[j]? = some q →
        ∃ c, s.code.acY[q.sym.run * 16 + q.sym.cat]? = some (some c)) →
      s.code.acY[p.sym.run * 16 + p.sym.cat]? = some none →
      unitBits s u = .error ((1#32 <<< 8) ||| BitVec.ofNat 32 (p.sym.run * 16 + p.sym.cat))) ∧
    (u % s.cfg.nch ≠ 0 →
      (∃ c, s.code.dcC[cat ((coefs s u).headD 0)]? = some (some c)) →
      (∀ j < i, ∀ q, (rle (coefs s u).tail)[j]? = some q →
        ∃ c, s.code.acC[q.sym.run * 16 + q.sym.cat]? = some (some c)) →
      s.code.acC[p.sym.run * 16 + p.sym.cat]? = some none →
      unitBits s u = .error ((3#32 <<< 8) ||| BitVec.ofNat 32 (p.sym.run * 16 + p.sym.cat)))) ∧
  ∀ (code : Tables (List (Option Bits))) (t : TableId) (x : Nat), x < 256 → (code.get t)[x]? = some none →
    lookup code t x = .error ((BitVec.ofNat 32 (tableNumber t) <<< 8) ||| BitVec.ofNat 32 x)

/-- R229: from every state that meets the invariant, `EMIT` in `TABLES` never finds a missing code: it completes. -/
def Obligations.EmitNeverInconsistent : Prop :=
  ∀ s : State, s.Inv → s.phase = .tables →
    ∃ bs : List Bits, bs.length = unitTotal s ∧ (∀ u < unitTotal s, unitBits s u = .ok (bs.getD u [])) ∧
      exec .emit s = .next
        { s with
          bitbuf := bin 32 s.nblk.toNat ++ bs.flatten
          bitlen := BitVec.ofNat 64 (32 + bs.flatten.length)
          phase := .done }

/-- R230, R226: bounds on the bit sequence of an image; `BITLEN` is its exact length. -/
def Obligations.BitLengthBounds : Prop :=
  ∀ s : State, s.Inv → s.phase = .done →
    s.bitlen.toNat = s.bitbuf.length ∧ 32 + 2 * unitTotal s ≤ s.bitlen.toNat ∧
    s.bitlen.toNat ≤ 32 + 10956 * unitTotal s

/-- R66, R67, R228: `pack` has `ceil(L/8)` bytes; bit `i` of the sequence is bit `7 - i mod 8` of byte `i / 8`; the pad
bits are 0. -/
def Obligations.PackPlacesBits : Prop :=
  ∀ b : Bits,
    (pack b).length = (b.length + 7) / 8 ∧
    (∀ i < b.length, ((pack b).getD (i / 8) 0#8).getLsbD (7 - i % 8) = b.getD i false) ∧
    ∀ i, b.length ≤ i → i < 8 * (pack b).length → ((pack b).getD (i / 8) 0#8).getLsbD (7 - i % 8) = false

/-- R231: in `DONE` the packed bits and the four code tables give back `NBLK` and the coefficient vector of every unit. The
reader is the model's rendering of the rule's procedure, no part of the hardware (log 27). -/
def Obligations.DataFileDecodesToCoefficients : Prop :=
  ∀ s : State, s.Inv → s.phase = .done →
    readDataFile s.code s.cfg.nch (pack s.bitbuf) =
      some (s.nblk.toNat, (List.range (unitTotal s)).map (coefs s))

/-! ### WRTAB and WRDAT -/

/-- R240, R241: `WRTAB` in `DONE` with sink 0 present. -/
def Obligations.WrtabWritesTableFile : Prop :=
  ∀ s : State, s.phase = .done → sinkAnswer s 0 = true →
    ∃ t, exec .wrtab s = .next t ∧
      { t with answers := s.answers, asked := s.asked } =
        { s with sink0 := tableFile s.width s.height s.code, tabw := true }

/-- R248, R228: `WRDAT` in `DONE` with sink 1 present. -/
def Obligations.WrdatWritesPackedBits : Prop :=
  ∀ s : State, s.phase = .done → sinkAnswer s 1 = true →
    ∃ t, exec .wrdat s = .next t ∧
      { t with answers := s.answers, asked := s.asked } = { s with sink1 := pack s.bitbuf, datw := true }

/-- R262, R261, R73: an absent sink raises `PathNotFound` with the sink number; the sinks and the flags stay. -/
def Obligations.AbsentSinkRaises : Prop :=
  ∀ s : State, s.phase = .done →
    (sinkAnswer s 0 = false → ∃ t, exec .wrtab s = .next t ∧
      { t with answers := s.answers, asked := s.asked } =
        { s with err := some .pathNotFound, errinfo := 0#32, phase := .fault }) ∧
    (sinkAnswer s 1 = false → ∃ t, exec .wrdat s = .next t ∧
      { t with answers := s.answers, asked := s.asked } =
        { s with err := some .pathNotFound, errinfo := 1#32, phase := .fault })

/-- R68: every byte of a table file is a digit, a comma or a line feed; R119: its number of lines. -/
def Obligations.TableFileAlphabetAndLines : Prop :=
  ∀ (w h : Word) (c : Tables (List (Option Bits))),
    (∀ b ∈ tableFile w h c, (0x30 ≤ b.toNat ∧ b.toNat ≤ 0x39) ∨ b = 0x2C#8 ∨ b = 0x0A#8) ∧
    (tableFile w h c).count 0x0A#8 =
      5 + 2 * (countValid c.dcY + countValid c.acY + countValid c.dcC + countValid c.acC)

/-- R118: a reader recovers the geometry and the four mappings from the table file alone. The reader is the model's rendering
of the rule's procedure, no part of the hardware (log 27). -/
def Obligations.TableFileParsesBack : Prop :=
  ∀ (w h : Word) (c : Tables (List (Option Bits))),
    readTableFile (tableFile w h c) = some ((w.toNat, h.toNat), c.map validEntries)

/-- R227: an image of no blocks: `BUILD` and `EMIT` leave the 32 zero bits of the header, no code in any table, and so
four zero bytes and a table file of the geometry line and four lines `0`. -/
def Obligations.EmptyImageFiles : Prop :=
  ∀ s : State, s.phase = .load → s.nblk = 0#32 → s.ldcnt = 0#64 →
    ∃ t u : State, exec .build s = .next t ∧ exec .emit t = .next u ∧
      u.bitbuf = List.replicate 32 false ∧ u.bitlen = 32#64 ∧ pack u.bitbuf = [0#8, 0#8, 0#8, 0#8] ∧
      (∀ (k : TableId) (e : Option Bits), e ∈ u.code.get k → e = none) ∧
      tableFile u.width u.height u.code =
        dec s.width.toNat ++ [0x2C#8] ++ dec s.height.toNat ++
          [0x0A#8, 0x30#8, 0x0A#8, 0x30#8, 0x0A#8, 0x30#8, 0x0A#8, 0x30#8, 0x0A#8]

/-- R62, R105, R107: in `DONE` the packed bits begin with `NBLK`, most significant byte first. -/
def Obligations.DataFileBeginsWithBlockCount : Prop :=
  ∀ s : State, s.Inv → s.phase = .done →
    (pack s.bitbuf).take 4 =
      [s.nblk.extractLsb' 24 8, s.nblk.extractLsb' 16 8, s.nblk.extractLsb' 8 8, s.nblk.extractLsb' 0 8]

/-! ### Whole-machine rules -/

/-- The invariant holds after reset. -/
def Obligations.ResetMeetsInvariant : Prop := State.reset.Inv

/-- R28, R32, R33, R40 to R44: every step, and every act of the host between steps, keeps the invariant. -/
def Obligations.StepKeepsInvariant : Prop :=
  (∀ s t : State, s.Inv → step s = .next t → t.Inv) ∧ ∀ (s : State) (a : HostAct), s.Inv → (hostAct a s).Inv

/-- R24: what writes `PHASE`. -/
def Obligations.PhaseWriters : Prop :=
  ∀ s t : State, step s = .next t → t.phase ≠ s.phase →
    (t.phase = .idle ∧ (s.rst = true ∨ ∃ rest, decode s.cs = .command .init rest)) ∨
    (s.phase = .idle ∧ t.phase = .load ∧ ∃ rest, decode s.cs = .command .begin rest) ∨
    (s.phase = .load ∧ t.phase = .tables ∧ ∃ rest, decode s.cs = .command .build rest) ∨
    (s.phase = .tables ∧ t.phase = .done ∧ ∃ rest, decode s.cs = .command .emit rest) ∨
    (s.phase ≠ .fault ∧ t.phase = .fault)

/-- R25, R26, R27: a configuration register changes only by its command in `IDLE`, by `INIT` or by reset. -/
def Obligations.ConfigurationWriters : Prop :=
  ∀ s t : State, step s = .next t →
    (s.rst = true ∨ ∃ rest, decode s.cs = .command .init rest) ∨
    ((t.width ≠ s.width → s.phase = .idle ∧ ∃ rest, decode s.cs = .command (.setw t.width) rest) ∧
     (t.height ≠ s.height → s.phase = .idle ∧ ∃ rest, decode s.cs = .command (.seth t.height) rest) ∧
     (t.nblk ≠ s.nblk → s.phase = .idle ∧ ∃ rest, decode s.cs = .command (.setn t.nblk) rest))

/-- R29: a flag is set only by its write command in `DONE` with its sink present, and cleared only by `BEGIN`, `INIT` or
reset. R45, R60: a sink changes only by its write command in `DONE` with the sink present. -/
def Obligations.FlagAndSinkWriters : Prop :=
  ∀ s t : State, step s = .next t →
    (t.tabw ≠ s.tabw →
      (t.tabw = true ∧ s.phase = .done ∧ sinkAnswer s 0 = true ∧ ∃ rest, decode s.cs = .command .wrtab rest) ∨
      (t.tabw = false ∧
        (s.rst = true ∨ ∃ rest, decode s.cs = .command .init rest ∨ decode s.cs = .command .begin rest))) ∧
    (t.datw ≠ s.datw →
      (t.datw = true ∧ s.phase = .done ∧ sinkAnswer s 1 = true ∧ ∃ rest, decode s.cs = .command .wrdat rest) ∨
      (t.datw = false ∧
        (s.rst = true ∨ ∃ rest, decode s.cs = .command .init rest ∨ decode s.cs = .command .begin rest))) ∧
    (t.sink0 ≠ s.sink0 →
      s.phase = .done ∧ sinkAnswer s 0 = true ∧ ∃ rest, decode s.cs = .command .wrtab rest) ∧
    (t.sink1 ≠ s.sink1 →
      s.phase = .done ∧ sinkAnswer s 1 = true ∧ ∃ rest, decode s.cs = .command .wrdat rest)

/-- R38, R39, R79, R207: no step changes the ROMs or the parameters, and a step within the phases `TABLES` and `DONE`
changes neither `CODE` nor `CBUF`. -/
def Obligations.RomsAndTablesImmutable : Prop :=
  ∀ s t : State, step s = .next t →
    t.qrom = s.qrom ∧ t.zzrom = s.zzrom ∧ t.cfg = s.cfg ∧
    ((s.phase = .tables ∨ s.phase = .done) → (t.phase = .tables ∨ t.phase = .done) →
      t.code = s.code ∧ t.cbuf = s.cbuf)

/-- R41, R48, R270, R301: what the spec leaves unspecified is never read: two states that differ in nothing else step to
two states that differ in nothing else, with the same status registers and the same sinks. -/
def Obligations.UnspecifiedContentUnobservable : Prop :=
  ∀ s s' t t' : State, s.Inv → sameButUnspecified s t → step s = .next s' → step t = .next t' →
    sameButUnspecified s' t' ∧ sameObservation s' t'

/-- R31, R36, R37: the fields of `STATUS` and the register map; numbers 11 to 255 read 0. R23, R260: the numbers of the
phases and of the faults. -/
def Obligations.StatusPortMap : Prop :=
  (phaseCode .idle = 0#3 ∧ phaseCode .load = 1#3 ∧ phaseCode .tables = 2#3 ∧ phaseCode .done = 3#3 ∧
    phaseCode .fault = 7#3) ∧
  (errCode none = 0#4 ∧ errCode (some .pathNotFound) = 1#4 ∧ errCode (some .inconsistentSymbolStatistics) = 2#4 ∧
    errCode (some .coefficientRange) = 3#4 ∧ errCode (some .illegalCommand) = 4#4 ∧
    errCode (some .illegalSequence) = 5#4 ∧ errCode (some .capacityExceeded) = 6#4) ∧
  ∀ s : State,
    (readSR s 1#8).extractLsb' 0 3 = phaseCode s.phase ∧ (readSR s 1#8).getLsbD 3 = false ∧
    (readSR s 1#8).extractLsb' 4 4 = errCode s.err ∧ (readSR s 1#8).getLsbD 8 = s.tabw ∧
    (readSR s 1#8).getLsbD 9 = s.datw ∧ (readSR s 1#8).extractLsb' 10 22 = 0#22 ∧
    readSR s 0#8 = 0x51385838#32 ∧ readSR s 2#8 = s.errinfo ∧ readSR s 3#8 = s.width ∧ readSR s 4#8 = s.height ∧
    readSR s 5#8 = s.nblk ∧ readSR s 7#8 ++ readSR s 6#8 = s.ldcnt ∧ readSR s 9#8 ++ readSR s 8#8 = s.bitlen ∧
    readSR s 10#8 = s.tabcnt ∧ ∀ n : BitVec 8, 11 ≤ n.toNat → readSR s n = 0#32

/-- R99, R98: the expansions of the pseudo-commands, and the word of an operand of `LDBLK`. -/
def Obligations.PseudoCommandsExpand : Prop :=
  (∀ (x : ℚ) (w : Word), asmCoef x = some w ↔ (w.toInt : ℚ) = x * 65536) ∧
  (∀ w h n : Nat, w < 2 ^ 32 → h < 2 ^ 32 → n < 2 ^ 32 →
    asmLine (.setdim w h n) =
      some [.setw (BitVec.ofNat 32 w), .seth (BitVec.ofNat 32 h), .setn (BitVec.ofNat 32 n)]) ∧
  asmLine .ldzero = some [.ldblk (List.replicate 64 0#32)] ∧
  (∀ (x : ℚ) (w : Word), asmCoef x = some w →
    asmLine (.lddc x) = some [.ldblk (w :: List.replicate 63 0#32)]) ∧
  asmLine .encode = some [.build, .emit] ∧
  asmLine .flush = some [.wrtab, .wrdat]
end

