-- ==== Sys2Proof/Laws/Bits.lean ====
section
/-! SUPPORT. Numbers as bit strings and bit strings as bytes. -/

namespace Sys2Proof.Machine

/-- What `bitlen` is, for a nonzero number. -/
theorem bitlen_eq_iff (m k : Nat) (hk : 1 ≤ k) : bitlen m = k ↔ 2^(k-1) ≤ m ∧ m < 2^k := by
  unfold bitlen
  split
  · next h => subst h; simp; omega
  · next h =>
    rw [show k = (k-1)+1 by omega]
    generalize k - 1 = j
    rw [Nat.add_right_cancel_iff, Nat.log2_eq_iff h]
    simp

theorem bin_length (k u : Nat) : (bin k u).length = k := by
  induction k with
  | zero => rfl
  | succ k ih => simp [bin, ih]

theorem foldl_ofBits (b : Bits) : ∀ a : Nat, b.foldl (fun a x => 2*a + x.toNat) a = a * 2^b.length + ofBits b :=
    by
  unfold ofBits
  induction b with
  | nil => simp
  | cons x b ih =>
    intro a
    simp only [List.foldl_cons, List.length_cons]
    rw [ih, ih (2*0 + x.toNat)]
    ring

theorem ofBits_cons (x : Bool) (b : Bits) : ofBits (x :: b) = x.toNat * 2^b.length + ofBits b := by
  conv_lhs => unfold ofBits
  simp only [List.foldl_cons]
  rw [foldl_ofBits]; simp

theorem ofBits_lt (b : Bits) : ofBits b < 2^b.length := by
  induction b with
  | nil => simp [ofBits]
  | cons x b ih =>
    rw [ofBits_cons, List.length_cons, pow_succ]
    cases x <;> simp <;> omega

/-- `bin_k` read back. -/
theorem ofBits_bin (k u : Nat) : ofBits (bin k u) = u % 2^k := by
  induction k with
  | zero => simp [bin, ofBits, Nat.mod_one]
  | succ k ih =>
    rw [bin, ofBits_cons, ih, bin_length, Nat.mod_pow_succ, Nat.toNat_testBit]
    ring

theorem bin_congr (k u v : Nat) (h : u % 2^k = v % 2^k) : bin k u = bin k v := by
  induction k with
  | zero => rfl
  | succ k ih =>
    simp only [bin]
    have ht : u.testBit k = v.testBit k := by
      have := congrArg (fun x => x.testBit k) h
      simpa [Nat.testBit_mod_two_pow] using this
    rw [ht, ih]
    have := congrArg (· % 2^k) h
    simpa [Nat.mod_mod_of_dvd, pow_succ] using this

/-- A bit string is `bin` of its own value. -/
theorem bin_ofBits (b : Bits) : bin b.length (ofBits b) = b := by
  induction b with
  | nil => rfl
  | cons x b ih =>
    rw [List.length_cons, bin, ofBits_cons]
    have hlt := ofBits_lt b
    congr 1
    · rw [Nat.testBit_eq_decide_div_mod_eq, mul_comm, Nat.mul_add_div (Nat.two_pow_pos _), Nat.div_eq_of_lt hlt]
      cases x <;> simp
    · rw [bin_congr _ _ (ofBits b), ih]; simp

/-- The complement of `bin_k` (R103). -/
theorem bin_map_not (k u : Nat) (h : u < 2^k) : bin k (2^k - 1 - u) = (bin k u).map not := by
  induction k generalizing u with
  | zero => rfl
  | succ k ih =>
    simp only [bin, List.map_cons]
    have h2 : 2^(k+1) = 2^k + 2^k := by ring
    congr 1
    · rw [Nat.sub_sub, Nat.add_comm 1, Nat.testBit_two_pow_sub_succ h]; simp
    · have := ih (u % 2^k) (Nat.mod_lt _ (Nat.two_pow_pos _))
      rw [bin_congr k (2^(k+1)-1-u) (2^k-1-u%2^k), this, bin_congr k (u % 2^k) u (by simp)]
      have hm := Nat.mod_lt u (Nat.two_pow_pos k)
      have hd := Nat.mod_add_div u (2^k)
      have hq : u / 2^k < 2 := by rw [Nat.div_lt_iff_lt_mul (Nat.two_pow_pos _)]; omega
      rw [Nat.mod_eq_of_lt (a := 2^k-1-u%2^k) (by omega)]
      rcases (by generalize u / 2^k = q at *; omega : u / 2^k = 0 ∨ u / 2^k = 1) with hh | hh <;> rw [hh] at hd
      · have : 2^(k+1) - 1 - u = (2^k - 1 - u % 2^k) + 2^k := by omega
        rw [this, Nat.add_mod_right, Nat.mod_eq_of_lt (by omega)]
      · have : 2^(k+1) - 1 - u = (2^k - 1 - u % 2^k) := by omega
        rw [this, Nat.mod_eq_of_lt (by omega)]

theorem bin_head (k u : Nat) (hk : 1 ≤ k) : bin k u = u.testBit (k-1) :: bin (k-1) u := by
  obtain ⟨j, rfl⟩ : ∃ j, k = j + 1 := ⟨k-1, by omega⟩
  rfl

theorem testBit_top (k u : Nat) (hk : 1 ≤ k) (h1 : 2^(k-1) ≤ u) (h2 : u < 2^k) : u.testBit (k-1) = true := by
  rw [Nat.testBit_eq_decide_div_mod_eq]
  obtain ⟨j, rfl⟩ : ∃ j, k = j + 1 := ⟨k-1, by omega⟩
  simp only [Nat.add_sub_cancel] at *
  have : u / 2^j = 1 := by
    apply Nat.div_eq_of_lt_le <;> rw [pow_succ] at * <;> omega
  simp [this]

theorem bin_get (k u i : Nat) (h : i < k) : (bin k u).getD i false = u.testBit (k - 1 - i) := by
  induction k generalizing i with
  | zero => omega
  | succ k ih =>
    cases i with
    | zero => simp [bin]
    | succ i =>
      have := ih i (by omega)
      simp only [bin, List.getD_cons_succ]
      rw [this]; congr 1; omega

/-! ### Bytes -/

theorem byteOfBits_eq (b : Bits) : byteOfBits b = BitVec.ofNat 8 (ofBits b) := rfl

theorem toNat_byteOfBits (b : Bits) (h : b.length = 8) : (byteOfBits b).toNat = ofBits b := by
  have := ofBits_lt b
  rw [h] at this
  rw [byteOfBits_eq, BitVec.toNat_ofNat, Nat.mod_eq_of_lt this]

theorem bitsOfByte_byteOfBits (b : Bits) (h : b.length = 8) : bitsOfByte (byteOfBits b) = b := by
  rw [bitsOfByte, toNat_byteOfBits b h, ← h, bin_ofBits]

theorem pad_len (b : Bits) : (padBits b).length = 8 * ((b.length + 7) / 8) := by
  simp [padBits]
  omega

theorem dropPrefix_append (c rest : Bits) : dropPrefix c (c ++ rest) = some rest := by
  induction c with
  | nil => rfl
  | cons x c ih => simp [dropPrefix, ih]

theorem dropPrefix_some {c b rest : Bits} (h : dropPrefix c b = some rest) : c ++ rest = b := by
  induction c generalizing b with
  | nil => simpa [dropPrefix] using h.symm
  | cons x c ih =>
    cases b with
    | nil => simp [dropPrefix] at h
    | cons y b =>
      simp only [dropPrefix] at h
      split at h
      · next e => rw [List.cons_append, ih h, e]
      · cases h

end Sys2Proof.Machine
end

