-- ==== Sys2Proof/Laws/Bitstream.lean ====
section
/-! SUPPORT. The bits of pairs and of units. -/

namespace Sys2Proof.Machine

/-- The bits of pairs that all have a code. -/
theorem pairBits_of_codes (code : Tables (List (Option Bits))) (t : TableId) (ps : List RlePair) : ∀ cs : List Bits,
    cs.length = ps.length → (∀ i p, ps[i]? = some p → (code.get t)[p.sym.run * 16 + p.sym.cat]? =
    some (some (cs.getD i []))) →
   pairBits code t ps = .ok ((ps.zip cs).flatMap fun e => e.2 ++ e.1.value) := by
  induction ps with
  | nil => intro cs h _; simp [pairBits]
  | cons p ps ih =>
    intro cs h H
    cases cs with
    | nil => simp at h
    | cons c cs =>
      have h0 := H 0 p rfl
      simp at h0
      have := ih cs (by simpa using h) (fun i q hq => by simpa using H (i + 1) q (by simpa using hq))
      simp [pairBits, lookup, keyByte, h0, this]

/-- The class of a unit, from its number modulo `NCH` (R151). -/
theorem unitClass_eq (s : State) (u : Nat) : unitClass s u = if u % s.cfg.nch = 0 then .luma else .chroma := by
  have : unitChannel s.cfg.nch u = u % s.cfg.nch := by
    unfold unitChannel; rw [Nat.mul_comm, Nat.mod_eq_sub_mul_div]
  rw [unitClass, this, classOf]

/-- What a failing lookup records, as R221 writes it. -/
theorem lookupInfo_eq (t : TableId) (x : Nat) (hx : x < 256) :
    lookupInfo t x = (BitVec.ofNat 32 (tableNumber t) <<< 8) ||| BitVec.ofNat 32 x := by
  unfold lookupInfo
  apply BitVec.eq_of_toNat_eq
  have ht : tableNumber t < 4 := by cases t <;> decide
  have h := Nat.two_pow_add_eq_or_of_lt (show x < 2 ^ 8 by omega) (tableNumber t)
  simp only [BitVec.toNat_or, BitVec.toNat_shiftLeft, BitVec.toNat_ofNat, Nat.shiftLeft_eq]
  rw [Nat.mod_eq_of_lt (a := x) (by omega), Nat.mod_eq_of_lt (a := tableNumber t) (by omega),
    Nat.mod_eq_of_lt (a := tableNumber t * 2 ^ 8) (by omega), Nat.mod_eq_of_lt (by omega),
    Nat.mul_comm (tableNumber t) (2 ^ 8), ← h]
  omega

/-- The first pair without a code is the one whose lookup fails (R272). -/
theorem pairBits_of_missing (code : Tables (List (Option Bits))) (t : TableId) (ps : List RlePair) :
    ∀ (i : Nat) (p : RlePair), ps[i]? = some p →
      (∀ j < i, ∀ q, ps[j]? = some q → ∃ c, (code.get t)[q.sym.run * 16 + q.sym.cat]? = some (some c)) →
      (code.get t)[p.sym.run * 16 + p.sym.cat]? = some none →
      pairBits code t ps = .error (lookupInfo t (p.sym.run * 16 + p.sym.cat)) := by
  induction ps with
  | nil => intro i p h; simp at h
  | cons a ps ih =>
    intro i p h hj hn
    cases i with
    | zero => simp at h; subst h; simp [pairBits, lookup, keyByte, hn]
    | succ i =>
      obtain ⟨c, hc⟩ := hj 0 (by omega) a rfl
      have := ih i p (by simpa using h) (fun j hji q hq => hj (j + 1) (by omega) q (by simpa using hq)) hn
      simp [pairBits, lookup, keyByte, hc, this]

/-- The bits of units that all have bits. -/
theorem unitsBits_of_ok (s : State) (us : List Nat) : ∀ bs : List Bits, bs.length = us.length → (∀ i u, us[i]? =
    some u → unitBits s u = .ok (bs.getD i [])) → unitsBits s us = .ok bs.flatten := by
  induction us with
  | nil => intro bs h _; simp at h; subst h; rfl
  | cons u us ih =>
    intro bs h H
    cases bs with
    | nil => simp at h
    | cons b bs =>
      have h0 := H 0 u rfl
      simp at h0
      have := ih bs (by simpa using h) (fun i q hq => by simpa using H (i + 1) q (by simpa using hq))
      simp [unitsBits, h0, this]

/-- The first unit without bits decides what is recorded. -/
theorem unitsBits_of_error (s : State) (info : Word) (us : List Nat) : ∀ k u : Nat, us[k]? = some u → (∀ j < k,
    ∀ v : Nat, us[j]? = some v → ∃ b, unitBits s v = .ok b) → unitBits s u = .error info → unitsBits s us =
    .error info := by
  induction us with
  | nil => intro k u h; simp at h
  | cons v us ih =>
    intro k u hk H he
    cases k with
    | zero => simp at hk; subst hk; simp [unitsBits, he]
    | succ k =>
      obtain ⟨b, hb⟩ := H 0 (by omega) v rfl
      have := ih k u (by simpa using hk) (fun j hj v hv => H (j+1) (by omega) v (by simpa using hv)) he
      simp [unitsBits, hb, this]

end Sys2Proof.Machine
end

