-- ==== Sys2Proof/Laws/Decode.lean ====
section
/-! SUPPORT. Small lemmas about header words and the opcode map. -/

namespace Sys2Proof

@[simp] theorem opField_headerWord (op : BitVec 8) : opField (headerWord op) = op := by
  apply BitVec.eq_of_getLsbD_eq
  intro i hi
  have h1 : 24 + i < 32 := by omega
  simp [opField, headerWord, hi, h1]

@[simp] theorem rsvdField_headerWord (op : BitVec 8) : rsvdField (headerWord op) = 0#24 := by
  apply BitVec.eq_of_getLsbD_eq
  intro i hi
  simp [rsvdField, headerWord, hi]

/-- A header word with zero `RSVD` is the header of its own opcode (R97). -/
theorem headerWord_opField {w : Word} (h : rsvdField w = 0#24) : headerWord (opField w) = w := by
  apply BitVec.eq_of_getLsbD_eq
  intro i hi
  have hz := congrArg (fun x => x.getLsbD i) h
  simp only [rsvdField, BitVec.getLsbD_extractLsb', Nat.zero_add, BitVec.getLsbD_zero] at hz
  by_cases hi' : i < 24
  · simp_all [headerWord, opField]
  · have he : 24 + (i - 24) = i := by omega
    have hl : i - 24 < 8 := by omega
    simp [headerWord, opField, hi, hi', he, hl]

/-- What the opcode map yields has the opcode and the payload it was given. -/
theorem instrOf_eq_some {op : BitVec 8} {p : List Word} {i : Instr} (h : instrOf op p = some i)
    (hp : p.length = payloadCount (headerWord op)) : i.opcode = op ∧ i.payload = p ∧ i.wellFormed = true := by
  simp only [payloadCount, opField_headerWord] at hp
  simp only [instrOf] at h
  repeat' split at h
  all_goals simp_all
  all_goals try (subst h; simp_all [Instr.opcode, Instr.payload, Instr.wellFormed])
  all_goals
    obtain ⟨a, ha, rfl⟩ := h
    cases p <;> simp_all [Instr.opcode, Instr.payload, Instr.wellFormed]

/-- A command's payload has the length its header announces (R93). -/
theorem payload_length {i : Instr} (h : i.wellFormed = true) :
    i.payload.length = payloadCount (headerWord i.opcode) := by
  cases i <;> simp_all [Instr.payload, Instr.opcode, Instr.wellFormed, payloadCount]

/-- The opcode map reads a command back from its opcode and payload. -/
theorem instrOf_opcode_payload (i : Instr) : instrOf i.opcode i.payload = some i := by
  cases i <;> simp [instrOf, Instr.opcode, Instr.payload]

end Sys2Proof
end

