-- ==== Sys2Proof/Laws/Huffman.lean ====
section
/-! SUPPORT. The tree builder and the code generator. -/

namespace Sys2Proof.Machine

/-- The order of R198. -/
def Node.Bef (x y : Node) : Prop := x.weight < y.weight ∨ (x.weight = y.weight ∧ x.ord < y.ord)

theorem before_iff (x y : Node) : x.before y = true ↔ Node.Bef x y := by
  simp [Node.before, Node.Bef]

theorem takeMin_none (xs : List Node) : takeMin xs = none ↔ xs = [] := by
  cases xs with
  | nil => simp [takeMin]
  | cons x xs => simp only [takeMin]; split <;> [skip; split] <;> simp

/-- What `takeMin` takes out. -/
theorem takeMin_spec : ∀ (xs : List Node) (m : Node) (rest : List Node), takeMin xs = some (m, rest) →
    xs.Perm (m :: rest) ∧ ∀ y ∈ rest, ¬ Node.Bef y m := by
  intro xs
  induction xs with
  | nil => simp [takeMin]
  | cons x xs ih =>
    intro m rest h
    simp only [takeMin] at h
    split at h
    · next h' =>
      simp at h; obtain ⟨rfl, rfl⟩ := h
      rw [takeMin_none] at h'; subst h'; simp
    · next m' rest' h' =>
      obtain ⟨p1, p2⟩ := ih _ _ h'
      split at h
      · next hb =>
        simp at h; obtain ⟨rfl, rfl⟩ := h
        refine ⟨List.Perm.refl _, ?_⟩
        rw [before_iff] at hb
        intro y hy
        rcases List.mem_cons.1 (p1.mem_iff.1 hy) with rfl | hy
        · unfold Node.Bef at *; omega
        · have := p2 y hy; unfold Node.Bef at *; omega
      · next hb =>
        simp at h; obtain ⟨rfl, rfl⟩ := h
        refine ⟨(p1.cons x).trans (List.Perm.swap _ _ _), ?_⟩
        intro y hy
        rcases List.mem_cons.1 hy with rfl | hy
        · rw [before_iff] at hb; exact hb
        · exact p2 y hy

/-- No two other nodes weigh less together than `m`. -/
def light (m : Node) (live : List Node) : Prop := ∀ u ∈ live, ∀ v ∈ live, u.ord ≠ m.ord → v.ord ≠ m.ord →
    u.ord ≠ v.ord → m.weight ≤ u.weight + v.weight

/-- All that the merges do: one root, the leaves with their paths, a lighter node never nearer the root. -/
theorem mergeAll_spec : ∀ (fuel ord : Nat) (live : List Node), live ≠ [] → live.length ≤ fuel + 1 →
    (live.map Node.ord).Nodup → (∀ x ∈ live, x.ord < ord) →
   ∃ root, mergeAll fuel ord live = [root] ∧ (live.length = 1 → live = [root]) ∧ (2 ≤ live.length → ∃ c0 c1,
       root.tree = .inner c0 c1) ∧
    ∃ path : Nat → Bits, (walk root.tree []).Perm (live.flatMap fun x => walk x.tree (path x.ord)) ∧
     (∀ x ∈ live, ∀ y ∈ live, Node.Bef x y → (path y.ord).length ≤ (path x.ord).length) ∧
     (∀ m ∈ live, light m live → ∀ y ∈ live, (path y.ord).length ≤ (path m.ord).length + 1) := by
  have single : ∀ r : Node, ∃ path : Nat → Bits, (walk r.tree []).Perm ([r].flatMap fun x => walk x.tree (path
      x.ord)) ∧
     (∀ x ∈ [r], ∀ y ∈ [r], Node.Bef x y → (path y.ord).length ≤ (path x.ord).length) ∧
     (∀ m ∈ [r], light m [r] → ∀ y ∈ [r], (path y.ord).length ≤ (path m.ord).length + 1) := by
    intro r; exact ⟨fun _ => [], by simp, by simp, by simp⟩
  intro fuel
  induction fuel with
  | zero =>
    intro ord live hne hl hnd hlt
    match live, hne, hl with
    | [r], _, _ => exact ⟨r, rfl, by simp, by simp, single r⟩
  | succ fuel ih =>
    intro ord live hne hl hnd hlt
    simp only [mergeAll]
    split
    · next h => rw [takeMin_none] at h; exact absurd h hne
    · next a rest h1 =>
      obtain ⟨pa, ma⟩ := takeMin_spec _ _ _ h1
      split
      · next h =>
        rw [takeMin_none] at h; subst h
        have := List.perm_singleton.1 pa; subst this
        exact ⟨a, rfl, by simp, by simp, single a⟩
      · next b rest' h2 =>
        obtain ⟨pb, mb⟩ := takeMin_spec _ _ _ h2
        have pl : live.Perm (a :: b :: rest') := pa.trans (pb.cons a)
        have hnd' := (pl.map Node.ord).nodup_iff.1 hnd
        simp only [List.map_cons, List.nodup_cons, List.mem_cons, not_or] at hnd'
        obtain ⟨⟨hab, har⟩, hbr, hrn⟩ := hnd'
        have hlen := pl.length_eq
        simp only [List.length_cons] at hlen
        have hlt' : ∀ x ∈ a :: b :: rest', x.ord < ord := fun x hx => hlt x (pl.mem_iff.2 hx)
        have hao := hlt' a (by simp)
        have hbo := hlt' b (by simp)
        have hro : ∀ x ∈ rest', x.ord < ord := fun x hx => hlt' x (by simp [hx])
        obtain ⟨root, e1, e2, e3, path, q1, q2, q3⟩ := ih (ord+1) (rest' ++
            [mergeNodes a b ord]) (by simp) (by simp; omega)
          (by simp only [List.map_append, List.map_cons, List.map_nil, mergeNodes]
              rw [List.nodup_append]; refine ⟨hrn, by simp, ?_⟩
              intro x hx y hy; simp at hy; subst hy
              obtain ⟨z, hz, rfl⟩ := List.mem_map.1 hx
              have := hro z hz; omega)
          (by intro x hx; rcases List.mem_append.1 hx with hx | hx
              · have := hro x hx; omega
              · simp at hx; subst hx; simp [mergeNodes])
        have mw : ∀ y ∈ rest', ¬ Node.Bef y b := mb
        have ma' : ∀ y ∈ b :: rest', ¬ Node.Bef y a := fun y hy => ma y (pb.mem_iff.2 hy)
        have rno : ∀ x ∈ rest', x.ord ≠ a.ord ∧ x.ord ≠ b.ord := by
          intro x hx; constructor
          · intro h; exact har (h ▸ List.mem_map_of_mem hx)
          · intro h; exact hbr (h ▸ List.mem_map_of_mem hx)
        set m := mergeNodes a b ord with hm
        have mo : m.ord = ord := rfl
        have mwt : m.weight = a.weight + b.weight := rfl
        have mt : m.tree = .inner a.tree b.tree := rfl
        have memr : ∀ x ∈ rest', x ∈ rest' ++ [m] := fun x hx => by simp [hx]
        have memm : m ∈ rest' ++ [m] := by simp
        -- m light
        have ml : light m (rest' ++ [m]) := by
          intro u hu v hv hum hvm huv
          have hu' : u ∈ rest' := by
            rcases List.mem_append.1 hu with h | h
            · exact h
            · simp at h; subst h; simp at hum
          have hv' : v ∈ rest' := by
            rcases List.mem_append.1 hv with h | h
            · exact h
            · simp at h; subst h; simp at hvm
          have := mw u hu'; have := ma' v (by simp [hv'])
          unfold Node.Bef at *; omega
        have dm := q3 m memm ml
        refine ⟨root, e1, by intro h; omega, ?_, fun o => if o = a.ord then path ord ++ [false] else if o =
            b.ord then path ord ++ [true] else path o, ?_, ?_, ?_⟩
        · intro _
          by_cases hr : rest' = []
          · subst hr; have := e2 rfl; simp at this; rw [← this, mt]; exact ⟨_, _, rfl⟩
          · apply e3; have : rest'.length ≠ 0 := by simpa using hr
            simp; omega
        · refine q1.trans ?_
          refine List.Perm.trans ?_ (pl.symm.flatMap_right _)
          simp only [List.flatMap_append, List.flatMap_cons, List.flatMap_nil, List.append_nil, mt, mo, walk,
              if_true, if_neg (Ne.symm hab)]
          have : (rest'.flatMap fun x => walk x.tree (path x.ord)) =
              rest'.flatMap fun x => walk x.tree (if x.ord = a.ord then path ord ++ [false] else if x.ord =
              b.ord then path ord ++ [true] else path x.ord) := by
            apply List.flatMap_congr; intro x hx; rw [if_neg (rno x hx).1, if_neg (rno x hx).2]
          rw [← this]
          refine List.perm_append_comm.trans ?_
          rw [List.append_assoc]
        · intro x hx y hy hxy
          have hx' := pl.mem_iff.1 hx
          have hy' := pl.mem_iff.1 hy
          simp only [List.mem_cons] at hx' hy'
          have irr : ∀ z, ¬ Node.Bef z z := by intro z; unfold Node.Bef; omega
          rcases hx' with rfl | rfl | hx' <;> rcases hy' with rfl | rfl | hy'
          · exact absurd hxy (irr _)
          · simp [Ne.symm hab]
          · simp [rno y hy']; exact dm y (memr y hy')
          · simp [Ne.symm hab]
          · exact absurd hxy (irr _)
          · simp [rno y hy', Ne.symm hab]; exact dm y (memr y hy')
          · exact absurd hxy (ma' x (by simp [hx']))
          · exact absurd hxy (mw x hx')
          · simp [rno x hx', rno y hy']; exact q2 x (memr x hx') y (memr y hy') hxy
        · intro k hk hkl y hy
          have hk' := pl.mem_iff.1 hk
          have hy' := pl.mem_iff.1 hy
          simp only [List.mem_cons] at hk' hy'
          have key : ∀ d : Nat, (∀ z ∈ rest', (path z.ord).length ≤ d + 1) → (path ord).length + 1 ≤ d + 1 →
            (if y.ord = a.ord then path ord ++ [false] else if y.ord = b.ord then path ord ++
                [true] else path y.ord).length ≤ d + 1 := by
            intro d k1 k2
            rcases hy' with rfl | rfl | hy'
            · simpa using k2
            · simpa [Ne.symm hab] using k2
            · simpa [rno y hy'] using k1 y hy'
          rcases hk' with rfl | rfl | hk'
          · apply key
            · intro z hz; have := dm z (memr z hz); rw [mo] at this; simp; omega
            · simp
          · apply key
            · intro z hz; have := dm z (memr z hz); rw [mo] at this; simp [Ne.symm hab]; omega
            · simp [Ne.symm hab]
          · have hka := rno k hk'
            have kw : k.weight ≤ m.weight := hkl a (pl.mem_iff.2 (by simp)) b (pl.mem_iff.2 (by simp)) (Ne.symm
                hka.1) (Ne.symm hka.2) hab
            have kb : Node.Bef k m := by have := hro k hk'; unfold Node.Bef; rw [mo]; omega
            have d1 := q2 k (memr k hk') m memm kb
            have kl : light k (rest' ++ [m]) := by
              intro u hu v hv huk hvk huv
              rcases List.mem_append.1 hu with h | h <;> rcases List.mem_append.1 hv with h' | h'
              · exact hkl u (pl.mem_iff.2 (by simp [h])) v (pl.mem_iff.2 (by simp [h'])) huk hvk huv
              · simp at h'; subst h'; omega
              · simp at h; subst h; omega
              · simp at h h'; subst h; subst h'; simp at huv
            apply key
            · intro z hz; simp [hka]; exact q3 k (memr k hk') kl z (memr z hz)
            · simp [hka]; exact d1

/-! ### Leaves -/

theorem observed_keys (freq : List Nat) : observed freq = ((List.range freq.length).filter fun k => decide (0 <
    freq.getD k 0)).map fun k => (k, freq.getD k 0) := by
  unfold observed
  have : freq.zipIdx = (List.range freq.length).map fun k => (freq.getD k 0, k) := by
    apply List.ext_getElem
    · simp
    · intro i h1 h2; simp at h1; simp [h1]
  rw [this, List.filter_map, List.map_map]; rfl

theorem leaves_flat (freq : List Nat) (path : Nat → Bits) : (leaves freq).flatMap (fun x => walk x.tree (path
    x.ord)) = (observed freq).zipIdx.map fun e => (e.1.1, path e.2) := by
  unfold leaves
  rw [List.flatMap_map]
  simp only [walk]
  induction (observed freq).zipIdx <;> simp_all

theorem leaves_ord (freq : List Nat) : (leaves freq).map Node.ord = List.range (observed freq).length := by
  unfold leaves
  rw [List.map_map]
  apply List.ext_getElem <;> simp

theorem leaves_length (freq : List Nat) : (leaves freq).length = (observed freq).length := by
  simp [leaves]

theorem buildTree_none (freq : List Nat) (h : observed freq = []) : buildTree freq = none := by
  simp [buildTree, leaves, h, mergeAll]

/-- All that the tree builder does. -/
theorem build_spec (freq : List Nat) (h : observed freq ≠ []) : ∃ t, buildTree freq = some t ∧
   ((observed freq).length = 1 → ∃ k w, observed freq = [(k,w)] ∧ t = .leaf k) ∧ (2 ≤ (observed freq).length →
       ∃ c0 c1, t = .inner c0 c1) ∧
   ∃ path : Nat → Bits, (walk t []).Perm ((observed freq).zipIdx.map fun e => (e.1.1, path e.2)) ∧
    ∀ i j (hi : i < (observed freq).length) (hj : j < (observed freq).length),
        ((observed freq)[i]).2 < ((observed freq)[j]).2 → (path j).length ≤ (path i).length := by
  have hl := leaves_length freq
  have hne : leaves freq ≠ [] := by
    intro h'
    rw [h'] at hl
    simp at hl
    exact h (List.length_eq_zero_iff.1 hl.symm)
  obtain ⟨root, e1, e2, e3, path, q1, q2, -⟩ := mergeAll_spec (leaves freq).length (leaves freq).length (leaves
      freq) hne (by omega)
    (by rw [leaves_ord]; exact List.nodup_range)
    (by intro x hx; have : x.ord ∈ (leaves freq).map Node.ord := List.mem_map_of_mem hx
        rw [leaves_ord, List.mem_range] at this; omega)
  refine ⟨root.tree, by simp [buildTree, e1], ?_, fun h2 => e3 (by omega), path, leaves_flat freq path ▸ q1, ?_⟩
  · intro h1
    match ho : observed freq, h1 with
    | [(k,w)], _ =>
      have := e2 (by rw [hl, ho]; rfl)
      simp [leaves, ho] at this
      exact ⟨k, w, rfl, by rw [← this]⟩
  · intro i j hi hj hij
    have mem : ∀ i (hi : i < (observed freq).length), (⟨(observed freq)[i].2, i, .leaf (observed freq)[i].1⟩ :
        Node) ∈ leaves freq := by
      intro i hi
      unfold leaves
      rw [List.mem_map]
      exact ⟨((observed freq)[i], i), by rw [List.mem_zipIdx_iff_getElem?]; simp [hi], rfl⟩
    exact q2 _ (mem i hi) _ (mem j hj) (.inl hij)

/-! ### Codes -/

theorem walk_prefix (t : Tree) : ∀ pre, ∀ e ∈ walk t pre, pre <+: e.2 := by
  induction t with
  | leaf k => intro pre e he; simp [walk] at he; subst he; exact List.prefix_refl _
  | inner c0 c1 h0 h1 =>
    intro pre e he
    simp only [walk, List.mem_append] at he
    rcases he with he | he
    · exact (List.prefix_append _ _).trans (h0 _ e he)
    · exact (List.prefix_append _ _).trans (h1 _ e he)

theorem walk_prefixFree (t : Tree) : ∀ pre, (walk t pre).Pairwise fun d e => ¬ d.2 <+: e.2 ∧ ¬ e.2 <+: d.2 := by
  induction t with
  | leaf k => intro pre; simp [walk]
  | inner c0 c1 h0 h1 =>
    intro pre
    simp only [walk]
    rw [List.pairwise_append]
    refine ⟨h0 _, h1 _, ?_⟩
    intro d hd e he
    have pd := walk_prefix _ _ d hd
    have pe := walk_prefix _ _ e he
    have aux : ∀ x : Bits, pre ++ [false] <+: x → pre ++ [true] <+: x → False := by
      rintro x ⟨u, rfl⟩ ⟨v, h⟩
      simp at h
    constructor
    · intro h; exact aux _ (pd.trans h) pe
    · intro h; exact aux _ pd (pe.trans h)

theorem walk_kraft (t : Tree) : ∀ pre, ((walk t pre).map fun e => (1/2:ℚ)^e.2.length).sum =
    (1/2:ℚ)^pre.length := by
  induction t with
  | leaf k => simp [walk]
  | inner c0 c1 h0 h1 =>
    intro pre; simp only [walk, List.map_append, List.sum_append, h0, h1]; simp [pow_succ]; ring

theorem walk_len (t : Tree) : ∀ pre, ∀ e ∈ walk t pre, e.2.length + 1 ≤ pre.length + (walk t pre).length := by
  have pos : ∀ t pre, 1 ≤ (walk t pre).length := by
    intro t; induction t with
    | leaf k => simp [walk]
    | inner c0 c1 h0 h1 => intro pre; simp only [walk, List.length_append]; have := h0 (pre ++ [false]); omega
  induction t with
  | leaf k => intro pre e he; simp [walk] at *; subst he; simp
  | inner c0 c1 h0 h1 =>
    intro pre e he
    simp only [walk, List.mem_append, List.length_append] at *
    have p0 := pos c0 (pre ++ [false])
    have p1 := pos c1 (pre ++ [true])
    rcases he with he | he
    · have := h0 _ e he; simp at *; omega
    · have := h1 _ e he; simp at *; omega

theorem lookup_mem {l : List (Nat × Bits)} {k : Nat} {b : Bits} (h : l.lookup k = some b) : (k, b) ∈ l := by
  induction l with
  | nil => simp at h
  | cons a l ih =>
    obtain ⟨k', b'⟩ := a
    rw [List.lookup_cons] at h
    split at h
    · next hk => simp at hk h; subst hk; subst h; simp
    · simp [ih h]

theorem lookup_of_mem {l : List (Nat × Bits)} {k : Nat} {b : Bits} (hn : (l.map Prod.fst).Nodup) (h : (k,
    b) ∈ l) : l.lookup k = some b := by
  induction l with
  | nil => simp at h
  | cons a l ih =>
    obtain ⟨k', b'⟩ := a
    simp only [List.map_cons, List.nodup_cons] at hn
    rw [List.lookup_cons]
    rcases List.mem_cons.1 h with hm | hm
    · simp at hm; obtain ⟨rfl, rfl⟩ := hm; simp
    · have : k ≠ k' := by rintro rfl; exact hn.1 (List.mem_map.2 ⟨(k, b), hm, rfl⟩)
      simp [beq_false_of_ne this]; exact ih hn.2 hm

/-- All that the code generator does, as one list of key and code. -/
theorem codes_spec (freq : List Nat) : ∃ l : List (Nat × Bits), (codesOf freq) =
    (List.range freq.length).map (fun k => l.lookup k) ∧
   (l.map Prod.fst).Perm ((observed freq).map Prod.fst) ∧ (l.map Prod.fst).Nodup ∧
   (l.Pairwise fun d e => ¬ d.2 <+: e.2 ∧ ¬ e.2 <+: d.2) ∧ (∀ e ∈ l, 1 ≤ e.2.length) ∧
   (2 ≤ (observed freq).length → (l.map fun e => (1/2:ℚ)^e.2.length).sum = 1 ∧ ∀ e ∈ l,
       e.2.length + 1 ≤ (observed freq).length) ∧
   ((observed freq).length = 1 → ∃ k, l = [(k, [false])]) ∧
   (∀ x y b c, (x,b) ∈ l → (y,c) ∈ l → freq.getD y 0 < freq.getD x 0 → b.length ≤ c.length) := by
  have hnd : ((observed freq).map Prod.fst).Nodup := by
    rw [observed_keys, List.map_map]
    simp only [Function.comp_def, List.map_id']
    exact List.nodup_range.filter _
  by_cases h : observed freq = []
  · refine ⟨[], ?_, by simp [h], by simp, by simp, by simp, by simp [h], by simp [h], by simp⟩
    simp only [codesOf, buildTree_none freq h]
    apply List.ext_getElem <;> simp
  · obtain ⟨t, e1, e2, e3, path, q1, q2⟩ := build_spec freq h
    refine ⟨treeCodes t, by simp [codesOf, e1], ?_⟩
    have hpos : 1 ≤ (observed freq).length := by have := List.length_pos_iff.2 h; omega
    by_cases h1 : (observed freq).length = 1
    · obtain ⟨k, w, ho, rfl⟩ := e2 h1
      refine ⟨by simp [treeCodes, ho], by simp [treeCodes], by simp [treeCodes], by simp [treeCodes],
          by simp [ho], fun _ => ⟨k, rfl⟩, ?_⟩
      intro x y b c hx hy; simp [treeCodes] at hx hy; simp [hx, hy]
    · obtain ⟨c0, c1, rfl⟩ := e3 (by omega)
      have ht : treeCodes (.inner c0 c1) = walk (.inner c0 c1) [] := rfl
      rw [ht]
      have hperm : ((walk (.inner c0 c1) []).map Prod.fst).Perm ((observed freq).map Prod.fst) := by
        refine (q1.map Prod.fst).trans (List.Perm.of_eq ?_)
        apply List.ext_getElem <;> simp
      have hlen : (walk (.inner c0 c1) []).length = (observed freq).length := by simpa using hperm.length_eq
      refine ⟨hperm, hperm.nodup_iff.2 hnd, walk_prefixFree _ _, ?_, ?_, by omega, ?_⟩
      · intro e he
        simp only [walk, List.mem_append] at he
        rcases he with he | he <;> (have := (walk_prefix _ _ e he).length_le; simpa using this)
      · intro _
        refine ⟨by rw [walk_kraft]; simp, ?_⟩
        intro e he; have := walk_len _ _ e he; simp at this; omega
      · intro x y b c hx hy hlt
        have hx' := q1.mem_iff.1 hx
        have hy' := q1.mem_iff.1 hy
        rw [List.mem_map] at hx' hy'
        obtain ⟨⟨⟨k,w⟩,i⟩, hi, ei⟩ := hx'
        obtain ⟨⟨⟨k',w'⟩,j⟩, hj, ej⟩ := hy'
        rw [List.mem_zipIdx_iff_getElem?] at hi hj
        simp at ei ej hi hj
        obtain ⟨hi1, hi2⟩ := List.getElem?_eq_some_iff.1 hi
        obtain ⟨hj1, hj2⟩ := List.getElem?_eq_some_iff.1 hj
        have w1 : w = freq.getD k 0 := by
          have : (k,w) ∈ observed freq := hi2 ▸ List.getElem_mem hi1
          rw [observed_keys] at this; simp at this; rw [List.getD_eq_getElem?_getD]; exact this.2.symm
        have w2 : w' = freq.getD k' 0 := by
          have : (k',w') ∈ observed freq := hj2 ▸ List.getElem_mem hj1
          rw [observed_keys] at this; simp at this; rw [List.getD_eq_getElem?_getD]; exact this.2.symm
        have := q2 j i hj1 hi1 (by rw [hi2, hj2, w1, w2, ei.1, ej.1]; exact hlt)
        rw [← ei.2, ← ej.2]; exact this

theorem codesOf_get {freq : List Nat} {l : List (Nat × Bits)} (e : codesOf freq =
    (List.range freq.length).map (fun k => l.lookup k)) (hn : (l.map Prod.fst).Nodup) (hk :
    ∀ k ∈ l.map Prod.fst, k < freq.length) (x : Nat) (b : Bits) :
   (codesOf freq)[x]? = some (some b) ↔ (x, b) ∈ l := by
  rw [e]
  constructor
  · intro h; rw [List.getElem?_map, Option.map_eq_some_iff] at h; obtain ⟨y, hy, h⟩ := h
    have : y = x := by rw [List.getElem?_eq_some_iff] at hy; obtain ⟨_, hy⟩ := hy; simpa using hy.symm
    subst this; exact lookup_mem h
  · intro h
    have := hk x (List.mem_map_of_mem (f := Prod.fst) h)
    simp [this, lookup_of_mem hn h]

theorem obs_lt {freq : List Nat} {k} (h : k ∈ (observed freq).map Prod.fst) : k < freq.length ∧
    0 < freq.getD k 0 := by
  rw [observed_keys] at h; simp only [List.map_map, Function.comp_def, List.map_id', List.mem_filter,
      List.mem_range, decide_eq_true_eq] at h; exact h

theorem obs_of {freq : List Nat} {k} (h1 : k < freq.length) (h2 : 0 < freq.getD k 0) :
    k ∈ (observed freq).map Prod.fst := by
  rw [observed_keys]; simp only [List.map_map, Function.comp_def, List.map_id', List.mem_filter,
      List.mem_range, decide_eq_true_eq]; exact ⟨h1, h2⟩

theorem mem_validEntriesFrom (c : List (Option Bits)) : ∀ i x b, (x,b) ∈ validEntriesFrom i c ↔ i ≤ x ∧ (c :
    List (Option Bits))[x-i]? = some (some b) := by
  induction c with
  | nil => simp [validEntriesFrom]
  | cons o c ih =>
    intro i x b
    have aux : ∀ v, (i + 1 ≤ x ∧ (c : List (Option Bits))[x-(i+1)]? = some (some b)) ↔ (i ≤ x ∧ x ≠ i ∧
        (v::c)[x-i]? = some (some b)) := by
      intro v
      constructor
      · rintro ⟨h1, h2⟩; refine ⟨by omega, by omega, ?_⟩
        rw [show x - i = (x - (i+1)) + 1 by omega]; simpa using h2
      · rintro ⟨h1, h2, h3⟩; refine ⟨by omega, ?_⟩
        rw [show x - i = (x - (i+1)) + 1 by omega] at h3; simpa using h3
    cases o with
    | none =>
      simp only [validEntriesFrom]
      rw [ih, aux none]
      constructor
      · tauto
      · rintro ⟨h1, h2⟩; refine ⟨h1, ?_, h2⟩; rintro rfl; simp at h2
    | some d =>
      simp only [validEntriesFrom, List.mem_cons, Prod.mk.injEq]
      rw [ih, aux (some d)]
      constructor
      · rintro (⟨rfl, rfl⟩ | h)
        · simp
        · tauto
      · rintro ⟨h1, h2⟩
        by_cases hx : x = i
        · subst hx; simp at h2; exact .inl ⟨rfl, h2.symm⟩
        · exact .inr ⟨h1, hx, h2⟩

theorem validEntriesFrom_nodup (c : List (Option Bits)) : ∀ i, (validEntriesFrom i c).Nodup := by
  induction c with
  | nil => simp [validEntriesFrom]
  | cons o c ih =>
    intro i
    cases o with
    | none => exact ih _
    | some d =>
      simp only [validEntriesFrom, List.nodup_cons]
      refine ⟨?_, ih _⟩
      rw [mem_validEntriesFrom]; omega

theorem builtCode_get (s : State) (t : TableId) : (builtCode s).get t = codesOf ((collect s).get t) :=
    by cases t <;> rfl

end Sys2Proof.Machine
end

