-- ==== Sys2Proof/Laws/Memory.lean ====
section
/-! SUPPORT. The coefficient buffer: every write keeps the canonical form, and what a write leaves listed. -/

namespace Sys2Proof.Machine

theorem wf_cons {a : Nat × CoefVec} {m : CoefMem} : CoefMem.wf (a :: m) = true ↔ (∀ b ∈ m, a.1 < b.1) ∧
    CoefMem.wf m = true := by
  induction m generalizing a with
  | nil => simp [CoefMem.wf]
  | cons b m ih =>
    simp only [CoefMem.wf, Bool.and_eq_true, decide_eq_true_eq]
    constructor
    · rintro ⟨h1, h2⟩
      refine ⟨?_, h2⟩
      intro c hc
      rcases List.mem_cons.1 hc with rfl | hc
      · exact h1
      · exact Nat.lt_trans h1 ((ih.1 h2).1 c hc)
    · rintro ⟨h1, h2⟩
      exact ⟨h1 b (by simp), h2⟩

theorem mem_of_mem_write {m : CoefMem} {u : Nat} {x : CoefVec} : ∀ b ∈ CoefMem.write m u x, b = (u, x) ∨ (b ∈ m) := by
  induction m with
  | nil => intro b hb; simpa [CoefMem.write] using hb
  | cons a m ih =>
    obtain ⟨v, y⟩ := a
    intro b hb
    simp only [CoefMem.write] at hb
    split at hb
    · simpa using hb
    · split at hb
      · simp at hb ⊢; tauto
      · rcases List.mem_cons.1 hb with rfl | hb
        · simp
        · rcases ih b hb with h | h <;> simp [h]

/-- Every write keeps the canonical form. -/
theorem write_wf {m : CoefMem} {u : Nat} {x : CoefVec} (h : CoefMem.wf m = true) :
    CoefMem.wf (CoefMem.write m u x) = true := by
  induction m with
  | nil => rfl
  | cons a m ih =>
    obtain ⟨v, y⟩ := a
    obtain ⟨h1, h2⟩ := wf_cons.1 h
    simp only [CoefMem.write]
    split
    · next hlt =>
      refine wf_cons.2 ⟨?_, h⟩
      intro b hb
      rcases List.mem_cons.1 hb with rfl | hb
      · exact hlt
      · exact Nat.lt_trans hlt (h1 b hb)
    · split
      · next he => exact wf_cons.2 ⟨by subst he; exact h1, h2⟩
      · refine wf_cons.2 ⟨?_, ih h2⟩
        intro b hb
        rcases mem_of_mem_write b hb with rfl | hb
        · simp; omega
        · exact h1 b hb

theorem mem_write_self {m : CoefMem} {u : Nat} {x : CoefVec} : (u, x) ∈ CoefMem.write m u x := by
  induction m with
  | nil => simp [CoefMem.write]
  | cons a m ih =>
    simp only [CoefMem.write]
    split
    · simp
    · split <;> simp [ih]

theorem mem_write_of_ne {m : CoefMem} {u v : Nat} {x y : CoefVec} (h : (v, y) ∈ m) (hne : v ≠ u) : (v,
    y) ∈ CoefMem.write m u x := by
  induction m with
  | nil => simp at h
  | cons a m ih =>
    obtain ⟨w, z⟩ := a
    simp only [CoefMem.write]
    split
    · exact List.mem_cons_of_mem _ h
    · split
      · next he =>
        rcases List.mem_cons.1 h with h | h
        · cases h; exact absurd he.symm hne
        · exact List.mem_cons_of_mem _ h
      · rcases List.mem_cons.1 h with h | h
        · rw [h]; simp
        · exact List.mem_cons_of_mem _ (ih h)

/-- A listed unit reads as its vector. -/
theorem read_of_mem {m : CoefMem} {u : Nat} {x : CoefVec} (hw : CoefMem.wf m = true) (h : (u, x) ∈ m) :
    CoefMem.read m u = x := by
  induction m with
  | nil => simp at h
  | cons a m ih =>
    obtain ⟨w, z⟩ := a
    obtain ⟨h1, h2⟩ := wf_cons.1 hw
    simp only [CoefMem.read]
    rcases List.mem_cons.1 h with h | h
    · cases h; simp
    · rw [if_neg (by have := h1 _ h; simp at this; omega)]; exact ih h2 h

/-- The memory of the reset state has the canonical form. -/
theorem reset_cbuf_wf : CoefMem.wf State.reset.cbuf = true := rfl

/-- Under the invariant every loaded unit reads in range. -/
theorem coefs_inRange {s : State} (h : s.Inv) {u : Nat} (hu : u < s.ldcnt.toNat) : vecInRange (coefs s u) := by
  obtain ⟨x, h1, h2⟩ := h.loaded u hu
  unfold coefs; rw [read_of_mem h.memory h1]; exact h2

end Sys2Proof.Machine
end

