-- ==== Sys2Proof/Laws/State.lean ====
section
/-! SUPPORT. One lemma per field and update of State, true by unfolding. -/

namespace Sys2Proof.Machine

variable (s : State)

/-! ### `raise` -/

@[simp] theorem raise_phase (k : FaultKind) (info : Word) : (raise k info s).phase = .fault := rfl
@[simp] theorem raise_err (k : FaultKind) (info : Word) : (raise k info s).err = some k := rfl
@[simp] theorem raise_errinfo (k : FaultKind) (info : Word) : (raise k info s).errinfo = info := rfl
@[simp] theorem raise_tabw (k : FaultKind) (info : Word) : (raise k info s).tabw = s.tabw := rfl
@[simp] theorem raise_datw (k : FaultKind) (info : Word) : (raise k info s).datw = s.datw := rfl
@[simp] theorem raise_width (k : FaultKind) (info : Word) : (raise k info s).width = s.width := rfl
@[simp] theorem raise_height (k : FaultKind) (info : Word) : (raise k info s).height = s.height := rfl
@[simp] theorem raise_nblk (k : FaultKind) (info : Word) : (raise k info s).nblk = s.nblk := rfl
@[simp] theorem raise_ldcnt (k : FaultKind) (info : Word) : (raise k info s).ldcnt = s.ldcnt := rfl
@[simp] theorem raise_bitlen (k : FaultKind) (info : Word) : (raise k info s).bitlen = s.bitlen := rfl
@[simp] theorem raise_tabcnt (k : FaultKind) (info : Word) : (raise k info s).tabcnt = s.tabcnt := rfl
@[simp] theorem raise_qrom (k : FaultKind) (info : Word) : (raise k info s).qrom = s.qrom := rfl
@[simp] theorem raise_zzrom (k : FaultKind) (info : Word) : (raise k info s).zzrom = s.zzrom := rfl
@[simp] theorem raise_cbuf (k : FaultKind) (info : Word) : (raise k info s).cbuf = s.cbuf := rfl
@[simp] theorem raise_freq (k : FaultKind) (info : Word) : (raise k info s).freq = s.freq := rfl
@[simp] theorem raise_code (k : FaultKind) (info : Word) : (raise k info s).code = s.code := rfl
@[simp] theorem raise_bitbuf (k : FaultKind) (info : Word) : (raise k info s).bitbuf = s.bitbuf := rfl
@[simp] theorem raise_sink0 (k : FaultKind) (info : Word) : (raise k info s).sink0 = s.sink0 := rfl
@[simp] theorem raise_sink1 (k : FaultKind) (info : Word) : (raise k info s).sink1 = s.sink1 := rfl
@[simp] theorem raise_cs (k : FaultKind) (info : Word) : (raise k info s).cs = s.cs := rfl
@[simp] theorem raise_rst (k : FaultKind) (info : Word) : (raise k info s).rst = s.rst := rfl
@[simp] theorem raise_answers (k : FaultKind) (info : Word) : (raise k info s).answers = s.answers := rfl
@[simp] theorem raise_asked (k : FaultKind) (info : Word) : (raise k info s).asked = s.asked := rfl
@[simp] theorem raise_cfg (k : FaultKind) (info : Word) : (raise k info s).cfg = s.cfg := rfl

/-! ### `setTabw` -/

@[simp] theorem setTabw_phase : (setTabw s).phase = s.phase := rfl
@[simp] theorem setTabw_err : (setTabw s).err = s.err := rfl
@[simp] theorem setTabw_errinfo : (setTabw s).errinfo = s.errinfo := rfl
@[simp] theorem setTabw_tabw : (setTabw s).tabw = true := rfl
@[simp] theorem setTabw_datw : (setTabw s).datw = s.datw := rfl
@[simp] theorem setTabw_width : (setTabw s).width = s.width := rfl
@[simp] theorem setTabw_height : (setTabw s).height = s.height := rfl
@[simp] theorem setTabw_nblk : (setTabw s).nblk = s.nblk := rfl
@[simp] theorem setTabw_ldcnt : (setTabw s).ldcnt = s.ldcnt := rfl
@[simp] theorem setTabw_bitlen : (setTabw s).bitlen = s.bitlen := rfl
@[simp] theorem setTabw_tabcnt : (setTabw s).tabcnt = s.tabcnt := rfl
@[simp] theorem setTabw_qrom : (setTabw s).qrom = s.qrom := rfl
@[simp] theorem setTabw_zzrom : (setTabw s).zzrom = s.zzrom := rfl
@[simp] theorem setTabw_cbuf : (setTabw s).cbuf = s.cbuf := rfl
@[simp] theorem setTabw_freq : (setTabw s).freq = s.freq := rfl
@[simp] theorem setTabw_code : (setTabw s).code = s.code := rfl
@[simp] theorem setTabw_bitbuf : (setTabw s).bitbuf = s.bitbuf := rfl
@[simp] theorem setTabw_sink0 : (setTabw s).sink0 = s.sink0 := rfl
@[simp] theorem setTabw_sink1 : (setTabw s).sink1 = s.sink1 := rfl
@[simp] theorem setTabw_cs : (setTabw s).cs = s.cs := rfl
@[simp] theorem setTabw_rst : (setTabw s).rst = s.rst := rfl
@[simp] theorem setTabw_answers : (setTabw s).answers = s.answers := rfl
@[simp] theorem setTabw_asked : (setTabw s).asked = s.asked := rfl
@[simp] theorem setTabw_cfg : (setTabw s).cfg = s.cfg := rfl

/-! ### `setDatw` -/

@[simp] theorem setDatw_phase : (setDatw s).phase = s.phase := rfl
@[simp] theorem setDatw_err : (setDatw s).err = s.err := rfl
@[simp] theorem setDatw_errinfo : (setDatw s).errinfo = s.errinfo := rfl
@[simp] theorem setDatw_tabw : (setDatw s).tabw = s.tabw := rfl
@[simp] theorem setDatw_datw : (setDatw s).datw = true := rfl
@[simp] theorem setDatw_width : (setDatw s).width = s.width := rfl
@[simp] theorem setDatw_height : (setDatw s).height = s.height := rfl
@[simp] theorem setDatw_nblk : (setDatw s).nblk = s.nblk := rfl
@[simp] theorem setDatw_ldcnt : (setDatw s).ldcnt = s.ldcnt := rfl
@[simp] theorem setDatw_bitlen : (setDatw s).bitlen = s.bitlen := rfl
@[simp] theorem setDatw_tabcnt : (setDatw s).tabcnt = s.tabcnt := rfl
@[simp] theorem setDatw_qrom : (setDatw s).qrom = s.qrom := rfl
@[simp] theorem setDatw_zzrom : (setDatw s).zzrom = s.zzrom := rfl
@[simp] theorem setDatw_cbuf : (setDatw s).cbuf = s.cbuf := rfl
@[simp] theorem setDatw_freq : (setDatw s).freq = s.freq := rfl
@[simp] theorem setDatw_code : (setDatw s).code = s.code := rfl
@[simp] theorem setDatw_bitbuf : (setDatw s).bitbuf = s.bitbuf := rfl
@[simp] theorem setDatw_sink0 : (setDatw s).sink0 = s.sink0 := rfl
@[simp] theorem setDatw_sink1 : (setDatw s).sink1 = s.sink1 := rfl
@[simp] theorem setDatw_cs : (setDatw s).cs = s.cs := rfl
@[simp] theorem setDatw_rst : (setDatw s).rst = s.rst := rfl
@[simp] theorem setDatw_answers : (setDatw s).answers = s.answers := rfl
@[simp] theorem setDatw_asked : (setDatw s).asked = s.asked := rfl
@[simp] theorem setDatw_cfg : (setDatw s).cfg = s.cfg := rfl

/-! ### `clearFlags` -/

@[simp] theorem clearFlags_phase : (clearFlags s).phase = s.phase := rfl
@[simp] theorem clearFlags_err : (clearFlags s).err = s.err := rfl
@[simp] theorem clearFlags_errinfo : (clearFlags s).errinfo = s.errinfo := rfl
@[simp] theorem clearFlags_tabw : (clearFlags s).tabw = false := rfl
@[simp] theorem clearFlags_datw : (clearFlags s).datw = false := rfl
@[simp] theorem clearFlags_width : (clearFlags s).width = s.width := rfl
@[simp] theorem clearFlags_height : (clearFlags s).height = s.height := rfl
@[simp] theorem clearFlags_nblk : (clearFlags s).nblk = s.nblk := rfl
@[simp] theorem clearFlags_ldcnt : (clearFlags s).ldcnt = s.ldcnt := rfl
@[simp] theorem clearFlags_bitlen : (clearFlags s).bitlen = s.bitlen := rfl
@[simp] theorem clearFlags_tabcnt : (clearFlags s).tabcnt = s.tabcnt := rfl
@[simp] theorem clearFlags_qrom : (clearFlags s).qrom = s.qrom := rfl
@[simp] theorem clearFlags_zzrom : (clearFlags s).zzrom = s.zzrom := rfl
@[simp] theorem clearFlags_cbuf : (clearFlags s).cbuf = s.cbuf := rfl
@[simp] theorem clearFlags_freq : (clearFlags s).freq = s.freq := rfl
@[simp] theorem clearFlags_code : (clearFlags s).code = s.code := rfl
@[simp] theorem clearFlags_bitbuf : (clearFlags s).bitbuf = s.bitbuf := rfl
@[simp] theorem clearFlags_sink0 : (clearFlags s).sink0 = s.sink0 := rfl
@[simp] theorem clearFlags_sink1 : (clearFlags s).sink1 = s.sink1 := rfl
@[simp] theorem clearFlags_cs : (clearFlags s).cs = s.cs := rfl
@[simp] theorem clearFlags_rst : (clearFlags s).rst = s.rst := rfl
@[simp] theorem clearFlags_answers : (clearFlags s).answers = s.answers := rfl
@[simp] theorem clearFlags_asked : (clearFlags s).asked = s.asked := rfl
@[simp] theorem clearFlags_cfg : (clearFlags s).cfg = s.cfg := rfl

/-! ### `answerUsed` -/

@[simp] theorem answerUsed_phase : (answerUsed s).phase = s.phase := rfl
@[simp] theorem answerUsed_err : (answerUsed s).err = s.err := rfl
@[simp] theorem answerUsed_errinfo : (answerUsed s).errinfo = s.errinfo := rfl
@[simp] theorem answerUsed_tabw : (answerUsed s).tabw = s.tabw := rfl
@[simp] theorem answerUsed_datw : (answerUsed s).datw = s.datw := rfl
@[simp] theorem answerUsed_width : (answerUsed s).width = s.width := rfl
@[simp] theorem answerUsed_height : (answerUsed s).height = s.height := rfl
@[simp] theorem answerUsed_nblk : (answerUsed s).nblk = s.nblk := rfl
@[simp] theorem answerUsed_ldcnt : (answerUsed s).ldcnt = s.ldcnt := rfl
@[simp] theorem answerUsed_bitlen : (answerUsed s).bitlen = s.bitlen := rfl
@[simp] theorem answerUsed_tabcnt : (answerUsed s).tabcnt = s.tabcnt := rfl
@[simp] theorem answerUsed_qrom : (answerUsed s).qrom = s.qrom := rfl
@[simp] theorem answerUsed_zzrom : (answerUsed s).zzrom = s.zzrom := rfl
@[simp] theorem answerUsed_cbuf : (answerUsed s).cbuf = s.cbuf := rfl
@[simp] theorem answerUsed_freq : (answerUsed s).freq = s.freq := rfl
@[simp] theorem answerUsed_code : (answerUsed s).code = s.code := rfl
@[simp] theorem answerUsed_bitbuf : (answerUsed s).bitbuf = s.bitbuf := rfl
@[simp] theorem answerUsed_sink0 : (answerUsed s).sink0 = s.sink0 := rfl
@[simp] theorem answerUsed_sink1 : (answerUsed s).sink1 = s.sink1 := rfl
@[simp] theorem answerUsed_cs : (answerUsed s).cs = s.cs := rfl
@[simp] theorem answerUsed_rst : (answerUsed s).rst = s.rst := rfl
@[simp] theorem answerUsed_answers : (answerUsed s).answers = s.answers.tail := rfl
@[simp] theorem answerUsed_asked : (answerUsed s).asked = s.asked + 1 := rfl
@[simp] theorem answerUsed_cfg : (answerUsed s).cfg = s.cfg := rfl

/-! ### `replaceSink0` -/

@[simp] theorem replaceSink0_phase (b : List Byte) : (replaceSink0 b s).phase = s.phase := rfl
@[simp] theorem replaceSink0_err (b : List Byte) : (replaceSink0 b s).err = s.err := rfl
@[simp] theorem replaceSink0_errinfo (b : List Byte) : (replaceSink0 b s).errinfo = s.errinfo := rfl
@[simp] theorem replaceSink0_tabw (b : List Byte) : (replaceSink0 b s).tabw = s.tabw := rfl
@[simp] theorem replaceSink0_datw (b : List Byte) : (replaceSink0 b s).datw = s.datw := rfl
@[simp] theorem replaceSink0_width (b : List Byte) : (replaceSink0 b s).width = s.width := rfl
@[simp] theorem replaceSink0_height (b : List Byte) : (replaceSink0 b s).height = s.height := rfl
@[simp] theorem replaceSink0_nblk (b : List Byte) : (replaceSink0 b s).nblk = s.nblk := rfl
@[simp] theorem replaceSink0_ldcnt (b : List Byte) : (replaceSink0 b s).ldcnt = s.ldcnt := rfl
@[simp] theorem replaceSink0_bitlen (b : List Byte) : (replaceSink0 b s).bitlen = s.bitlen := rfl
@[simp] theorem replaceSink0_tabcnt (b : List Byte) : (replaceSink0 b s).tabcnt = s.tabcnt := rfl
@[simp] theorem replaceSink0_qrom (b : List Byte) : (replaceSink0 b s).qrom = s.qrom := rfl
@[simp] theorem replaceSink0_zzrom (b : List Byte) : (replaceSink0 b s).zzrom = s.zzrom := rfl
@[simp] theorem replaceSink0_cbuf (b : List Byte) : (replaceSink0 b s).cbuf = s.cbuf := rfl
@[simp] theorem replaceSink0_freq (b : List Byte) : (replaceSink0 b s).freq = s.freq := rfl
@[simp] theorem replaceSink0_code (b : List Byte) : (replaceSink0 b s).code = s.code := rfl
@[simp] theorem replaceSink0_bitbuf (b : List Byte) : (replaceSink0 b s).bitbuf = s.bitbuf := rfl
@[simp] theorem replaceSink0_sink0 (b : List Byte) : (replaceSink0 b s).sink0 = b := rfl
@[simp] theorem replaceSink0_sink1 (b : List Byte) : (replaceSink0 b s).sink1 = s.sink1 := rfl
@[simp] theorem replaceSink0_cs (b : List Byte) : (replaceSink0 b s).cs = s.cs := rfl
@[simp] theorem replaceSink0_rst (b : List Byte) : (replaceSink0 b s).rst = s.rst := rfl
@[simp] theorem replaceSink0_answers (b : List Byte) : (replaceSink0 b s).answers = s.answers := rfl
@[simp] theorem replaceSink0_asked (b : List Byte) : (replaceSink0 b s).asked = s.asked := rfl
@[simp] theorem replaceSink0_cfg (b : List Byte) : (replaceSink0 b s).cfg = s.cfg := rfl

/-! ### `replaceSink1` -/

@[simp] theorem replaceSink1_phase (b : List Byte) : (replaceSink1 b s).phase = s.phase := rfl
@[simp] theorem replaceSink1_err (b : List Byte) : (replaceSink1 b s).err = s.err := rfl
@[simp] theorem replaceSink1_errinfo (b : List Byte) : (replaceSink1 b s).errinfo = s.errinfo := rfl
@[simp] theorem replaceSink1_tabw (b : List Byte) : (replaceSink1 b s).tabw = s.tabw := rfl
@[simp] theorem replaceSink1_datw (b : List Byte) : (replaceSink1 b s).datw = s.datw := rfl
@[simp] theorem replaceSink1_width (b : List Byte) : (replaceSink1 b s).width = s.width := rfl
@[simp] theorem replaceSink1_height (b : List Byte) : (replaceSink1 b s).height = s.height := rfl
@[simp] theorem replaceSink1_nblk (b : List Byte) : (replaceSink1 b s).nblk = s.nblk := rfl
@[simp] theorem replaceSink1_ldcnt (b : List Byte) : (replaceSink1 b s).ldcnt = s.ldcnt := rfl
@[simp] theorem replaceSink1_bitlen (b : List Byte) : (replaceSink1 b s).bitlen = s.bitlen := rfl
@[simp] theorem replaceSink1_tabcnt (b : List Byte) : (replaceSink1 b s).tabcnt = s.tabcnt := rfl
@[simp] theorem replaceSink1_qrom (b : List Byte) : (replaceSink1 b s).qrom = s.qrom := rfl
@[simp] theorem replaceSink1_zzrom (b : List Byte) : (replaceSink1 b s).zzrom = s.zzrom := rfl
@[simp] theorem replaceSink1_cbuf (b : List Byte) : (replaceSink1 b s).cbuf = s.cbuf := rfl
@[simp] theorem replaceSink1_freq (b : List Byte) : (replaceSink1 b s).freq = s.freq := rfl
@[simp] theorem replaceSink1_code (b : List Byte) : (replaceSink1 b s).code = s.code := rfl
@[simp] theorem replaceSink1_bitbuf (b : List Byte) : (replaceSink1 b s).bitbuf = s.bitbuf := rfl
@[simp] theorem replaceSink1_sink0 (b : List Byte) : (replaceSink1 b s).sink0 = s.sink0 := rfl
@[simp] theorem replaceSink1_sink1 (b : List Byte) : (replaceSink1 b s).sink1 = b := rfl
@[simp] theorem replaceSink1_cs (b : List Byte) : (replaceSink1 b s).cs = s.cs := rfl
@[simp] theorem replaceSink1_rst (b : List Byte) : (replaceSink1 b s).rst = s.rst := rfl
@[simp] theorem replaceSink1_answers (b : List Byte) : (replaceSink1 b s).answers = s.answers := rfl
@[simp] theorem replaceSink1_asked (b : List Byte) : (replaceSink1 b s).asked = s.asked := rfl
@[simp] theorem replaceSink1_cfg (b : List Byte) : (replaceSink1 b s).cfg = s.cfg := rfl

/-! ### `resetCore` -/

@[simp] theorem resetCore_phase : (resetCore s).phase = .idle := rfl
@[simp] theorem resetCore_err : (resetCore s).err = none := rfl
@[simp] theorem resetCore_errinfo : (resetCore s).errinfo = 0#32 := rfl
@[simp] theorem resetCore_tabw : (resetCore s).tabw = false := rfl
@[simp] theorem resetCore_datw : (resetCore s).datw = false := rfl
@[simp] theorem resetCore_width : (resetCore s).width = 0#32 := rfl
@[simp] theorem resetCore_height : (resetCore s).height = 0#32 := rfl
@[simp] theorem resetCore_nblk : (resetCore s).nblk = 0#32 := rfl
@[simp] theorem resetCore_ldcnt : (resetCore s).ldcnt = 0#64 := rfl
@[simp] theorem resetCore_bitlen : (resetCore s).bitlen = 0#64 := rfl
@[simp] theorem resetCore_tabcnt : (resetCore s).tabcnt = 0#32 := rfl
@[simp] theorem resetCore_qrom : (resetCore s).qrom = s.qrom := rfl
@[simp] theorem resetCore_zzrom : (resetCore s).zzrom = s.zzrom := rfl
@[simp] theorem resetCore_cbuf : (resetCore s).cbuf = [] := rfl
@[simp] theorem resetCore_freq : (resetCore s).freq = unspecifiedFreq := rfl
@[simp] theorem resetCore_code : (resetCore s).code = invalidCode := rfl
@[simp] theorem resetCore_bitbuf : (resetCore s).bitbuf = [] := rfl
@[simp] theorem resetCore_sink0 : (resetCore s).sink0 = s.sink0 := rfl
@[simp] theorem resetCore_sink1 : (resetCore s).sink1 = s.sink1 := rfl
@[simp] theorem resetCore_cs : (resetCore s).cs = s.cs := rfl
@[simp] theorem resetCore_rst : (resetCore s).rst = s.rst := rfl
@[simp] theorem resetCore_answers : (resetCore s).answers = s.answers := rfl
@[simp] theorem resetCore_asked : (resetCore s).asked = s.asked := rfl
@[simp] theorem resetCore_cfg : (resetCore s).cfg = s.cfg := rfl

/-! ### `beginLoad` -/

@[simp] theorem beginLoad_phase : (beginLoad s).phase = .load := rfl
@[simp] theorem beginLoad_err : (beginLoad s).err = s.err := rfl
@[simp] theorem beginLoad_errinfo : (beginLoad s).errinfo = s.errinfo := rfl
@[simp] theorem beginLoad_tabw : (beginLoad s).tabw = false := rfl
@[simp] theorem beginLoad_datw : (beginLoad s).datw = false := rfl
@[simp] theorem beginLoad_width : (beginLoad s).width = s.width := rfl
@[simp] theorem beginLoad_height : (beginLoad s).height = s.height := rfl
@[simp] theorem beginLoad_nblk : (beginLoad s).nblk = s.nblk := rfl
@[simp] theorem beginLoad_ldcnt : (beginLoad s).ldcnt = 0#64 := rfl
@[simp] theorem beginLoad_bitlen : (beginLoad s).bitlen = 0#64 := rfl
@[simp] theorem beginLoad_tabcnt : (beginLoad s).tabcnt = 0#32 := rfl
@[simp] theorem beginLoad_qrom : (beginLoad s).qrom = s.qrom := rfl
@[simp] theorem beginLoad_zzrom : (beginLoad s).zzrom = s.zzrom := rfl
@[simp] theorem beginLoad_cbuf : (beginLoad s).cbuf = s.cbuf := rfl
@[simp] theorem beginLoad_freq : (beginLoad s).freq = s.freq := rfl
@[simp] theorem beginLoad_code : (beginLoad s).code = invalidCode := rfl
@[simp] theorem beginLoad_bitbuf : (beginLoad s).bitbuf = [] := rfl
@[simp] theorem beginLoad_sink0 : (beginLoad s).sink0 = s.sink0 := rfl
@[simp] theorem beginLoad_sink1 : (beginLoad s).sink1 = s.sink1 := rfl
@[simp] theorem beginLoad_cs : (beginLoad s).cs = s.cs := rfl
@[simp] theorem beginLoad_rst : (beginLoad s).rst = s.rst := rfl
@[simp] theorem beginLoad_answers : (beginLoad s).answers = s.answers := rfl
@[simp] theorem beginLoad_asked : (beginLoad s).asked = s.asked := rfl
@[simp] theorem beginLoad_cfg : (beginLoad s).cfg = s.cfg := rfl

/-! ### `storeUnit` -/

@[simp] theorem storeUnit_phase (q : List Int) : (storeUnit q s).phase = s.phase := rfl
@[simp] theorem storeUnit_err (q : List Int) : (storeUnit q s).err = s.err := rfl
@[simp] theorem storeUnit_errinfo (q : List Int) : (storeUnit q s).errinfo = s.errinfo := rfl
@[simp] theorem storeUnit_tabw (q : List Int) : (storeUnit q s).tabw = s.tabw := rfl
@[simp] theorem storeUnit_datw (q : List Int) : (storeUnit q s).datw = s.datw := rfl
@[simp] theorem storeUnit_width (q : List Int) : (storeUnit q s).width = s.width := rfl
@[simp] theorem storeUnit_height (q : List Int) : (storeUnit q s).height = s.height := rfl
@[simp] theorem storeUnit_nblk (q : List Int) : (storeUnit q s).nblk = s.nblk := rfl
@[simp] theorem storeUnit_ldcnt (q : List Int) : (storeUnit q s).ldcnt = s.ldcnt + 1#64 := rfl
@[simp] theorem storeUnit_bitlen (q : List Int) : (storeUnit q s).bitlen = s.bitlen := rfl
@[simp] theorem storeUnit_tabcnt (q : List Int) : (storeUnit q s).tabcnt = s.tabcnt := rfl
@[simp] theorem storeUnit_qrom (q : List Int) : (storeUnit q s).qrom = s.qrom := rfl
@[simp] theorem storeUnit_zzrom (q : List Int) : (storeUnit q s).zzrom = s.zzrom := rfl
@[simp] theorem storeUnit_cbuf (q : List Int) : (storeUnit q s).cbuf = CoefMem.write s.cbuf s.ldcnt.toNat (vecOfInts (zigzag s.zzrom q)) := rfl
@[simp] theorem storeUnit_freq (q : List Int) : (storeUnit q s).freq = s.freq := rfl
@[simp] theorem storeUnit_code (q : List Int) : (storeUnit q s).code = s.code := rfl
@[simp] theorem storeUnit_bitbuf (q : List Int) : (storeUnit q s).bitbuf = s.bitbuf := rfl
@[simp] theorem storeUnit_sink0 (q : List Int) : (storeUnit q s).sink0 = s.sink0 := rfl
@[simp] theorem storeUnit_sink1 (q : List Int) : (storeUnit q s).sink1 = s.sink1 := rfl
@[simp] theorem storeUnit_cs (q : List Int) : (storeUnit q s).cs = s.cs := rfl
@[simp] theorem storeUnit_rst (q : List Int) : (storeUnit q s).rst = s.rst := rfl
@[simp] theorem storeUnit_answers (q : List Int) : (storeUnit q s).answers = s.answers := rfl
@[simp] theorem storeUnit_asked (q : List Int) : (storeUnit q s).asked = s.asked := rfl
@[simp] theorem storeUnit_cfg (q : List Int) : (storeUnit q s).cfg = s.cfg := rfl

/-! ### `buildTables` -/

@[simp] theorem buildTables_phase : (buildTables s).phase = .tables := rfl
@[simp] theorem buildTables_err : (buildTables s).err = s.err := rfl
@[simp] theorem buildTables_errinfo : (buildTables s).errinfo = s.errinfo := rfl
@[simp] theorem buildTables_tabw : (buildTables s).tabw = s.tabw := rfl
@[simp] theorem buildTables_datw : (buildTables s).datw = s.datw := rfl
@[simp] theorem buildTables_width : (buildTables s).width = s.width := rfl
@[simp] theorem buildTables_height : (buildTables s).height = s.height := rfl
@[simp] theorem buildTables_nblk : (buildTables s).nblk = s.nblk := rfl
@[simp] theorem buildTables_ldcnt : (buildTables s).ldcnt = s.ldcnt := rfl
@[simp] theorem buildTables_bitlen : (buildTables s).bitlen = s.bitlen := rfl
@[simp] theorem buildTables_tabcnt : (buildTables s).tabcnt = tabcntOf (builtCode s) := rfl
@[simp] theorem buildTables_qrom : (buildTables s).qrom = s.qrom := rfl
@[simp] theorem buildTables_zzrom : (buildTables s).zzrom = s.zzrom := rfl
@[simp] theorem buildTables_cbuf : (buildTables s).cbuf = s.cbuf := rfl
@[simp] theorem buildTables_freq : (buildTables s).freq = collect s := rfl
@[simp] theorem buildTables_code : (buildTables s).code = builtCode s := rfl
@[simp] theorem buildTables_bitbuf : (buildTables s).bitbuf = s.bitbuf := rfl
@[simp] theorem buildTables_sink0 : (buildTables s).sink0 = s.sink0 := rfl
@[simp] theorem buildTables_sink1 : (buildTables s).sink1 = s.sink1 := rfl
@[simp] theorem buildTables_cs : (buildTables s).cs = s.cs := rfl
@[simp] theorem buildTables_rst : (buildTables s).rst = s.rst := rfl
@[simp] theorem buildTables_answers : (buildTables s).answers = s.answers := rfl
@[simp] theorem buildTables_asked : (buildTables s).asked = s.asked := rfl
@[simp] theorem buildTables_cfg : (buildTables s).cfg = s.cfg := rfl

/-! ### `finishEmit` -/

@[simp] theorem finishEmit_phase (b : Bits) : (finishEmit b s).phase = .done := rfl
@[simp] theorem finishEmit_err (b : Bits) : (finishEmit b s).err = s.err := rfl
@[simp] theorem finishEmit_errinfo (b : Bits) : (finishEmit b s).errinfo = s.errinfo := rfl
@[simp] theorem finishEmit_tabw (b : Bits) : (finishEmit b s).tabw = s.tabw := rfl
@[simp] theorem finishEmit_datw (b : Bits) : (finishEmit b s).datw = s.datw := rfl
@[simp] theorem finishEmit_width (b : Bits) : (finishEmit b s).width = s.width := rfl
@[simp] theorem finishEmit_height (b : Bits) : (finishEmit b s).height = s.height := rfl
@[simp] theorem finishEmit_nblk (b : Bits) : (finishEmit b s).nblk = s.nblk := rfl
@[simp] theorem finishEmit_ldcnt (b : Bits) : (finishEmit b s).ldcnt = s.ldcnt := rfl
@[simp] theorem finishEmit_bitlen (b : Bits) : (finishEmit b s).bitlen = BitVec.ofNat 64 b.length := rfl
@[simp] theorem finishEmit_tabcnt (b : Bits) : (finishEmit b s).tabcnt = s.tabcnt := rfl
@[simp] theorem finishEmit_qrom (b : Bits) : (finishEmit b s).qrom = s.qrom := rfl
@[simp] theorem finishEmit_zzrom (b : Bits) : (finishEmit b s).zzrom = s.zzrom := rfl
@[simp] theorem finishEmit_cbuf (b : Bits) : (finishEmit b s).cbuf = s.cbuf := rfl
@[simp] theorem finishEmit_freq (b : Bits) : (finishEmit b s).freq = s.freq := rfl
@[simp] theorem finishEmit_code (b : Bits) : (finishEmit b s).code = s.code := rfl
@[simp] theorem finishEmit_bitbuf (b : Bits) : (finishEmit b s).bitbuf = b := rfl
@[simp] theorem finishEmit_sink0 (b : Bits) : (finishEmit b s).sink0 = s.sink0 := rfl
@[simp] theorem finishEmit_sink1 (b : Bits) : (finishEmit b s).sink1 = s.sink1 := rfl
@[simp] theorem finishEmit_cs (b : Bits) : (finishEmit b s).cs = s.cs := rfl
@[simp] theorem finishEmit_rst (b : Bits) : (finishEmit b s).rst = s.rst := rfl
@[simp] theorem finishEmit_answers (b : Bits) : (finishEmit b s).answers = s.answers := rfl
@[simp] theorem finishEmit_asked (b : Bits) : (finishEmit b s).asked = s.asked := rfl
@[simp] theorem finishEmit_cfg (b : Bits) : (finishEmit b s).cfg = s.cfg := rfl

end Sys2Proof.Machine
end

