-- ==== Sys2Proof/Laws/Ops.lean ====
section
/-! SUPPORT. What the shared operations and the commands can do, said once. -/

namespace Sys2Proof.Machine

variable {s t : State}

/-! ### The steps common to every command -/

theorem inPhase_of_fault {op : BitVec 8} {legal : List Phase} {body : State → Result} (h : s.phase = .fault) :
    inPhase op legal body s = .next s := by
  simp [inPhase, h]

theorem inPhase_of_legal {op : BitVec 8} {legal : List Phase} {body : State → Result} (hf : s.phase ≠ .fault)
    (h : s.phase ∈ legal) : inPhase op legal body s = body s := by
  simp [inPhase, hf, h]

theorem inPhase_of_illegal {op : BitVec 8} {legal : List Phase} {body : State → Result} (hf : s.phase ≠ .fault)
    (h : s.phase ∉ legal) :
    inPhase op legal body s = .next (raise .illegalSequence (sequenceInfo op s.phase) s) := by
  simp [inPhase, hf, h]

/-- All that `inPhase` can do. -/
theorem inPhase_cases {op : BitVec 8} {legal : List Phase} {body : State → Result}
    (h : inPhase op legal body s = .next t) :
    (s.phase = .fault ∧ t = s) ∨ (s.phase ≠ .fault ∧ s.phase ∈ legal ∧ body s = .next t) ∨
      (s.phase ≠ .fault ∧ s.phase ∉ legal ∧ t = raise .illegalSequence (sequenceInfo op s.phase) s) := by
  by_cases hf : s.phase = .fault
  · rw [inPhase_of_fault hf] at h
    cases h
    exact .inl ⟨hf, rfl⟩
  · by_cases hl : s.phase ∈ legal
    · rw [inPhase_of_legal hf hl] at h
      exact .inr (.inl ⟨hf, hl, h⟩)
    · rw [inPhase_of_illegal hf hl] at h
      cases h
      exact .inr (.inr ⟨hf, hl, rfl⟩)

/-! ### The commands -/

/-- What a command does when it neither is ignored nor raises. -/
def ownEffect (i : Instr) (s t : State) : Prop :=
  match i with
  | .nop => t = s
  | .init => t = resetCore s
  | .setw n => s.phase = .idle ∧ t = { s with width := n }
  | .seth n => s.phase = .idle ∧ t = { s with height := n }
  | .setn n => s.phase = .idle ∧ t = { s with nblk := n }
  | .begin => s.phase = .idle ∧ s.nblk.toNat ≤ s.cfg.maxN ∧ t = beginLoad s
  | .ldblk p =>
    p.length = 64 ∧ s.phase = .load ∧ s.ldcnt.toNat < unitTotal s ∧ firstOutOfRange (nextBlock p s) = none ∧
      t = storeUnit (nextBlock p s) s
  | .build => s.phase = .load ∧ s.ldcnt.toNat = unitTotal s ∧ t = buildTables s
  | .emit => s.phase = .tables ∧ ∃ b, emitBits s = .ok b ∧ t = finishEmit b s
  | .wrtab =>
    s.phase = .done ∧ sinkAnswer s 0 = true ∧ t = setTabw (replaceSink0 (tableFileBytes s) (answerUsed s))
  | .wrdat => s.phase = .done ∧ sinkAnswer s 1 = true ∧ t = setDatw (replaceSink1 (pack s.bitbuf) (answerUsed s))

/-- All that a command can do: it is ignored in `FAULT`, it raises, or it has its own effect. -/
theorem exec_cases {i : Instr} (h : exec i s = .next t) :
    (s.phase = .fault ∧ t = s) ∨
    (s.phase ≠ .fault ∧ ∃ k info, t = raise k info s ∨ t = raise k info (answerUsed s)) ∨ ownEffect i s t := by
  cases i with
  | nop => cases h; exact .inr (.inr rfl)
  | init => cases h; exact .inr (.inr rfl)
  | setw n =>
    simp only [exec, execSetw] at h
    obtain h | ⟨_, hl, h⟩ | ⟨hf, -, h⟩ := inPhase_cases h
    · exact .inl h
    · cases h; exact .inr (.inr ⟨by simpa using hl, rfl⟩)
    · exact .inr (.inl ⟨hf, _, _, .inl h⟩)
  | seth n =>
    simp only [exec, execSeth] at h
    obtain h | ⟨_, hl, h⟩ | ⟨hf, -, h⟩ := inPhase_cases h
    · exact .inl h
    · cases h; exact .inr (.inr ⟨by simpa using hl, rfl⟩)
    · exact .inr (.inl ⟨hf, _, _, .inl h⟩)
  | setn n =>
    simp only [exec, execSetn] at h
    obtain h | ⟨_, hl, h⟩ | ⟨hf, -, h⟩ := inPhase_cases h
    · exact .inl h
    · cases h; exact .inr (.inr ⟨by simpa using hl, rfl⟩)
    · exact .inr (.inl ⟨hf, _, _, .inl h⟩)
  | begin =>
    simp only [exec, execBegin] at h
    obtain h | ⟨hf, hl, h⟩ | ⟨hf, -, h⟩ := inPhase_cases h
    · exact .inl h
    · split at h <;> cases h
      · exact .inr (.inl ⟨hf, _, _, .inl rfl⟩)
      · exact .inr (.inr ⟨by simpa using hl, by omega, rfl⟩)
    · exact .inr (.inl ⟨hf, _, _, .inl h⟩)
  | ldblk p =>
    simp only [exec, execLdblk] at h
    split at h
    · next hp =>
      obtain h | ⟨hf, hl, h⟩ | ⟨hf, -, h⟩ := inPhase_cases h
      · exact .inl h
      · simp only [loadBlock] at h
        split at h
        · cases h; exact .inr (.inl ⟨hf, _, _, .inl rfl⟩)
        · split at h <;> cases h
          · exact .inr (.inl ⟨hf, _, _, .inl rfl⟩)
          · exact .inr (.inr ⟨hp, by simpa using hl, by omega, ‹_›, rfl⟩)
      · exact .inr (.inl ⟨hf, _, _, .inl h⟩)
    · cases h
  | build =>
    simp only [exec, execBuild] at h
    obtain h | ⟨hf, hl, h⟩ | ⟨hf, -, h⟩ := inPhase_cases h
    · exact .inl h
    · split at h <;> cases h
      · exact .inr (.inr ⟨by simpa using hl, ‹_›, rfl⟩)
      · exact .inr (.inl ⟨hf, _, _, .inl rfl⟩)
    · exact .inr (.inl ⟨hf, _, _, .inl h⟩)
  | emit =>
    simp only [exec, execEmit] at h
    obtain h | ⟨hf, hl, h⟩ | ⟨hf, -, h⟩ := inPhase_cases h
    · exact .inl h
    · split at h <;> cases h
      · exact .inr (.inl ⟨hf, _, _, .inl rfl⟩)
      · exact .inr (.inr ⟨by simpa using hl, _, ‹_›, rfl⟩)
    · exact .inr (.inl ⟨hf, _, _, .inl h⟩)
  | wrtab =>
    simp only [exec, execWrtab] at h
    obtain h | ⟨hf, hl, h⟩ | ⟨hf, -, h⟩ := inPhase_cases h
    · exact .inl h
    · simp only [writeTable] at h
      split at h <;> cases h
      · exact .inr (.inr ⟨by simpa using hl, ‹_›, rfl⟩)
      · exact .inr (.inl ⟨hf, _, _, .inr rfl⟩)
    · exact .inr (.inl ⟨hf, _, _, .inl h⟩)
  | wrdat =>
    simp only [exec, execWrdat] at h
    obtain h | ⟨hf, hl, h⟩ | ⟨hf, -, h⟩ := inPhase_cases h
    · exact .inl h
    · simp only [writeData] at h
      split at h <;> cases h
      · exact .inr (.inr ⟨by simpa using hl, ‹_›, rfl⟩)
      · exact .inr (.inl ⟨hf, _, _, .inr rfl⟩)
    · exact .inr (.inl ⟨hf, _, _, .inl h⟩)

/-! ### One step -/

/-- All that a step can do. -/
theorem step_cases (h : step s = .next t) :
    (s.rst = true ∧ t = takeReset s) ∨
    (s.rst = false ∧ decode s.cs = .waiting ∧ t = s) ∨
    (∃ w rest, s.rst = false ∧ decode s.cs = .illegal w rest ∧
      ((s.phase = .fault ∧ t = { s with cs := rest }) ∨
        (s.phase ≠ .fault ∧ t = raise .illegalCommand w { s with cs := rest }))) ∨
    ∃ i rest, s.rst = false ∧ decode s.cs = .command i rest ∧ exec i { s with cs := rest } = .next t := by
  unfold step at h
  split at h
  · cases h; exact .inl ⟨‹_›, rfl⟩
  · next hr =>
    have hr : s.rst = false := by simpa using hr
    split at h
    · cases h; exact .inr (.inl ⟨hr, ‹_›, rfl⟩)
    · refine .inr (.inr (.inl ⟨_, _, hr, ‹_›, ?_⟩))
      unfold illegalHeader at h
      split at h <;> cases h
      · exact .inl ⟨‹_›, rfl⟩
      · exact .inr ⟨‹_›, rfl⟩
    · exact .inr (.inr (.inr ⟨_, _, hr, ‹_›, h⟩))

end Sys2Proof.Machine
end

