-- ==== Sys2Proof/Laws/Invariant.lean ====
section
/-! SUPPORT. Steps that leave what the invariant speaks of alone. -/

namespace Sys2Proof.Machine

theorem unitTotal_lt (s : State) (h : s.Inv) : unitTotal s < 2 ^ 40 := by
  have := h.params
  simp [Params.wf] at this
  have hn := s.nblk.isLt
  have : s.nblk.toNat * s.cfg.nch ≤ s.nblk.toNat * 5 := Nat.mul_le_mul_left _ (by omega)
  unfold unitTotal
  omega

/-- A change outside the fields the invariant reads. -/
theorem inv_frame {s t : State} (h : s.Inv) (h1 : t.zzrom = s.zzrom) (h2 : t.cfg = s.cfg) (h3 : t.err =
    s.err) (h4 : t.errinfo = s.errinfo)
  (h5 : t.phase = s.phase) (h6 : t.ldcnt = s.ldcnt) (h7 : t.nblk = s.nblk) (h8 : t.cbuf = s.cbuf) (h9 :
      t.code = s.code) (h10 : t.tabcnt = s.tabcnt)
  (h11 : t.bitbuf = s.bitbuf) (h12 : t.bitlen = s.bitlen) (h13 : t.phase = .done ∨ (t.tabw = s.tabw ∧ t.datw =
      s.datw)) : t.Inv := by
  obtain ⟨a,b,c,d,e,f,g,i,j,k,l,m⟩ := h
  have hu : unitTotal t = unitTotal s := by simp [unitTotal, *]
  have hc : ∀ u, coefs t u = coefs s u := by simp [coefs, h8]
  have hk : ∀ u, unitClass t u = unitClass s u := by simp [unitClass, h2]
  have hcol : collect t = collect s := by simp [collect, hu, hc, hk]
  have hb : builtCode t = builtCode s := by simp [builtCode, hcol]
  have hub : ∀ u, unitBits t u = unitBits s u := by simp [unitBits, h9, hc, hk]
  have hus : ∀ us, unitsBits t us = unitsBits s us := by intro us; induction us <;> simp_all [unitsBits]
  have he : emitBits t = emitBits s := by simp [emitBits, hu, hus, headerBits, h7]
  constructor
  · rw [h1]; exact a
  · rw [h2]; exact b
  · rw [h3, h5]; exact c
  · rw [h3, h4]; exact d
  · rw [h6, hu]; exact e
  · rw [h8]; exact f
  · rw [h6, h8]; exact g
  · intro hp; rcases h13 with h13 | h13
    · rw [h13] at hp; cases hp
    · simpa [noResults, *] using i (by rw [← h5]; exact hp)
  · rw [h5, h7, h2]; exact j
  · intro hp; rcases h13 with h13 | h13
    · rw [h13] at hp; cases hp
    · simpa [noResults, *] using k (by rw [← h5]; exact hp)
  · intro hp; rcases h13 with h13 | h13
    · rw [h13] at hp; cases hp
    · simpa [tablesBuilt, *] using l (by rw [← h5]; exact hp)
  · intro hp
    simpa [tablesBuilt, *] using m (by rw [← h5]; exact hp)

/-- Fault entry keeps the invariant. -/
theorem inv_raise {s : State} (k info) (h : s.Inv) : (raise k info s).Inv := by
  obtain ⟨a,b,c,d,e,f,g,i,j,k',l,m⟩ := h
  constructor <;> simp_all [unitTotal]

/-- The reset state keeps it. -/
theorem inv_reset {s : State} (h : s.Inv) : (resetCore s).Inv := by
  constructor <;> simp [h.scan, h.params, CoefMem.wf, noResults]

end Sys2Proof.Machine
end

