-- ==== Sys2Proof/Laws/PerInstr.lean ====
section
/-! SUPPORT. Facts of each command as syntax, one lemma per constructor (LAWS.json, `per_instruction`). -/

namespace Sys2Proof.Laws

/-- The words of a well-formed command: a header whose `RSVD` is zero and whose opcode is the command's, and as many
payload words as that header announces (R91, R93, R97). -/
def EncodeShape.Statement (i : Instr) : Prop :=
  i.wellFormed = true →
    ∃ h ps, encode i = h :: ps ∧ rsvdField h = 0#24 ∧ opField h = i.opcode ∧ ps.length = payloadCount h

/-- One proof for every command. -/
theorem encodeShape_of (i : Instr) : EncodeShape.Statement i := fun hw =>
  ⟨headerWord i.opcode, i.payload, rfl, rsvdField_headerWord _, opField_headerWord _, payload_length hw⟩

theorem EncodeShape.nop : EncodeShape.Statement .nop := encodeShape_of _
theorem EncodeShape.init : EncodeShape.Statement .init := encodeShape_of _
theorem EncodeShape.setw (n : Word) : EncodeShape.Statement (.setw n) := encodeShape_of _
theorem EncodeShape.seth (n : Word) : EncodeShape.Statement (.seth n) := encodeShape_of _
theorem EncodeShape.setn (n : Word) : EncodeShape.Statement (.setn n) := encodeShape_of _
theorem EncodeShape.begin : EncodeShape.Statement .begin := encodeShape_of _
theorem EncodeShape.ldblk (p : List Word) : EncodeShape.Statement (.ldblk p) := encodeShape_of _
theorem EncodeShape.build : EncodeShape.Statement .build := encodeShape_of _
theorem EncodeShape.emit : EncodeShape.Statement .emit := encodeShape_of _
theorem EncodeShape.wrtab : EncodeShape.Statement .wrtab := encodeShape_of _
theorem EncodeShape.wrdat : EncodeShape.Statement .wrdat := encodeShape_of _

end Sys2Proof.Laws
end

