-- ==== Sys2Proof/Laws/Quantize.lean ====
section
/-! SUPPORT. Rounding, the range check and the reorder. -/

namespace Sys2Proof.Machine

/-- Which integer `quant` is: the nearest, the even one at a half. -/
theorem quant_eq_iff (n : Int) (d : Nat) (h1 : 1 ≤ d) (q : Int) : quant .halfEven n d = q ↔
   (2 * (n - q * (d * 65536)) ≤ d * 65536 ∧ -(d * 65536 : Int) ≤ 2 * (n - q * (d * 65536)) ∧
    (2 * (n - q * (d * 65536)) = d * 65536 → q % 2 = 0) ∧ (2 * (n - q * (d * 65536)) = -(d * 65536:Int) →
        q % 2 = 0)) := by
  have hD : (0:Int) < (d:Int) * 65536 := by omega
  constructor
  · rintro rfl
    have e1 := Int.emod_add_mul_ediv n ((d:Int) * 65536)
    have e2 := Int.emod_nonneg n (ne_of_gt hD)
    have e3 := Int.emod_lt_of_pos n hD
    simp only [quant, tieBreak]
    generalize n / ((d:Int)*65536) = fl at *
    generalize n % ((d:Int)*65536) = r at *
    have e4 : n - fl * (↑d * 65536) = r := by rw [← e1]; ring
    have e5 : n - (fl+1) * (↑d * 65536) = r - d * 65536 := by rw [← e1]; ring
    rw [e4]
    split
    · rw [e4]; omega
    · split
      · rw [e5]; omega
      · split
        · rw [e4]; omega
        · rw [e5]; omega
  · have key : ∀ q, (2 * (n - q * (d * 65536)) ≤ d * 65536 ∧ -(d * 65536 : Int) ≤ 2 * (n - q * (d * 65536)) ∧
    (2 * (n - q * (d * 65536)) = d * 65536 → q % 2 = 0) ∧ (2 * (n - q * (d * 65536)) = -(d * 65536:Int) →
        q % 2 = 0)) → quant .halfEven n d = q := by
      intro q ⟨a1, a2, a3, a4⟩
      have e1 := Int.emod_add_mul_ediv n ((d:Int) * 65536)
      have e2 := Int.emod_nonneg n (ne_of_gt hD)
      have e3 := Int.emod_lt_of_pos n hD
      simp only [quant, tieBreak]
      generalize n / ((d:Int)*65536) = fl at *
      generalize n % ((d:Int)*65536) = r at *
      generalize (d:Int) * 65536 = D at *
      have e4 : n - fl * D = r := by rw [← e1]; ring
      rw [e4]
      have e6 : n - q * D = r - (q - fl) * D := by rw [← e1]; ring
      rw [e6] at a1 a2 a3 a4
      have q1 : q - fl = 0 ∨ q - fl = 1 := by
        have : -1 < q - fl := by
          by_contra hh
          have : (q - fl) * D ≤ (-1) * D := by apply mul_le_mul_of_nonneg_right <;> omega
          have hr0 : r = 0 := by omega
          omega
        have : q - fl < 2 := by
          by_contra hh
          have : 2 * D ≤ (q - fl) * D := by apply mul_le_mul_of_nonneg_right <;> omega
          omega
        omega
      rcases q1 with q1 | q1 <;> rw [q1] at a1 a2 a3 a4
      · have : q = fl := by omega
        subst this
        split
        · rfl
        · split
          · omega
          · rw [if_pos]; omega
      · have : q = fl + 1 := by omega
        subst this
        split
        · omega
        · split
          · rfl
          · rw [if_neg]; omega
    exact key q

theorem nextBlock_length (s p) (h : p.length = 64) : (nextBlock p s).length = 64 := by
  simp [nextBlock, quantBlock, h]

/-- When no element is out of range. -/
theorem outOfRangeFrom_none (q : List Int) : ∀ i, outOfRangeFrom i q = none ↔ ∀ j < q.length,
    (q.getD j 0).natAbs ≤ coefLimit (i + j) := by
  induction q with
  | nil => simp [outOfRangeFrom]
  | cons v vs ih =>
    intro i
    simp only [outOfRangeFrom]
    split
    · next h => simp; exact ⟨0, by simpa using h⟩
    · next h =>
      rw [ih]
      constructor
      · intro H j hj
        cases j with
        | zero => simp; omega
        | succ j => have := H j (by simpa using hj); simpa [Nat.add_assoc, Nat.add_comm 1] using this
      · intro H j hj
        have := H (j+1) (by simpa using hj); simpa [Nat.add_assoc, Nat.add_comm 1] using this

/-- Which element is reported. -/
theorem outOfRangeFrom_some (q : List Int) : ∀ i k, k < q.length → (∀ j < k, (q.getD j 0).natAbs ≤ coefLimit (i + j)) →
    coefLimit (i + k) < (q.getD k 0).natAbs → outOfRangeFrom i q = some (i + k) := by
  induction q with
  | nil => simp
  | cons v vs ih =>
    intro i k hk H hlt
    simp only [outOfRangeFrom]
    cases k with
    | zero => simp at hlt; simp [hlt]
    | succ k =>
      have := H 0 (by omega)
      simp at this
      rw [if_neg (by omega), ih (i+1) k (by simpa using hk)]
      · congr 1; omega
      · intro j hj; have := H (j+1) (by omega); simpa [Nat.add_assoc, Nat.add_comm 1] using this
      · simpa [Nat.add_assoc, Nat.add_comm 1] using hlt

theorem toInt_ofInt12 (v : Int) (h : v.natAbs ≤ 2047) : (BitVec.ofInt 12 v).toInt = v := by
  rw [BitVec.toInt_ofInt, Int.bmod_eq_of_le (by omega) (by omega)]

theorem scan_head : zzromContent.toList = (0,0) :: zzromContent.toList.tail := by
  decide +kernel

theorem scan_tail : ∀ rc ∈ zzromContent.toList.tail, 8 * rc.1.toNat + rc.2.toNat ≠ 0 := by
  decide +kernel

theorem scan_lt (rc : BitVec 3 × BitVec 3) : 8 * rc.1.toNat + rc.2.toNat < 64 := by
  omega

theorem intsOfVec_vecOfInts (z : List Int) (hl : z.length = 64) (h : ∀ v ∈ z, v.natAbs ≤ 2047) : intsOfVec (vecOfInts z) =
    z := by
  apply List.ext_getElem
  · simp [intsOfVec, hl]
  · intro i h1 h2
    simp only [intsOfVec, vecOfInts, List.getElem_map, Vector.getElem_toList, Vector.getElem_ofFn,
        List.getD_eq_getElem?_getD, List.getElem?_eq_getElem h2, Option.getD_some]
    exact toInt_ofInt12 _ (h _ (by simp))

/-- A block that passes the range check is stored in range. -/
theorem zigzag_range (q : List Int) (hq : q.length = 64) (h : firstOutOfRange q = none) :
    vecInRange (intsOfVec (vecOfInts (zigzag zzromContent q))) := by
  have H := (outOfRangeFrom_none q 0).1 h
  have hz : ∀ v ∈ (zigzag zzromContent q).tail, v.natAbs ≤ 1023 := by
    unfold zigzag
    rw [scan_head, List.map_cons, List.tail_cons]
    intro v hv
    obtain ⟨rc, hrc, rfl⟩ := List.mem_map.1 hv
    have := H (8 * rc.1.toNat + rc.2.toNat) (by have := scan_lt rc; omega)
    rw [Nat.zero_add, coefLimit, if_neg (scan_tail rc hrc)] at this
    exact this
  have h0 : ((zigzag zzromContent q).headD 0).natAbs ≤ 2047 := by
    unfold zigzag
    rw [scan_head, List.map_cons, List.headD_cons]
    have := H 0 (by omega)
    simpa [coefLimit] using this
  have hl : (zigzag zzromContent q).length = 64 := by simp [zigzag]
  rw [intsOfVec_vecOfInts _ hl]
  · exact ⟨hl, h0, hz⟩
  · intro v hv
    cases e : zigzag zzromContent q with
    | nil => rw [e] at hv; simp at hv
    | cons a l =>
      rw [e] at hv hz h0
      rcases List.mem_cons.1 hv with rfl | hv
      · simpa using h0
      · have := hz v hv; omega

end Sys2Proof.Machine
end

