-- ==== Sys2Proof/Laws/RunLength.lean ====
section
/-! SUPPORT. Categories, and the run-length encoder as a recursion over the elements alone. -/

namespace Sys2Proof.Machine

theorem cat_pos (v : Int) (hv : v ≠ 0) : 1 ≤ cat v := by unfold cat bitlen; split <;> omega

theorem cat_bounds (v : Int) (hv : v ≠ 0) : 2^(cat v - 1) ≤ v.natAbs ∧ v.natAbs < 2^(cat v) :=
  (bitlen_eq_iff v.natAbs (cat v) (cat_pos v hv)).1 rfl

theorem cat_eq (v : Int) (k : Nat) (hk : 1 ≤ k) (h1 : 2^(k-1) ≤ v.natAbs) (h2 : v.natAbs < 2^k) : cat v = k :=
  (bitlen_eq_iff _ _ hk).2 ⟨h1,h2⟩

theorem cat_le (v : Int) (k : Nat) (h : v.natAbs < 2^k) : cat v ≤ k := by
  by_cases hv : v = 0
  · subst hv; exact Nat.zero_le _
  · have := cat_bounds v hv
    have hc := cat_pos v hv
    have : 2^(cat v - 1) < 2^k := by omega
    have := (Nat.pow_lt_pow_iff_right (by omega : 1 < 2)).1 this
    omega

theorem val_length (v : Int) : (val v).length = cat v := by
  unfold val; split
  · next h => subst h; rfl
  · split <;> rw [bin_length]

theorem val_pos (v : Int) (h : 0 < v) : val v = bin (cat v) v.natAbs := by
  unfold val; rw [if_neg (by omega), if_pos h]; congr 1; omega

/-! ### The encoder -/

theorem lastNonzeroFrom_none (i : Nat) (a : List Int) : lastNonzeroFrom i a = -1 ↔ ∀ v ∈ a, v = 0 := by
  induction a generalizing i with
  | nil => simp [lastNonzeroFrom]
  | cons x a ih =>
    simp only [lastNonzeroFrom]
    split
    · next h => simp; intro h'; omega
    · next h => rw [ih (i+1)] at *; simp; tauto

theorem lastNonzeroFrom_ge (i : Nat) (a : List Int) (h : lastNonzeroFrom i a ≠ -1) : (i : Int) ≤ lastNonzeroFrom i a := by
  induction a generalizing i with
  | nil => simp [lastNonzeroFrom] at h
  | cons x a ih =>
    simp only [lastNonzeroFrom] at *
    split
    · simp
    · next h2 => rw [if_neg h2] at h; have := ih (i+1) h; push_cast at this; omega

/-- `rle` without the index of the last nonzero element. -/
def rleByRun (run : Nat) : List Int → List RlePair
  | [] => [eob]
  | x :: xs => if x = 0 ∧ ∀ v ∈ xs, v = 0 then [eob]
     else if x = 0 ∧ run < 15 then rleByRun (run+1) xs else ⟨⟨run, cat x⟩, val x⟩ :: rleByRun 0 xs

theorem rleFrom_eq (a : List Int) : ∀ (i run : Nat) (last : Int), (last = lastNonzeroFrom i a ∨ (last < i ∧
    lastNonzeroFrom i a = -1)) → rleFrom last i run a = rleByRun run a := by
  induction a with
  | nil => intros; rfl
  | cons x xs ih =>
    intro i run last h
    simp only [rleFrom, rleByRun]
    have hn := lastNonzeroFrom_none (i+1) xs
    have hg := lastNonzeroFrom_ge (i+1) xs
    simp only [lastNonzeroFrom] at h
    by_cases hz : x = 0 ∧ ∀ v ∈ xs, v = 0
    · rw [if_pos hz, if_pos]
      rw [← hn] at hz
      rcases h with h | h
      · rw [if_neg (by tauto)] at h; omega
      · exact h.1
    · rw [if_neg hz]
      have hl : ¬ last < (i : Int) := by
        intro hlt
        apply hz
        rw [← hn]
        rcases h with h | h
        · split at h
          · omega
          · by_cases hq : lastNonzeroFrom (i+1) xs = -1
            · simp_all
            · have := hg hq; push_cast at this; omega
        · have := h.2; split at this
          · omega
          · simp_all
      rw [if_neg hl]
      have hnext : last = lastNonzeroFrom (i+1) xs ∨ (last < ((i+1 : Nat) : Int) ∧ lastNonzeroFrom (i+1) xs =
          -1) := by
        rcases h with h | h
        · split at h
          · right; push_cast; omega
          · left; exact h
        · have := h.1; exfalso; omega
      rw [ih (i+1) (run+1) last hnext, ih (i+1) 0 last hnext]

/-- The loop of R176 is that recursion. -/
theorem rle_eq (a : List Int) : rle a = rleByRun 0 a := rleFrom_eq a 0 0 _ (.inl rfl)

/-- All that the encoder can emit. -/
theorem rleByRun_shape (a : List Int) : ∀ run ≤ 15, ∃ ps, rleByRun run a = ps ++ [eob] ∧ ps.length ≤ a.length ∧
    ∀ p ∈ ps, p.sym.run ≤ 15 ∧ (p.sym.cat = 0 → p.sym.run = 15) ∧ p.value.length = p.sym.cat ∧ ∃ v ∈ a,
        p.sym.cat = cat v := by
  induction a with
  | nil => intro run _; exact ⟨[], by simp [rleByRun]⟩
  | cons x xs ih =>
    intro run hr
    simp only [rleByRun]
    split
    · exact ⟨[], by simp⟩
    · split
      · obtain ⟨ps, h1, h2, h3⟩ := ih (run+1) (by omega)
        refine ⟨ps, h1, by simp; omega, ?_⟩
        intro p hp; obtain ⟨a1,a2,a3,v,hv,a4⟩ := h3 p hp; exact ⟨a1,a2,a3,v,by simp [hv],a4⟩
      · next hnz =>
        obtain ⟨ps, h1, h2, h3⟩ := ih 0 (by omega)
        refine ⟨⟨⟨run, cat x⟩, val x⟩ :: ps, by simp [h1], by simp; omega, ?_⟩
        intro p hp
        rcases List.mem_cons.1 hp with rfl | hp
        · refine ⟨hr, ?_, val_length x, x, by simp, rfl⟩
          intro hc
          have : x = 0 := by by_contra hx; have := cat_pos x hx; simp at hc; omega
          simp only at *; omega
        · obtain ⟨a1,a2,a3,v,hv,a4⟩ := h3 p hp; exact ⟨a1,a2,a3,v,by simp [hv],a4⟩

/-! ### Keys -/

theorem keyByte_of_possible {x : Sym} (h : possibleSym x = true) : keyByte x < 256 ∧ symOfKey (keyByte x) = x := by
  obtain ⟨r, c⟩ := x
  simp [possibleSym] at h
  unfold keyByte symOfKey
  refine ⟨by simp only; omega, ?_⟩
  simp only [Sym.mk.injEq]; omega

end Sys2Proof.Machine
end

