-- ==== Sys2Proof/Laws/Tables.lean ====
section
/-! SUPPORT. What the counting operations do to each of the four tables. -/

namespace Sys2Proof.Machine

/-- Reading a table after one of the four was changed. -/
theorem get_modify {α} (x : Tables α) (t t' : TableId) (f : α → α) : (x.modify t f).get t' = if t' =
    t then f (x.get t) else x.get t' := by
  cases t <;> cases t' <;> rfl

theorem dcTable_inj (k k') : dcTable k = dcTable k' ↔ k = k' := by cases k <;> cases k' <;> simp [dcTable]

theorem acTable_inj (k k') : acTable k = acTable k' ↔ k = k' := by cases k <;> cases k' <;> simp [acTable]

theorem dcTable_ne_acTable (k k') : dcTable k ≠ acTable k' := by cases k <;> cases k' <;> simp [dcTable, acTable]

theorem bump_length (t t' x) (f : Tables (List Nat)) : ((bump t x f).get t').length = (f.get t').length := by
  unfold bump; rw [get_modify]; split <;> simp_all

/-- A count after one key was counted. -/
theorem bump_get (t t' x y) (f : Tables (List Nat)) (hy : y < (f.get t').length) :
    ((bump t x f).get t').getD y 0 = (f.get t').getD y 0 + if t' = t ∧ x = y then 1 else 0 := by
  unfold bump; rw [get_modify]
  split
  · next h =>
    subst h
    rw [List.getD_eq_getElem?_getD, List.getElem?_modify, List.getD_eq_getElem?_getD,
        List.getElem?_eq_getElem hy]
    by_cases hxy : x = y <;> simp [hxy]
  · next h => simp [h]

/-- Every frequency table has its size (R41). -/
def fullTables (f : Tables (List Nat)) : Prop := ∀ t, (f.get t).length = tableSize t

/-- Counts after the AC pairs of a unit. -/
theorem foldl_bump (t : TableId) (ps : List RlePair) : ∀ f : Tables (List Nat), fullTables f →
    fullTables (ps.foldl (fun f p => bump t (keyByte p.sym) f) f) ∧ ∀ t' y, y < tableSize t' →
    ((ps.foldl (fun f p => bump t (keyByte p.sym) f) f).get t').getD y 0 = (f.get t').getD y 0 + if t' =
    t then (ps.filter fun p => decide (keyByte p.sym = y)).length else 0 := by
  induction ps with
  | nil => intro f hf; exact ⟨hf, by simp⟩
  | cons p ps ih =>
    intro f hf
    simp only [List.foldl_cons]
    obtain ⟨h1, h2⟩ := ih (bump t (keyByte p.sym) f) (fun t' => by rw [bump_length]; exact hf t')
    refine ⟨h1, ?_⟩
    intro t' y hy
    rw [h2 t' y hy, bump_get _ _ _ _ _ (by rw [hf]; exact hy)]
    simp only [List.filter_cons]
    by_cases h : t' = t <;> by_cases h' : keyByte p.sym = y <;> simp [h, h'] <;> omega

/-- All that counting one unit does: the tables keep their sizes, one DC key and the AC keys of its pairs are counted. -/
theorem countVec_spec (k z f) (hf : fullTables f) : fullTables (countVec k z f) ∧ (∀ k' x, x < 12 →
    ((countVec k z f).get (dcTable k')).getD x 0 = (f.get (dcTable k')).getD x 0 + if k = k' ∧
    cat (z.headD 0) = x then 1 else 0) ∧
    (∀ k' x, x < 256 → ((countVec k z f).get (acTable k')).getD x 0 = (f.get (acTable k')).getD x 0 + if k =
        k' then ((rle z.tail).filter fun p => decide (keyByte p.sym = x)).length else 0) := by
  unfold countVec acPairs
  have hb : fullTables (bump (dcTable k) (cat (z.headD 0)) f) := fun t => by rw [bump_length]; exact hf t
  obtain ⟨h1, h2⟩ := foldl_bump (acTable k) (rle z.tail) _ hb
  have s1 : ∀ k, tableSize (dcTable k) = 12 := by intro k; cases k <;> rfl
  have s2 : ∀ k, tableSize (acTable k) = 256 := by intro k; cases k <;> rfl
  refine ⟨h1, ?_, ?_⟩
  · intro k' x hx
    rw [h2 _ _ (by rw [s1]; exact hx), bump_get _ _ _ _ _ (by rw [hf, s1]; exact hx), if_neg (dcTable_ne_acTable _ _)]
    by_cases h : k = k' <;> simp [dcTable_inj, h, eq_comm]
  · intro k' x hx
    rw [h2 _ _ (by rw [s2]; exact hx), bump_get _ _ _ _ _ (by rw [hf, s2]; exact hx),
        if_neg (fun h => (dcTable_ne_acTable _ _ h.1.symm))]
    by_cases h : k = k' <;> simp [acTable_inj, h, eq_comm]

theorem zeroFreq_full : fullTables zeroFreq := by intro t; cases t <;> simp [zeroFreq, Tables.of, Tables.get]

theorem zeroFreq_getD (t x) : (zeroFreq.get t).getD x 0 = 0 := by cases t <;> simp [zeroFreq, Tables.of, Tables.get,
    List.getElem?_replicate] <;> split <;> rfl

end Sys2Proof.Machine
end

