-- ==== Sys2Proof/Laws/Text.lean ====
section
/-! SUPPORT. Decimal numbers and lines. -/

namespace Sys2Proof.Machine

theorem decDigits_acc (fuel u : Nat) (acc : List Byte) : decDigits fuel u acc = decDigits fuel u [] ++ acc := by
  induction fuel generalizing u acc with
  | zero => rfl
  | succ f ih =>
    simp only [decDigits]
    split
    · rfl
    · rw [ih, ih _ [digitByte (u % 10)]]; simp

/-- One character read by `readDec`. -/
def decStep (acc : Option Nat) (c : Byte) : Option Nat := acc.bind fun a => if 0x30 ≤ c.toNat ∧
    c.toNat ≤ 0x39 then some (a * 10 + (c.toNat - 0x30)) else none

theorem toNat_digitByte (d : Nat) (h : d < 10) : (digitByte d).toNat = 0x30 + d := by
  unfold digitByte
  rw [BitVec.toNat_ofNat, Nat.mod_eq_of_lt]
  omega

theorem decStep_digit (a d : Nat) (h : d < 10) : decStep (some a) (digitByte d) = some (a * 10 + d) := by
  unfold decStep; simp only [Option.bind_some, toNat_digitByte d h]; rw [if_pos (by omega)]; congr 2; omega

/-- All about the digits of a number. -/
theorem dec_spec (fuel : Nat) : ∀ u < fuel, (decDigits fuel u []).foldl decStep (some 0) = some u ∧
    decDigits fuel u [] ≠ [] ∧ ∀ b ∈ decDigits fuel u [], 0x30 ≤ b.toNat ∧ b.toNat ≤ 0x39 := by
  induction fuel with
  | zero => intro u h; omega
  | succ f ih =>
    intro u hu
    simp only [decDigits]
    split
    · next h => simp [decStep_digit _ _ h, toNat_digitByte u h]; omega
    · next h =>
      obtain ⟨h1, h2, h3⟩ := ih (u / 10) (by omega)
      rw [decDigits_acc]
      refine ⟨?_, by simp, ?_⟩
      · rw [List.foldl_append, h1, List.foldl_cons, List.foldl_nil, decStep_digit _ _ (by omega)]; congr 1;
            omega
      · intro b hb
        rcases List.mem_append.1 hb with hb | hb
        · exact h3 b hb
        · simp at hb; subst hb; rw [toNat_digitByte _ (by omega)]; omega

theorem readDec_dec (u : Nat) : readDec (dec u) = some u := by
  obtain ⟨h1, h2, _⟩ := dec_spec (u+1) u (by omega)
  unfold readDec dec
  rw [if_neg h2]; exact h1

theorem splitLines_line {l : List Byte} (h : lf ∉ l) (rest : List Byte) : splitLines (l ++ [lf] ++ rest) =
    (l :: (splitLines rest).1, (splitLines rest).2) := by
  induction l with
  | nil =>
    simp only [List.nil_append, List.cons_append, splitLines]
    rcases hs : splitLines rest with ⟨ls, last⟩
    cases ls <;> simp
  | cons c l ih =>
    have := ih (by simp at h; tauto)
    simp only [List.cons_append, splitLines] at *
    rw [this]
    have hc : c ≠ lf := by simp at h; tauto
    simp [hc]

end Sys2Proof.Machine
end

