-- ==== Sys2Proof/Tests/Slice0.lean ====
section
/-! SUPPORT. Tests. Every expected value is taken from the spec: the worked examples of the rules and the vectors of
spec/95_test_vectors.md, named beside each test. The witnesses show states and operands that meet the hypotheses of the
statements. -/

set_option Elab.async false

namespace Sys2Proof.Tests

open Sys2Proof.Machine

/-! ### Helpers -/

/-- The state a meaning or a step answers, if it answers one. -/
def after : Result → Option State
  | .next s => some s
  | _ => none

/-- Configuration TCFG-1 (spec/95_test_vectors.md): every divisor is 1. -/
def onesRom : QRom where
  luma := Vector.replicate 64 (divisorOf 0)
  chroma := Vector.replicate 64 (divisorOf 0)

/-- The reset state with TCFG-1, `nch` channels, capacity 2, in phase `p`, with `NBLK = n`. -/
def stateIn (p : Phase) (n : Word) (nch : Nat := 1) : State :=
  { State.reset with phase := p, nblk := n, qrom := onesRom, cfg := { nch := nch, maxN := 2, tie := .halfEven } }

/-- `LDBLK [i: x, ...]`: the payload with the words listed, every other word 0. -/
def block (l : List (Nat × Word)) : List Word := (List.range 64).map fun i => (l.lookup i).getD 0#32

/-- A coefficient vector with the elements listed, every other element 0. -/
def vec (l : List (Nat × Int)) : CoefVec := vecOfInts ((List.range 64).map fun i => (l.lookup i).getD 0)

/-- A sequence of 63 AC elements with the elements listed, every other element 0. -/
def ac (l : List (Nat × Int)) : List Int := (List.range 63).map fun i => (l.lookup i).getD 0

/-- Program P10 after its `LDBLK`: one unit, `z[0] = 5`, `z[10] = -3`. -/
def loaded : State := { stateIn .load 1 with ldcnt := 1#64, cbuf := [(0, vec [(0, 5), (10, -3)])] }

/-- P10 after `BUILD`. -/
def built : State := buildTables loaded

/-- P10's bit sequence: the header, then `"01011000"`. -/
def p10Bits : Bits := List.replicate 31 false ++ [true] ++ [false, true, false, true, true, false, false, false]

/-- P10 after `EMIT`, the host having prepared the answers `a`. -/
def emitted (a : List Bool) : State := { finishEmit p10Bits built with answers := a }

/-- Two channels, P10's vector in both units, phase `TABLES`: the DC keys `dc` and the AC keys `ac` have the code `"0"`. -/
def coded (dc ac : List Nat) : State :=
  { stateIn .tables 1 2 with
    cbuf := [(0, vec [(0, 5), (10, -3)]), (1, vec [(0, 5), (10, -3)])]
    code := Tables.of fun t => (List.range (tableSize t)).map fun x =>
      if x ∈ (if isDcTable t then dc else ac) then some [false] else none }

/-! ### WellFormed -/

theorem test_illFormed_short : (Instr.ldblk (List.replicate 63 0#32)).wellFormed = false := by decide
theorem test_illFormed_long : (Instr.ldblk (List.replicate 65 0#32)).wellFormed = false := by decide
theorem test_illFormed_empty : (Instr.ldblk []).wellFormed = false := by decide
theorem test_wellFormed_block : (Instr.ldblk (List.replicate 64 0#32)).wellFormed = true := by decide
theorem test_illFormed_stops : after (exec (.ldblk []) (stateIn .load 1)) = none := by decide

/-! ### Decoding: words written out from R91, R92, R94, R95 -/

theorem test_decode_nop : decode [0b00000000000000000000000000000000#32] = .command .nop [] := by decide
theorem test_decode_init : decode [0b00000001000000000000000000000000#32] = .command .init [] := by decide
theorem test_decode_setw : decode [0b00000010000000000000000000000000#32, 640#32, 7#32] =
    .command (.setw 640#32) [7#32] := by decide
theorem test_decode_seth : decode [0b00000011000000000000000000000000#32, 480#32] = .command (.seth 480#32) [] := by
  decide
theorem test_decode_setn : decode [0b00000100000000000000000000000000#32, 4800#32] = .command (.setn 4800#32) [] := by
  decide
theorem test_decode_begin : decode [0b00000101000000000000000000000000#32] = .command .begin [] := by decide
theorem test_decode_ldblk : decode (0b00010000000000000000000000000000#32 :: block [(0, 5#32), (63, 9#32)] ++ [1#32]) =
    .command (.ldblk (block [(0, 5#32), (63, 9#32)])) [1#32] := by decide +kernel
theorem test_decode_build : decode [0b00100000000000000000000000000000#32] = .command .build [] := by decide
theorem test_decode_emit : decode [0b00110000000000000000000000000000#32] = .command .emit [] := by decide
theorem test_decode_wrtab : decode [0b01000000000000000000000000000000#32] = .command .wrtab [] := by decide
theorem test_decode_wrdat : decode [0b01000001000000000000000000000000#32] = .command .wrdat [] := by decide

/-- B9: reserved opcodes and a nonzero `RSVD`. -/
theorem test_decode_illegal :
    decode [0x06000000#32] = .illegal 0x06000000#32 [] ∧ decode [0xFF000000#32] = .illegal 0xFF000000#32 [] ∧
    decode [0x00000001#32] = .illegal 0x00000001#32 [] ∧
    decode [0x02000001#32, 9#32] = .illegal 0x02000001#32 [] := by decide

/-- B9: `0x10000001` takes its 64 payload words with it. -/
theorem test_decode_illegal_block :
    decode (0x10000001#32 :: block [] ++ [3#32]) = .illegal 0x10000001#32 [3#32] := by decide +kernel

/-- R78: a header without its payload is no command yet. -/
theorem test_decode_waiting : decode [0x02000000#32] = .waiting ∧ decode (0x10000000#32 :: List.replicate 63 0#32) =
    .waiting := by decide

theorem test_decodeTableWord : decodeTableWord 64 (0x02000000 + 2 ^ 32 * 640) = some (.setw 640#32) ∧
    decodeTableWord 32 0x41000000 = some .wrdat := by decide +kernel

theorem test_withFetchWord : (after (step (State.reset.withFetchWord 64 (0x02000000 + 2 ^ 32 * 640)))).map State.width =
    some 640#32 := by decide +kernel

/-! ### Control commands: the examples of R133 to R138 -/

theorem test_nop : (after (exec .nop { stateIn .load 9 with ldcnt := 5#64 })).map (fun s => (s.phase, s.ldcnt)) =
    some (.load, 5#64) := by decide
theorem test_init_from_fault : (after (exec .init (raise .pathNotFound 1#32 (stateIn .done 3)))).map
    (fun s => (readSR s 1#8, s.nblk)) = some (0#32, 0#32) := by decide
theorem test_setw : (after (exec (.setw 640#32) (stateIn .idle 0))).map (fun s => readSR s 3#8) = some 0x280#32 := by
  decide
theorem test_setw_in_load : (after (exec (.setw 8#32) (stateIn .load 1))).map
    (fun s => (readSR s 1#8, readSR s 2#8, s.width)) = some (0x57#32, 0x02000001#32, 0#32) := by decide
theorem test_seth : (after (exec (.seth 480#32) (stateIn .idle 0))).map (fun s => readSR s 4#8) = some 0x1E0#32 := by
  decide
theorem test_setn : (after (exec (.setn 4800#32) (stateIn .idle 0))).map (fun s => readSR s 5#8) = some 0x12C0#32 := by
  decide
theorem test_begin : (after (exec .begin { stateIn .idle 2 with tabw := true })).map
    (fun s => (readSR s 1#8, readSR s 6#8)) = some (1#32, 0#32) := by decide
theorem test_begin_capacity : (after (exec .begin (stateIn .idle 3))).map (fun s => (readSR s 1#8, readSR s 2#8)) =
    some (0x67#32, 3#32) := by decide

/-! ### LDBLK: B1, B2, B3 -/

theorem test_quant_ties : [(0x8000, 1), (0x18000, 1), (0x28000, 1), (-0x8000, 1), (-0x18000, 1), (0x680000, 16),
    (0x780000, 16), (0x7FFFFFFF, 255), (-0x80000000, 255)].map (fun e : Int × Nat => quant .halfEven e.1 e.2) =
    [0, 2, 2, 0, -2, 6, 8, 129, -129] := by decide
theorem test_ldblk : (after (exec (.ldblk (block [(0, 0x00050000#32), (1, 0xFFFD0000#32), (8, 0x00020000#32),
    (18, 0x00010000#32)])) (stateIn .load 1))).map (fun s => (s.ldcnt, s.cbuf)) =
    some (1#64, [(0, vec [(0, 5), (1, -3), (2, 2), (12, 1)])]) := by decide +kernel
theorem test_ldblk_range : (after (exec (.ldblk (block [(0, 0xF8010000#32), (28, 0x04000000#32), (45, 0x07D00000#32)]))
    (stateIn .load 1))).map (fun s => (readSR s 1#8, readSR s 2#8, s.ldcnt)) = some (0x37#32, 0x1C#32, 0#64) := by
  decide +kernel

/-! ### Run lengths: B4, B5 -/

theorem test_val : [0, 1, -1, 5, -5, -512].map val = [[], [true], [false], [true, false, true], [false, true, false],
    [false, true, true, true, true, true, true, true, true, true]] := by decide
theorem test_rle_zrl : rle (ac [(16, 7)]) =
    [{ sym := { run := 15, cat := 0 }, value := [] }, { sym := { run := 0, cat := 3 }, value := [true, true, true] },
      eob] := by decide +kernel
theorem test_rle_last : rle (ac [(62, 1)]) =
    List.replicate 3 { sym := { run := 15, cat := 0 }, value := [] } ++
      [{ sym := { run := 14, cat := 1 }, value := [true] }, eob] := by decide +kernel

/-! ### BUILD: B6, P10 -/

theorem test_codes_tie : codesOf [1, 1, 2] = [some [true, false], some [true, true], some [false]] := by decide +kernel
theorem test_codes_single : codesOf [0, 9, 0] = [none, some [false], none] := by decide +kernel
theorem test_build : (after (exec .build loaded)).map (fun s => (s.tabcnt, [s.code.dcY.getD 3 none, s.code.acY.getD 0 none,
    s.code.acY.getD 146 none])) = some (0x00000201#32, [some [false], some [false], some [true]]) := by decide +kernel
theorem test_build_early : (after (exec .build (stateIn .load 1))).map (fun s => (readSR s 1#8, readSR s 2#8)) =
    some (0x57#32, 0x20000001#32) := by decide

/-! ### EMIT: P10, B7 -/

theorem test_emit : (after (exec .emit built)).map (fun s => (s.phase, s.bitbuf, s.bitlen)) =
    some (.done, p10Bits, 40#64) := by decide +kernel
theorem test_emit_in_idle : (after (exec .emit (stateIn .idle 0))).map (fun s => (readSR s 1#8, readSR s 2#8)) =
    some (0x57#32, 0x30000000#32) := by decide
theorem test_pack : pack [true, false, true, true, false, false, true, true, true] = [0xB3#8, 0x80#8] := by decide

/-! ### WRTAB and WRDAT: P10, B8 -/

theorem test_wrtab_b8 :
    let z : List (Option Bits) := [some [false]]
    tableFile 8#32 8#32 { dcY := z, acY := z, dcC := z, acC := z } =
      [0x38#8, 0x2C#8, 0x38#8, 0x0A#8, 0x31#8, 0x0A#8, 0x30#8, 0x0A#8, 0x30#8, 0x0A#8, 0x31#8, 0x0A#8, 0x30#8, 0x2C#8,
        0x30#8, 0x0A#8, 0x30#8, 0x0A#8, 0x31#8, 0x0A#8, 0x30#8, 0x0A#8, 0x30#8, 0x0A#8, 0x31#8, 0x0A#8, 0x30#8, 0x2C#8,
        0x30#8, 0x0A#8, 0x30#8, 0x0A#8] := by decide +kernel
theorem test_wrtab_absent : (after (exec .wrtab (emitted [false]))).map (fun s => (readSR s 1#8, readSR s 2#8, s.sink0)) =
    some (0x17#32, 0#32, []) := by decide +kernel
theorem test_wrdat : (after (exec .wrdat (emitted [true]))).map (fun s => (readSR s 1#8, s.sink1)) =
    some (0x203#32, [0x00#8, 0x00#8, 0x00#8, 0x01#8, 0x58#8]) := by decide +kernel

/-! ### Assembler and readers -/

theorem test_asm : asmCoef (-3) = some 0xFFFD0000#32 ∧ asmCoef (297 / 2) = some 0x00948000#32 ∧ asmCoef (1 / 3) = none ∧
    asmWord 4294967296 = none := by decide +kernel
theorem test_asm_text : assembleText ['S', 'E', 'T', 'W', ' ', '0', 'x', '2', '8', '0', ' ', ';', 'w', '\n', 'B', 'E',
    'G', 'I', 'N'] = some [0x02000000#32, 0x280#32, 0x05000000#32] := by decide +kernel
theorem test_read_p10 : readDataFile (builtCode loaded) 1 [0x00#8, 0x00#8, 0x00#8, 0x01#8, 0x58#8] =
    some (1, [(List.range 64).map fun i => if i = 0 then 5 else if i = 10 then -3 else 0]) := by decide +kernel

/-! ### Witnesses: encoding and the step -/

/-- A stream that holds the words `ws`, in phase `p`, one unit to load. -/
def streamIn (p : Phase) (ws : List Word) : State := { stateIn p 1 with cs := ws }

theorem witness_DecodeOfEncode : (Instr.ldblk (block [(63, 5#32)])).wellFormed = true := by decide +kernel
theorem witness_EncodeOfDecode : decode [0x04000000#32, 7#32, 9#32] = .command (.setn 7#32) [9#32] := by decide
theorem witness_HeaderHasOneMeaning :
    (0x04000000#32).toNat / 2 ^ 24 ∈ [2, 3, 4] ∧ (0x10000001#32).toNat / 2 ^ 24 = 16 ∧
    (0x41000000#32).toNat / 2 ^ 24 ∉ [2, 3, 4, 16] ∧ payloadCount 0x10000001#32 ≤ (List.replicate 64 0#32).length := by decide
theorem witness_IncompleteCommandWaits :
    (streamIn .load (0x10000000#32 :: List.replicate 63 0#32)).rst = false ∧
    decode (streamIn .load (0x10000000#32 :: List.replicate 63 0#32)).cs = .waiting := by decide
theorem witness_StepRunsDecodedCommand_command :
    (streamIn .idle [0x02000000#32, 8#32, 0#32]).rst = false ∧
    decode (streamIn .idle [0x02000000#32, 8#32, 0#32]).cs = .command (.setw 8#32) [0#32] ∧
    (Instr.setw 8#32).wellFormed = true ∧
    (streamIn .idle [0x02000000#32, 8#32, 0#32]).cs = encode (.setw 8#32) ++ [0#32] := by decide
theorem witness_StepRunsDecodedCommand_reset : (hostAct .assertReset (stateIn .done 1)).rst = true := by decide
theorem witness_EveryCommandCompletes : Instr.build.wellFormed = true := by decide

/-! ### Witnesses: faults -/

theorem witness_IllegalCommandTaken :
    (streamIn .done [0x06000000#32, 1#32]).rst = false ∧ (streamIn .done [0x06000000#32, 1#32]).phase ≠ .fault ∧
    decode (streamIn .done [0x06000000#32, 1#32]).cs = .illegal 0x06000000#32 [1#32] := by decide
theorem witness_FaultPhaseIgnores :
    (streamIn .fault [0x05000000#32]).rst = false ∧ (streamIn .fault [0x05000000#32]).phase = .fault ∧
    Instr.begin ≠ .init ∧ decode (streamIn .fault [0x05000000#32]).cs = .command .begin [] ∧
    decode (streamIn .fault [0x01000001#32]).cs = .illegal 0x01000001#32 [] := by decide
theorem witness_OutOfPhaseRaises :
    Instr.emit.wellFormed = true ∧ (stateIn .done 1).phase ≠ .fault ∧ legalIn .emit (stateIn .done 1).phase = false := by
  decide
theorem witness_UnitCountGuards_block :
    loaded.phase = .load ∧ (block []).length = 64 ∧ unitTotal loaded ≤ loaded.ldcnt.toNat := by decide
theorem witness_UnitCountGuards_build :
    (stateIn .load 1).phase = .load ∧ (stateIn .load 1).ldcnt.toNat ≠ unitTotal (stateIn .load 1) := by decide
theorem witness_FaultKeepsRegistersUntilInit_entry : ∃ t, step (streamIn .idle [0x30000000#32]) = .next t ∧
    (streamIn .idle [0x30000000#32]).phase ≠ .fault ∧ t.phase = .fault :=
  ⟨_, rfl, by decide, by decide⟩
theorem witness_FaultKeepsRegistersUntilInit_exit : ∃ t, step (streamIn .fault [0x01000000#32]) = .next t ∧
    (streamIn .fault [0x01000000#32]).phase = .fault ∧ t.phase ≠ .fault :=
  ⟨_, rfl, by decide, by decide⟩

/-! ### Witnesses: control commands and LDBLK -/

theorem witness_SetCommandsStorePayload : (stateIn .idle 0).phase = .idle ∧ (stateIn .done 1).phase ≠ .idle ∧
    (stateIn .done 1).phase ≠ .fault := by decide
theorem witness_BeginEntersLoadWithinCapacity_within :
    (stateIn .idle 2).phase = .idle ∧ (stateIn .idle 2).nblk.toNat ≤ (stateIn .idle 2).cfg.maxN := by decide
theorem witness_BeginEntersLoadWithinCapacity_above :
    (stateIn .idle 3).phase = .idle ∧ (stateIn .idle 3).cfg.maxN < (stateIn .idle 3).nblk.toNat := by decide
theorem witness_QuantIsNearestTiesToEven :
    1 ≤ 255 ∧ 255 ≤ 255 ∧ 2 * ((8355840 : Int) - quant .halfEven 8355840 255 * (255 * 65536)).natAbs = 255 * 65536 := by
  decide
theorem witness_QuantArithmeticLaws :
    (-2147483648 : Int) ≤ -2147483648 ∧ (-2147483648 : Int) ≤ 2147483647 ∧ (-2147483648 : Int) ≤ 2147483647 := by decide
theorem witness_BlockUsesClassMatrix : (block [(0, 1#32)]).length = 64 := by decide
theorem witness_LdblkStoresUnit :
    (stateIn .load 1).phase = .load ∧ (block [(0, 0x07FF0000#32), (63, 0xFC010000#32)]).length = 64 ∧
    (stateIn .load 1).ldcnt.toNat < unitTotal (stateIn .load 1) ∧
    ∀ i < 64, ((nextBlock (block [(0, 0x07FF0000#32), (63, 0xFC010000#32)]) (stateIn .load 1)).getD i 0).natAbs ≤
      if i = 0 then 2047 else 1023 := by decide +kernel
theorem witness_LdblkRefusesOutOfRange_first :
    (stateIn .load 1).phase = .load ∧ (block [(0, 0xF8000000#32)]).length = 64 ∧
    (stateIn .load 1).ldcnt.toNat < unitTotal (stateIn .load 1) ∧
    (∀ j < 0, ((nextBlock (block [(0, 0xF8000000#32)]) (stateIn .load 1)).getD j 0).natAbs ≤
      if j = 0 then 2047 else 1023) ∧
    (if 0 = 0 then 2047 else 1023) < ((nextBlock (block [(0, 0xF8000000#32)]) (stateIn .load 1)).getD 0 0).natAbs := by
  decide +kernel
theorem witness_LdblkRefusesOutOfRange_last :
    (stateIn .load 1).phase = .load ∧ (block [(63, 0x04000000#32)]).length = 64 ∧
    (stateIn .load 1).ldcnt.toNat < unitTotal (stateIn .load 1) ∧ 63 < 64 ∧
    (∀ j < 63, ((nextBlock (block [(63, 0x04000000#32)]) (stateIn .load 1)).getD j 0).natAbs ≤
      if j = 0 then 2047 else 1023) ∧
    (if 63 = 0 then 2047 else 1023) < ((nextBlock (block [(63, 0x04000000#32)]) (stateIn .load 1)).getD 63 0).natAbs := by
  decide +kernel
theorem witness_ZigzagIsBijection : (List.replicate 64 (1 : Int)).length = 64 ∧
    zzromContent[(63 : Fin 64)] = (7#3, 7#3) ∧
    zigzag zzromContent (List.replicate 64 1) = zigzag zzromContent (List.replicate 64 1) := by decide

/-! ### Witnesses: run lengths and BUILD -/

theorem witness_CategoryIsMagnitudeWidth : 1 ≤ 11 ∧ cat 2047 = 11 ∧ 2 ^ (11 - 1) ≤ (1024 : Int).natAbs := by decide
theorem witness_ValueBitsAreBijective : 0 < (1 : Int) ∧ [false, false] ≠ ([] : Bits) := by decide
theorem witness_rle : (ac [(0, 1023), (62, -1023)]).length = 63 ∧ ∀ v ∈ ac [(0, 1023), (62, -1023)], v.natAbs ≤ 1023 := by
  decide
theorem witness_RleSplitsRunsAtSixteen : 62 ≤ 62 ∧ (-1 : Int) ≠ 0 ∧
    { sym := { run := 15, cat := 1 }, value := [true] } ∈ rle (ac [(15, 1)]) := by decide +kernel
theorem witness_CountersCountOccurrences : 11 < 12 ∧ 255 < 256 ∧
    (collect (coded [] [])).map (fun f => (f.getD 3 0, f.getD 146 0)) = ⟨(1, 0), (0, 1), (1, 0), (0, 1)⟩ := by
  decide +kernel
theorem witness_BuildMakesTables_load : loaded.phase = .load ∧ loaded.ldcnt.toNat = unitTotal loaded := by decide
theorem witness_BuildMakesTables_count :
    ∀ t, countValid ((Tables.of fun _ => List.replicate 255 (some [true])).get t) ≤ 255 := by
  intro t; cases t <;> decide +kernel
theorem witness_CodesExactlyObservedKeys :
    1 < [2, 1, 0].length ∧ (codesOf [2, 1, 0])[1]? = some (some [false]) ∧ 2 ≤ (observed [2, 1, 0]).length ∧
    1 < [0, 9].length ∧ (codesOf [0, 9])[1]? = some (some [false]) ∧ (observed [0, 9]).length = 1 := by decide +kernel
theorem witness_CodesExactlyObservedKeys_two :
    1 < 3 ∧ 3 < [0, 2, 0, 2].length ∧ 0 < [0, 2, 0, 2].getD 1 0 ∧ 0 < [0, 2, 0, 2].getD 3 0 ∧
    (∀ z, z ≠ 1 → z ≠ 3 → [0, 2, 0, 2].getD z 0 = 0) ∧
    validEntries (codesOf [0, 2, 0, 2]) = [(1, [false]), (3, [true])] ∧
    validEntries (codesOf [0, 3, 0, 2]) = [(1, [true]), (3, [false])] := by
  refine ⟨by decide, by decide, by decide, by decide, fun z h1 h3 => ?_, by decide +kernel, by decide +kernel⟩
  match z with
  | 0 => rfl
  | 1 => exact absurd rfl h1
  | 2 => rfl
  | 3 => exact absurd rfl h3
  | _ + 4 => rfl
theorem witness_CodesArePrefixFree :
    (codesOf [2, 1, 0])[0]? = some (some [true]) ∧ (codesOf [2, 1, 0])[1]? = some (some [false]) ∧ 0 ≠ 1 := by
  decide +kernel
theorem witness_CodesAreComplete : 2 ≤ (observed [2, 1, 0]).length ∧ (observed [0, 9]).length = 1 := by decide
theorem witness_FrequentKeysHaveShortCodes :
    (codesOf [2, 1, 1])[0]? = some (some [false]) ∧ (codesOf [2, 1, 1])[1]? = some (some [true, false]) ∧
    [2, 1, 1].getD 1 0 < [2, 1, 1].getD 0 0 := by decide +kernel

/-! ### Witnesses: the invariant, in phases `IDLE`, `LOAD`, `TABLES` and `DONE` -/

theorem unit_inRange : vecInRange (intsOfVec (vec [(0, 5), (10, -3)])) := by unfold vecInRange; decide +kernel
theorem loaded_units : ∀ u < loaded.ldcnt.toNat, ∃ x, (u, x) ∈ loaded.cbuf ∧ vecInRange (intsOfVec x) := by
  intro u hu
  have : u = 0 := by
    have h1 : loaded.ldcnt.toNat = 1 := by decide
    omega
  subst this
  exact ⟨_, List.mem_singleton.2 rfl, unit_inRange⟩
theorem witness_reset_inv : State.reset.Inv where
  scan := rfl
  params := by decide
  errPhase := by decide
  errInfo := by decide
  count := by decide
  memory := by decide
  loaded := fun u hu => absurd hu (by simp [State.reset])
  inIdle := fun _ => ⟨rfl, rfl, rfl, rfl, rfl, rfl, rfl⟩
  capacity := by decide
  inLoad := fun h => by cases h
  inTables := fun h => by cases h
  inDone := fun h => by cases h
theorem witness_loaded_inv : loaded.Inv where
  scan := rfl
  params := by decide
  errPhase := by decide
  errInfo := by decide
  count := by decide
  memory := by decide
  loaded := loaded_units
  inIdle := fun h => by cases h
  capacity := by decide
  inLoad := fun _ => ⟨rfl, rfl, rfl, rfl, rfl, rfl⟩
  inTables := fun h => by cases h
  inDone := fun h => by cases h
theorem witness_built_inv : built.Inv where
  scan := rfl
  params := by decide
  errPhase := by decide
  errInfo := by decide
  count := by decide
  memory := by decide
  loaded := loaded_units
  inIdle := fun h => by cases h
  capacity := by decide
  inLoad := fun h => by cases h
  inTables := fun _ => ⟨⟨by decide, rfl, rfl⟩, rfl, rfl, rfl, rfl⟩
  inDone := fun h => by cases h
theorem emitted_bits : emitBits (emitted []) = .ok p10Bits := by decide +kernel
theorem emitted_tables : tablesBuilt (emitted []) := ⟨(by decide : loaded.ldcnt.toNat = unitTotal loaded), rfl, rfl⟩
theorem witness_emitted_inv : (emitted []).Inv where
  scan := rfl
  params := (by decide : loaded.cfg.wf = true)
  errPhase := (by decide : (none : Option FaultKind) ≠ none ↔ Phase.done = .fault)
  errInfo := fun _ => rfl
  count := (by decide : loaded.ldcnt.toNat ≤ unitTotal loaded)
  memory := (by decide : CoefMem.wf loaded.cbuf = true)
  loaded := loaded_units
  inIdle := fun h => by cases h
  capacity := fun _ => (by decide : loaded.nblk.toNat ≤ loaded.cfg.maxN)
  inLoad := fun h => by cases h
  inTables := fun h => by cases h
  inDone := fun _ => ⟨emitted_tables, emitted_bits, rfl⟩
theorem witness_CounterSumsAndBounds : loaded.Inv ∧ loaded.ldcnt.toNat = unitTotal loaded :=
  ⟨witness_loaded_inv, by decide⟩

/-! ### Witnesses: EMIT and the write commands -/

theorem witness_UnitBitsInterleaveCodesAndValues :
    (built.code.get (dcTable .luma))[cat ((coefs built 0).headD 0)]? = some (some [false]) ∧
    [[true], [false]].length = (rle (coefs built 0).tail).length ∧
    (rle (coefs built 0).tail).map (fun p => (built.code.get (acTable .luma))[p.sym.run * 16 + p.sym.cat]?) =
      [some (some [true]), some (some [false])] := by decide +kernel
theorem witness_EmitConcatenatesUnits : built.phase = .tables ∧ [p10Bits.drop 32].length = unitTotal built ∧
    unitBits built 0 = .ok (p10Bits.drop 32) := by decide +kernel
theorem witness_EmitRefusesMissingCode :
    { stateIn .tables 1 with cbuf := loaded.cbuf }.phase = .tables ∧
    0 < unitTotal { stateIn .tables 1 with cbuf := loaded.cbuf } ∧
    unitBits { stateIn .tables 1 with cbuf := loaded.cbuf } 0 = .error 3#32 ∧
    255 < 256 ∧ (invalidCode.get .acC)[255]? = some none := by decide +kernel
theorem witness_EmitRefusesMissingCode_dc :
    0 % (coded [] [0, 146]).cfg.nch = 0 ∧ 1 % (coded [] [0, 146]).cfg.nch ≠ 0 ∧
    (coded [] [0, 146]).code.dcY[3]? = some none ∧ (coded [] [0, 146]).code.dcC[3]? = some none ∧
    unitBits (coded [] [0, 146]) 0 = .error 0x003#32 ∧ unitBits (coded [] [0, 146]) 1 = .error 0x203#32 := by
  decide +kernel
theorem witness_EmitRefusesMissingCode_first :
    (rle (coefs (coded [3] []) 1).tail)[0]? = some { sym := { run := 9, cat := 2 }, value := [false, false] } ∧
    (coded [3] []).code.acC[146]? = some none ∧ (coded [3] []).code.dcC[3]? = some (some [false]) ∧
    unitBits (coded [3] []) 0 = .error 0x192#32 ∧ unitBits (coded [3] []) 1 = .error 0x392#32 := by decide +kernel
theorem witness_EmitRefusesMissingCode_second :
    (rle (coefs (coded [3] [146]) 1).tail)[1]? = some eob ∧ (coded [3] [146]).code.acC[146]? = some (some [false]) ∧
    (coded [3] [146]).code.acC[0]? = some none ∧
    unitBits (coded [3] [146]) 0 = .error 0x100#32 ∧ unitBits (coded [3] [146]) 1 = .error 0x300#32 := by decide +kernel
theorem witness_EmitNeverInconsistent : built.Inv ∧ built.phase = .tables := ⟨witness_built_inv, rfl⟩
theorem witness_done : (emitted []).Inv ∧ (emitted []).phase = .done := ⟨witness_emitted_inv, rfl⟩
theorem witness_EmptyImageFiles :
    (stateIn .load 0).phase = .load ∧ (stateIn .load 0).nblk = 0#32 ∧ (stateIn .load 0).ldcnt = 0#64 := by decide
theorem witness_PackPlacesBits : 8 < (List.replicate 9 true).length ∧ (List.replicate 9 true).length ≤ 15 ∧
    15 < 8 * (pack (List.replicate 9 true)).length := by decide
theorem witness_present : (emitted [true]).phase = .done ∧ sinkAnswer (emitted [true]) 0 = true ∧
    sinkAnswer (emitted [true]) 1 = true := ⟨rfl, rfl, rfl⟩
theorem witness_AbsentSinkRaises : (emitted [false]).phase = .done ∧ sinkAnswer (emitted [false]) 0 = false ∧
    sinkAnswer (emitted [false]) 1 = false := ⟨rfl, rfl, rfl⟩

/-! ### Witnesses: whole-machine rules -/

theorem witness_StepKeepsInvariant : ∃ t, loaded.Inv ∧ step loaded = .next t := ⟨loaded, witness_loaded_inv, rfl⟩
theorem witness_PhaseWriters :
    [streamIn .load [0x01000000#32], { streamIn .idle [0x05000000#32] with nblk := 2#32 },
        { loaded with cs := [0x20000000#32] }, { built with cs := [0x30000000#32] }, streamIn .idle [0x30000000#32]].map
      (fun s => (s.phase, (after (step s)).map State.phase)) =
    [(.load, some .idle), (.idle, some .load), (.load, some .tables), (.tables, some .done), (.idle, some .fault)] := by
  decide +kernel
theorem witness_ConfigurationWriters :
    [streamIn .idle [0x02000000#32, 8#32], streamIn .idle [0x03000000#32, 8#32], streamIn .idle [0x04000000#32, 8#32],
        streamIn .idle [0x01000000#32]].map
      (fun s => (after (step s)).map fun t => (t.width, t.height, t.nblk)) =
    [some (8#32, 0#32, 1#32), some (0#32, 8#32, 1#32), some (0#32, 0#32, 8#32), some (0#32, 0#32, 0#32)] := by
  decide +kernel
theorem witness_FlagAndSinkWriters :
    [{ emitted [true] with cs := [0x40000000#32] }, { emitted [true] with cs := [0x41000000#32] },
        { streamIn .done [0x01000000#32] with tabw := true, datw := true }].map
      (fun s => (after (step s)).map fun t => (t.tabw, t.datw, decide (t.sink0 = s.sink0), decide (t.sink1 = s.sink1))) =
    [some (true, false, false, true), some (false, true, true, false), some (false, false, true, true)] := by
  decide +kernel
theorem witness_RomsAndTablesImmutable : ∃ t, step { built with cs := [0x30000000#32] } = .next t ∧
    built.phase = .tables ∧ t.phase = .done := by
  have h : (after (step { built with cs := [0x30000000#32] })).map State.phase = some .done := by decide +kernel
  cases ht : step { built with cs := [0x30000000#32] } with
  | next t => rw [ht] at h; exact ⟨t, rfl, rfl, by simpa [after] using h⟩
  | fault r => rw [ht] at h; simp [after] at h
  | refused r => rw [ht] at h; simp [after] at h
theorem witness_UnspecifiedContentUnobservable : ∃ t, loaded ≠ t ∧ loaded.Inv ∧ sameButUnspecified loaded t ∧
    step loaded = .next loaded ∧ step t = .next t := by
  refine ⟨{ loaded with cbuf := [(0, vec [(0, 5), (10, -3)]), (7, vec [])] }, ?_, witness_loaded_inv, ?_, rfl, rfl⟩
  · intro h
    have := congrArg (fun s => s.cbuf.length) h
    exact absurd this (by decide)
  · refine ⟨rfl, fun _ => ⟨rfl, rfl, fun u hu => ?_⟩⟩
    have h1 : loaded.ldcnt.toNat = 1 := by decide
    have : u = 0 := by omega
    subst this
    rfl
theorem witness_StatusPortMap : 11 ≤ (11#8).toNat ∧ 11 ≤ (255#8).toNat := by decide
theorem witness_PseudoCommandsExpand : 4294967295 < 2 ^ 32 ∧ asmCoef (5 / 2) = some 0x00028000#32 := by decide +kernel

end Sys2Proof.Tests
end

