-- ==== Sys2Proof/Proofs/PhaseWriters.lean ====
section
/-! SUPPORT and PROOF. How a command, and then a step, can change `PHASE` (spec/10_state.md R24). -/

namespace Sys2Proof.Machine

/-- The changes of `PHASE` that R24 allows a command `i` from phase `p` to phase `q`; `NOP`, the three `SET` commands,
`LDBLK`, `WRTAB` and `WRDAT` have none but fault entry. -/
inductive PhaseChange : Instr → Phase → Phase → Prop where
  | init (p : Phase) : PhaseChange .init p .idle
  | begin : PhaseChange .begin .idle .load
  | build : PhaseChange .build .load .tables
  | emit : PhaseChange .emit .tables .done
  | fault (i : Instr) (p : Phase) (hp : p ≠ .fault) : PhaseChange i p .fault

/-- A command's own effect keeps `PHASE` or changes it as R24 allows. -/
theorem ownEffect_phase {i : Instr} {s t : State} (h : ownEffect i s t) :
    t.phase = s.phase ∨ PhaseChange i s.phase t.phase := by
  cases i with
  | nop => exact .inl (congrArg State.phase h)
  | init => subst h; exact .inr (.init _)
  | setw n | seth n | setn n => obtain ⟨-, rfl⟩ := h; exact .inl rfl
  | begin => obtain ⟨hp, -, rfl⟩ := h; rw [hp]; exact .inr .begin
  | ldblk p => obtain ⟨-, -, -, -, rfl⟩ := h; exact .inl rfl
  | build => obtain ⟨hp, -, rfl⟩ := h; rw [hp]; exact .inr .build
  | emit => obtain ⟨hp, b, -, rfl⟩ := h; rw [hp]; exact .inr .emit
  | wrtab | wrdat => obtain ⟨-, -, rfl⟩ := h; exact .inl rfl

/-- A command keeps `PHASE` or changes it as R24 allows. -/
theorem exec_phase {i : Instr} {s t : State} (h : exec i s = .next t) :
    t.phase = s.phase ∨ PhaseChange i s.phase t.phase := by
  obtain ⟨-, rfl⟩ | ⟨hf, k, info, rfl | rfl⟩ | h := exec_cases h
  · exact .inl rfl
  · exact .inr (.fault _ _ hf)
  · exact .inr (.fault _ _ hf)
  · exact ownEffect_phase h

/-- Settles O54: of all a step can do, only a reset, an illegal header and a command write `PHASE`; the command's case
is `exec_phase`. -/
theorem phaseWriters : Obligations.PhaseWriters := by
  intro s t hstep hne
  obtain ⟨hr, rfl⟩ | ⟨-, -, rfl⟩ | ⟨w, rest, -, -, ⟨-, rfl⟩ | ⟨hf, rfl⟩⟩ | ⟨i, rest, -, hd, hexec⟩ := step_cases hstep
  · exact .inl ⟨rfl, .inl hr⟩
  · exact absurd rfl hne
  · exact absurd rfl hne
  · exact .inr (.inr (.inr (.inr ⟨hf, rfl⟩)))
  · have hchange : PhaseChange i s.phase t.phase := (exec_phase hexec).resolve_left hne
    generalize s.phase = p, t.phase = q at hchange ⊢
    cases hchange with
    | init => exact .inl ⟨rfl, .inr ⟨rest, hd⟩⟩
    | begin => exact .inr (.inl ⟨rfl, rfl, rest, hd⟩)
    | build => exact .inr (.inr (.inl ⟨rfl, rfl, rest, hd⟩))
    | emit => exact .inr (.inr (.inr (.inl ⟨rfl, rfl, rest, hd⟩)))
    | fault _ _ hf => exact .inr (.inr (.inr (.inr ⟨hf, rfl⟩)))

end Sys2Proof.Machine
end

