-- ==== Sys2Proof/Proofs/StatusPort.lean ====
section
/-! SUPPORT and PROOF. The fields of `STATUS` and the map of the status port (spec/10_state.md R31, R36, R37). -/

namespace Sys2Proof.Machine

/-! ### The fields of `STATUS` -/

/-- A flag placed at bit `n` of a word. -/
theorem getLsbD_ofBool_shiftLeft (b : Bool) {n k : Nat} (hk : k < 32) :
    ((BitVec.ofBool b).setWidth 32 <<< n).getLsbD k = (decide (k = n) && b) := by
  obtain h | rfl | h := Nat.lt_trichotomy k n
  · simp [h, h.ne]
  · simp [hk]
  · simp [h.ne', show k - n ≠ 0 by omega]

section
variable (s : State)

/-- `STATUS` bit by bit (R31): each field, shifted to its place. -/
theorem getLsbD_statusWord {k : Nat} (hk : k < 32) :
    (statusWord s).getLsbD k =
      ((phaseCode s.phase).getLsbD k || (!decide (k < 4) && (errCode s.err).getLsbD (k - 4)) ||
        (decide (k = 8) && s.tabw) || (decide (k = 9) && s.datw)) := by
  simp only [statusWord, BitVec.getLsbD_or, getLsbD_ofBool_shiftLeft _ hk]
  simp [hk]

theorem statusWord_phase : (statusWord s).extractLsb' 0 3 = phaseCode s.phase := by
  refine BitVec.eq_of_getLsbD_eq fun k hk => ?_
  rw [BitVec.getLsbD_extractLsb', getLsbD_statusWord s (by omega)]
  simp [hk, show k < 4 by omega, show k ≠ 8 by omega, show k ≠ 9 by omega]

theorem statusWord_bit3 : (statusWord s).getLsbD 3 = false := by
  rw [getLsbD_statusWord s (by decide)]
  simp

theorem statusWord_err : (statusWord s).extractLsb' 4 4 = errCode s.err := by
  refine BitVec.eq_of_getLsbD_eq fun k hk => ?_
  rw [BitVec.getLsbD_extractLsb', getLsbD_statusWord s (by omega),
    BitVec.getLsbD_of_ge (phaseCode s.phase) (4 + k) (by omega)]
  simp [hk, show 4 + k ≠ 8 by omega, show 4 + k ≠ 9 by omega]

theorem statusWord_tabw : (statusWord s).getLsbD 8 = s.tabw := by
  rw [getLsbD_statusWord s (by decide)]
  simp

theorem statusWord_datw : (statusWord s).getLsbD 9 = s.datw := by
  rw [getLsbD_statusWord s (by decide)]
  simp

theorem statusWord_reserved : (statusWord s).extractLsb' 10 22 = 0#22 := by
  refine BitVec.eq_of_getLsbD_eq fun k hk => ?_
  rw [BitVec.getLsbD_extractLsb', getLsbD_statusWord s (by omega),
    BitVec.getLsbD_of_ge (phaseCode s.phase) (10 + k) (by omega),
    BitVec.getLsbD_of_ge (errCode s.err) (10 + k - 4) (by omega)]
  simp [show 10 + k ≠ 8 by omega, show 10 + k ≠ 9 by omega]

/-! ### The register map -/

/-- R37: register numbers from 11 up read 0. -/
theorem readSR_of_eleven_le {n : BitVec 8} (h : 11 ≤ n.toNat) : readSR s n = 0#32 := by
  unfold readSR
  split
  case h_12 => rfl
  all_goals omega

end

/-- Settles O59: the numbers of the phases and faults are closed facts; register 1 is `STATUS`, whose fields the lemmas above give; the other numbers are arms of the port's
map, the two halves of `LDCNT` and of `BITLEN` joined by the library's lemma. -/
theorem statusPortMap : Obligations.StatusPortMap :=
  ⟨by decide, by decide, fun s =>
    ⟨statusWord_phase s, statusWord_bit3 s, statusWord_err s, statusWord_tabw s, statusWord_datw s,
      statusWord_reserved s, rfl, rfl, rfl, rfl, rfl, BitVec.extractLsb'_append_extractLsb',
      BitVec.extractLsb'_append_extractLsb', rfl, fun _ => readSR_of_eleven_le s⟩⟩

end Sys2Proof.Machine
end

