-- ==== Sys2Proof/Proofs/FaultEntry.lean ====
section
/-! SUPPORT and PROOF. What a step does that takes a fault (spec/60_exceptions.md R268, R270; spec/20_memory.md R73), and
what leaves `FAULT` (R271). -/

namespace Sys2Proof.Machine

variable {i : Instr} {s t : State}

/-- A command's own effect takes no fault. -/
theorem ownEffect_phase_ne_fault (h : ownEffect i s t) (hs : s.phase ≠ .fault) : t.phase ≠ .fault := by
  cases i with
  | nop => subst h; exact hs
  | init => subst h; simp
  | setw n | seth n | setn n => obtain ⟨-, rfl⟩ := h; exact hs
  | begin => obtain ⟨-, -, rfl⟩ := h; simp [beginLoad]
  | ldblk p => obtain ⟨-, -, -, -, rfl⟩ := h; exact hs
  | build => obtain ⟨-, -, rfl⟩ := h; simp
  | emit => obtain ⟨-, b, -, rfl⟩ := h; simp
  | wrtab | wrdat => obtain ⟨-, -, rfl⟩ := h; exact hs

/-- A command enters `FAULT` by `raise` alone, at most with the answer of the sink used up before. -/
theorem exec_enters_fault (h : exec i s = .next t) (hs : s.phase ≠ .fault) (ht : t.phase = .fault) :
    ∃ k info, t = raise k info s ∨ t = raise k info (answerUsed s) := by
  obtain ⟨hf, -⟩ | ⟨-, hraise⟩ | hown := exec_cases h
  · exact absurd hf hs
  · exact hraise
  · exact absurd ht (ownEffect_phase_ne_fault hown hs)

/-- A step enters `FAULT` by `raise` alone, in the state in which the command's words are consumed. -/
theorem step_enters_fault (h : step s = .next t) (hs : s.phase ≠ .fault) (ht : t.phase = .fault) :
    ∃ k info rest,
      t = raise k info { s with cs := rest } ∨ t = raise k info (answerUsed { s with cs := rest }) := by
  obtain ⟨-, rfl⟩ | ⟨-, -, rfl⟩ | ⟨w, rest, -, -, ⟨hf, -⟩ | ⟨-, rfl⟩⟩ | ⟨i, rest, -, -, hexec⟩ := step_cases h
  · simp [takeReset] at ht
  · exact absurd ht hs
  · exact absurd hf hs
  · exact ⟨_, w, rest, .inl rfl⟩
  · obtain ⟨k, info, ht⟩ := exec_enters_fault hexec hs ht
    exact ⟨k, info, rest, ht⟩

/-- A step that leaves `FAULT` goes to `IDLE`, by a reset or by `INIT`: of the writers of `PHASE` the others start in
another phase. -/
theorem step_leaves_fault (h : step s = .next t) (hs : s.phase = .fault) (ht : t.phase ≠ .fault) :
    t.phase = .idle ∧ (s.rst = true ∨ ∃ rest, decode s.cs = .command .init rest) := by
  have hwriters := phaseWriters s t h (by rwa [hs])
  simpa [hs] using hwriters

/-- Settles O12: fault entry is `raise`, which writes `ERR`, `ERRINFO` and `PHASE` only; the other half is
`step_leaves_fault`. -/
theorem faultKeepsRegistersUntilInit : Obligations.FaultKeepsRegistersUntilInit := by
  refine fun s t h => ⟨fun hs ht => ?_, step_leaves_fault h⟩
  obtain ⟨k, info, rest, rfl | rfl⟩ := step_enters_fault h hs ht
  · simp
  · simp

end Sys2Proof.Machine
end

