-- ==== Sys2Proof/Proofs/Packing.lean ====
section
/-! SUPPORT and PROOF. The packed bits are the bit sequence padded with zeros (spec/20_memory.md R66, R67;
spec/44_bitstream.md R228), and so begin with the block count (R62, R107). -/

namespace Sys2Proof.Machine

/-! ### Bytes as bits -/

@[simp] theorem unpack_nil : unpack [] = [] := rfl

@[simp] theorem unpack_cons (x : Byte) (l : List Byte) : unpack (x :: l) = bitsOfByte x ++ unpack l := rfl

@[simp] theorem bitsOfByte_length (x : Byte) : (bitsOfByte x).length = 8 := bin_length 8 _

theorem unpack_length (l : List Byte) : (unpack l).length = 8 * l.length := by
  induction l with
  | nil => rfl
  | cons x l ih => simp [ih]; omega

/-- Bit `i` of a byte sequence is bit `7 - i mod 8` of byte `i / 8`; beyond the sequence both read 0. -/
theorem unpack_getD (l : List Byte) (i : Nat) :
    (unpack l).getD i false = (l.getD (i / 8) 0#8).getLsbD (7 - i % 8) := by
  induction l generalizing i with
  | nil => simp
  | cons x l ih =>
    rw [unpack_cons]
    by_cases hi : i < 8
    · rw [List.getD_append _ _ _ _ (by simpa using hi), bitsOfByte, bin_get 8 _ i hi, Nat.div_eq_of_lt hi,
        Nat.mod_eq_of_lt hi]
      rfl
    · obtain ⟨j, rfl⟩ : ∃ j, i = j + 8 := ⟨i - 8, by omega⟩
      rw [List.getD_append_right _ _ _ _ (by simp), bitsOfByte_length, Nat.add_sub_cancel, ih,
        Nat.add_div_right j (by decide), Nat.add_mod_right, List.getD_cons_succ]

/-! ### `pack` -/

theorem bytesOfBits_append {c : Bits} (h : c.length = 8) (rest : Bits) :
    bytesOfBits (c ++ rest) = byteOfBits c :: bytesOfBits rest := by
  match c, h with
  | [_, _, _, _, _, _, _, _], _ => rfl

/-- Whole bytes of bits, packed, hold those bits. -/
theorem unpack_bytesOfBits (n : Nat) : ∀ b : Bits, b.length = 8 * n → unpack (bytesOfBits b) = b := by
  induction n with
  | zero => intro b h; rw [List.eq_nil_of_length_eq_zero h]; rfl
  | succ n ih =>
    intro b h
    have htake : (b.take 8).length = 8 := by simp; omega
    have hdrop : (b.drop 8).length = 8 * n := by simp; omega
    conv_lhs => rw [← List.take_append_drop 8 b, bytesOfBits_append htake, unpack_cons,
      bitsOfByte_byteOfBits _ htake, ih _ hdrop, List.take_append_drop]

/-- R66, R67: unpacking gives the padded sequence. -/
theorem unpack_pack (b : Bits) : unpack (pack b) = padBits b := unpack_bytesOfBits _ _ (pad_len b)

/-- R228: `ceil(L/8)` bytes. -/
theorem pack_length (b : Bits) : (pack b).length = (b.length + 7) / 8 := by
  have h : 8 * (pack b).length = 8 * ((b.length + 7) / 8) := by rw [← unpack_length, unpack_pack, pad_len]
  omega

/-- Padding adds only zeros, so it cannot be told from reading beyond the sequence. -/
theorem padBits_getD (b : Bits) (i : Nat) : (padBits b).getD i false = b.getD i false := by
  unfold padBits
  by_cases hi : i < b.length
  · exact List.getD_append _ _ _ _ hi
  · rw [List.getD_append_right _ _ _ _ (by omega), List.getD_eq_getElem?_getD,
      List.getElem?_getD_replicate_default_eq, List.getD_eq_default _ _ (by omega)]

/-- Every bit of the packed sequence: bit `i` of the sequence, and 0 beyond it. -/
theorem pack_bit (b : Bits) (i : Nat) : ((pack b).getD (i / 8) 0#8).getLsbD (7 - i % 8) = b.getD i false := by
  rw [← unpack_getD, unpack_pack, padBits_getD]

/-- Settles O43: `pack_length`, and `pack_bit` within the sequence and beyond it. -/
theorem packPlacesBits : Obligations.PackPlacesBits := fun b =>
  ⟨pack_length b, fun i _ => pack_bit b i, fun i hi _ => by rw [pack_bit, List.getD_eq_default _ _ hi]⟩

/-! ### The block-count header -/

/-- Byte `j` of a packed 32-bit number is its bits `31 - 8j : 24 - 8j`. -/
theorem pack_bin_getD (w : Word) (b : Bits) {j : Nat} (hj : j < 4) :
    (pack (bin 32 w.toNat ++ b)).getD j 0#8 = w.extractLsb' (24 - 8 * j) 8 := by
  refine BitVec.eq_of_getLsbD_eq fun k hk => ?_
  have hbit := pack_bit (bin 32 w.toNat ++ b) (8 * j + (7 - k))
  rw [show (8 * j + (7 - k)) / 8 = j by omega, show 7 - (8 * j + (7 - k)) % 8 = k by omega,
    List.getD_append _ _ _ _ (by rw [bin_length]; omega), bin_get 32 _ _ (by omega),
    show 32 - 1 - (8 * j + (7 - k)) = 24 - 8 * j + k by omega] at hbit
  rw [hbit, BitVec.getLsbD_extractLsb', decide_eq_true hk, Bool.true_and, BitVec.getLsbD]

/-- The four bytes of a packed 32-bit number, most significant first (R107). -/
theorem take_four_pack_bin (w : Word) (b : Bits) :
    (pack (bin 32 w.toNat ++ b)).take 4 =
      [w.extractLsb' 24 8, w.extractLsb' 16 8, w.extractLsb' 8 8, w.extractLsb' 0 8] := by
  have hlen : 4 ≤ (pack (bin 32 w.toNat ++ b)).length := by rw [pack_length, List.length_append, bin_length]; omega
  match hl : pack (bin 32 w.toNat ++ b), hlen with
  | b0 :: b1 :: b2 :: b3 :: rest, _ =>
    have hbyte {j : Nat} (hj : j < 4) := hl ▸ pack_bin_getD w b hj
    rw [← hbyte (j := 0) (by decide), ← hbyte (j := 1) (by decide), ← hbyte (j := 2) (by decide),
      ← hbyte (j := 3) (by decide)]
    rfl

/-- R224: what `EMIT` makes begins with the header. -/
theorem emitBits_eq_header_append {s : State} {b : Bits} (h : emitBits s = .ok b) :
    ∃ bs, b = headerBits s ++ bs := by
  unfold emitBits at h
  split at h
  · cases h
  · cases h; exact ⟨_, rfl⟩

/-- Settles O51: in `DONE` the invariant says that `BITBUF` is what `EMIT` makes, which begins with `bin_32(NBLK)`. -/
theorem dataFileBeginsWithBlockCount : Obligations.DataFileBeginsWithBlockCount := by
  intro s hinv hdone
  obtain ⟨-, hemit, -⟩ := hinv.inDone hdone
  obtain ⟨bs, hbs⟩ := emitBits_eq_header_append hemit
  rw [hbs]
  exact take_four_pack_bin s.nblk bs

end Sys2Proof.Machine
end

