-- ==== Sys2Proof/Proofs/TableText.lean ====
section
/-! SUPPORT and PROOF. The bytes and the lines of a table file (spec/20_memory.md R68; spec/30_encoding.md R108 to R119). -/

namespace Sys2Proof.Machine

/-- A decimal digit `0` to `9` (R68). -/
def IsDigit (b : Byte) : Prop := 0x30 ≤ b.toNat ∧ b.toNat ≤ 0x39

/-- Bytes of R68's alphabet with `n` line feeds among them. -/
structure IsText (l : List Byte) (n : Nat) : Prop where
  alphabet : ∀ b ∈ l, IsDigit b ∨ b = comma ∨ b = lf
  lines : l.count lf = n

/-! ### Texts -/

theorem IsText.nil : IsText [] 0 := ⟨by simp, rfl⟩

theorem IsText.append {l l' : List Byte} {m n : Nat} (h : IsText l m) (h' : IsText l' n) :
    IsText (l ++ l') (m + n) where
  alphabet b hb := (List.mem_append.1 hb).elim (h.alphabet b) (h'.alphabet b)
  lines := by rw [List.count_append, h.lines, h'.lines]

theorem IsText.flatMap {α : Type} {f : α → List Byte} {n : Nat} (hf : ∀ x, IsText (f x) n) (xs : List α) :
    IsText (xs.flatMap f) (n * xs.length) := by
  induction xs with
  | nil => exact .nil
  | cons x xs ih =>
    rw [List.length_cons, Nat.mul_succ, Nat.add_comm]
    exact (hf x).append ih

theorem isText_comma : IsText [comma] 0 := ⟨by simp, by decide⟩

theorem isText_lf : IsText [lf] 1 := ⟨by simp, by decide⟩

/-- A line feed is no digit. -/
theorem isText_of_digits {l : List Byte} (h : ∀ b ∈ l, IsDigit b) : IsText l 0 where
  alphabet b hb := .inl (h b hb)
  lines := List.count_eq_zero.2 fun hlf => absurd (h lf hlf) (by unfold IsDigit; decide)

/-! ### The parts of a table file -/

theorem isText_dec (u : Nat) : IsText (dec u) 0 :=
  have ⟨_, _, hdigits⟩ := dec_spec (u + 1) u (Nat.lt_succ_self u)
  isText_of_digits hdigits

theorem isText_codeChars (b : Bits) : IsText (codeChars b) 0 := by
  refine isText_of_digits fun c hc => ?_
  obtain ⟨x, -, rfl⟩ := List.mem_map.1 hc
  cases x <;> (unfold IsDigit; decide)

theorem isText_geometryLine (w h : Word) : IsText (geometryLine w h) 1 :=
  (((isText_dec _).append isText_comma).append (isText_dec _)).append isText_lf

theorem isText_keyLine (isDc : Bool) (x : Nat) : IsText (keyLine isDc x) 1 := by
  cases isDc with
  | true => exact (isText_dec x).append isText_lf
  | false => exact (((isText_dec _).append isText_comma).append (isText_dec _)).append isText_lf

/-- R110 to R112: an entry has two lines. -/
theorem isText_entryLines (isDc : Bool) (x : Nat) (b : Bits) : IsText (entryLines isDc x b) 2 :=
  ((isText_keyLine isDc x).append (isText_codeChars b)).append isText_lf

theorem validEntriesFrom_length (code : List (Option Bits)) (x : Nat) :
    (validEntriesFrom x code).length = countValid code := by
  unfold countValid
  induction code generalizing x with
  | nil => rfl
  | cons e code ih => cases e <;> simp [validEntriesFrom, ih]

/-- R109: a section has its count line and two lines for each valid entry. -/
theorem isText_sectionLines (isDc : Bool) (code : List (Option Bits)) :
    IsText (sectionLines isDc code) (1 + 2 * countValid code) := by
  have hentries := IsText.flatMap (fun e : Nat × Bits => isText_entryLines isDc e.1 e.2) (validEntries code)
  rw [validEntries, validEntriesFrom_length] at hentries
  exact ((isText_dec _).append isText_lf).append hentries

theorem isText_tableFile (w h : Word) (c : Tables (List (Option Bits))) :
    IsText (tableFile w h c) (1 + (1 + 2 * countValid c.dcY) + (1 + 2 * countValid c.acY) +
      (1 + 2 * countValid c.dcC) + (1 + 2 * countValid c.acC)) :=
  ((((isText_geometryLine w h).append (isText_sectionLines true _)).append (isText_sectionLines false _)).append
    (isText_sectionLines true _)).append (isText_sectionLines false _)

/-- Settles O48: the geometry line and the four sections, put together by `IsText.append`. -/
theorem tableFileAlphabetAndLines : Obligations.TableFileAlphabetAndLines := by
  intro w h c
  obtain ⟨halphabet, hlines⟩ := isText_tableFile w h c
  exact ⟨halphabet, hlines.trans (by omega)⟩

end Sys2Proof.Machine
end

