-- ==== Sys2Proof/Proofs/ValueBits.lean ====
section
/-! SUPPORT and PROOF. The value bits of an integer and their inverse (spec/30_encoding.md R103, R104). -/

namespace Sys2Proof.Machine

/-! ### Complement is negation -/

/-- A bit string and its complement, read as numbers, make up the string of ones. -/
theorem ofBits_add_ofBits_map_not (b : Bits) : ofBits b + ofBits (b.map not) + 1 = 2 ^ b.length := by
  induction b with
  | nil => rfl
  | cons x b ih =>
    rw [List.map_cons, ofBits_cons, ofBits_cons, List.length_map, List.length_cons, pow_succ]
    cases x <;> simp <;> omega

theorem valInverse_map_not (b : Bits) : valInverse (b.map not) = -valInverse b := by
  have hsum : (ofBits b : Int) + ofBits (b.map not) + 1 = 2 ^ b.length := by
    exact_mod_cast ofBits_add_ofBits_map_not b
  match b with
  | [] => rfl
  | true :: c | false :: c =>
    simp only [valInverse, List.map_cons, Bool.not_true, Bool.not_false, List.length_cons, List.length_map] at hsum ⊢
    omega

/-- R103: for a positive `v`, `val(-v)` is the complement of `val(v)`. -/
theorem val_neg {v : Int} (hv : 0 < v) : val (-v) = (val v).map not := by
  have hcat : cat (-v) = cat v := by rw [cat, cat, Int.natAbs_neg]
  obtain ⟨-, hlt⟩ := cat_bounds v hv.ne'
  have hpow : ((2 ^ cat v : Nat) : Int) = 2 ^ cat v := by push_cast; rfl
  rw [val_pos v hv, ← bin_map_not _ _ hlt, val, if_neg (by omega), if_neg (by omega), hcat]
  congr 1
  omega

/-! ### The two strings of a magnitude -/

/-- The value bits of a positive integer begin with 1. -/
theorem val_eq_true_cons {v : Int} (hv : 0 < v) : val v = true :: bin (cat v - 1) v.natAbs := by
  obtain ⟨hle, hlt⟩ := cat_bounds v hv.ne'
  rw [val_pos v hv, bin_head _ _ (cat_pos v hv.ne'), testBit_top _ _ (cat_pos v hv.ne') hle hlt]

/-- A string that begins with 1 is read in plain binary. -/
theorem valInverse_true_cons (c : Bits) : valInverse (true :: c) = ofBits (true :: c) := rfl

theorem valInverse_val_of_pos {v : Int} (hv : 0 < v) : valInverse (val v) = v := by
  obtain ⟨-, hlt⟩ := cat_bounds v hv.ne'
  rw [val_eq_true_cons hv, valInverse_true_cons, ← val_eq_true_cons hv, val_pos v hv, ofBits_bin,
    Nat.mod_eq_of_lt hlt]
  omega

/-- R104: the inverse undoes `val`; a negative integer by way of its magnitude. -/
theorem valInverse_val (v : Int) : valInverse (val v) = v := by
  obtain hneg | rfl | hpos := lt_trichotomy v 0
  · have hmag : 0 < -v := by omega
    rw [← neg_neg v, val_neg hmag, valInverse_map_not, valInverse_val_of_pos hmag]
  · rfl
  · exact valInverse_val_of_pos hpos

/-- R104: `val` undoes the inverse on a string that begins with 1, whose integer is positive. -/
theorem val_valInverse_true_cons (c : Bits) :
    0 < valInverse (true :: c) ∧ val (valInverse (true :: c)) = true :: c := by
  have hle : 2 ^ c.length ≤ ofBits (true :: c) := by rw [ofBits_cons]; simp
  have hpos : (0 : Int) < ofBits (true :: c) := by exact_mod_cast (Nat.two_pow_pos _).trans_le hle
  have hcat : cat (ofBits (true :: c)) = (true :: c).length := cat_eq _ _ (by simp) hle (ofBits_lt _)
  rw [valInverse_true_cons, val_pos _ hpos, hcat]
  exact ⟨hpos, bin_ofBits _⟩

/-- R104: `val` undoes the inverse; a string that begins with 0 by way of its complement. -/
theorem val_valInverse (b : Bits) : val (valInverse b) = b := by
  match b with
  | [] => rfl
  | true :: c => exact (val_valInverse_true_cons c).2
  | false :: c =>
    obtain ⟨hpos, hval⟩ := val_valInverse_true_cons (c.map not)
    have hcompl : false :: c = (true :: c.map not).map not := by simp [Bool.involutive_not.comp_self]
    rw [hcompl, valInverse_map_not, val_neg hpos, hval]

/-- Settles O26: the two directions are `valInverse_val` and `val_valInverse`, the lengths `val_length`, and the facts
about a positive integer `val_eq_true_cons` and `val_neg`. -/
theorem valueBitsAreBijective : Obligations.ValueBitsAreBijective :=
  ⟨fun v => ⟨val_length v, valInverse_val v⟩,
    fun v hv => ⟨by rw [val_eq_true_cons hv]; rfl, val_neg hv⟩,
    fun b _ => ⟨by rw [← val_length, val_valInverse], val_valInverse b⟩⟩

end Sys2Proof.Machine
end

