-- ==== Sys2Proof/Proofs/Assembler.lean ====
section
/-! SUPPORT and PROOF. The operands of the assembler and the pseudo-commands (spec/30_encoding.md R98, R99). -/

namespace Sys2Proof

/-! ### Operands -/

/-- R98: an operand has the word that, read as a signed number, is the operand scaled by `2^16`; none where the scaled
operand is no integer or out of the signed range. -/
theorem asmCoef_eq_some_iff (x : ℚ) (w : Word) : asmCoef x = some w ↔ (w.toInt : ℚ) = x * 65536 := by
  simp only [asmCoef, Option.ite_none_right_eq_some, Option.some.injEq]
  constructor
  · rintro ⟨⟨hden, hlo, hhi⟩, rfl⟩
    rw [BitVec.toInt_ofInt_eq_self (by decide) hlo (by omega)]
    exact Rat.coe_int_num_of_den_eq_one hden
  · intro h
    have hlo := w.le_toInt
    have hhi := w.toInt_lt
    rw [← h, Rat.num_intCast, Rat.den_intCast, BitVec.ofInt_toInt]
    exact ⟨⟨rfl, hlo, by omega⟩, rfl⟩

theorem asmWord_of_lt {n : Nat} (h : n < 2 ^ 32) : asmWord n = some (BitVec.ofNat 32 n) := if_pos h

theorem asmCoef_zero : asmCoef 0 = some 0#32 := (asmCoef_eq_some_iff 0 0#32).2 (by simp)

theorem mapM_asmCoef_replicate_zero (n : Nat) :
    (List.replicate n 0).mapM asmCoef = some (List.replicate n 0#32) := by
  induction n with
  | zero => rfl
  | succ n ih => simp [List.replicate_succ, asmCoef_zero, ih]

/-! ### Pseudo-commands -/

/-- R99: `SETDIM`. -/
theorem asmLine_setdim {w h n : Nat} (hw : w < 2 ^ 32) (hh : h < 2 ^ 32) (hn : n < 2 ^ 32) :
    asmLine (.setdim w h n) =
      some [.setw (BitVec.ofNat 32 w), .seth (BitVec.ofNat 32 h), .setn (BitVec.ofNat 32 n)] := by
  simp only [asmLine, asmWord_of_lt hw, asmWord_of_lt hh, asmWord_of_lt hn]

/-- R99: `LDDC`. -/
theorem asmLine_lddc {x : ℚ} {w : Word} (h : asmCoef x = some w) :
    asmLine (.lddc x) = some [.ldblk (w :: List.replicate 63 0#32)] := by
  have hwords : (x :: List.replicate 63 0).mapM asmCoef = some (w :: List.replicate 63 0#32) := by
    rw [List.mapM_cons, h, mapM_asmCoef_replicate_zero]; rfl
  rw [asmLine, asmBlock, if_pos (by simp), hwords]
  rfl

/-- R99: `LDZERO` is `LDDC 0`. -/
theorem asmLine_ldzero : asmLine .ldzero = some [.ldblk (List.replicate 64 0#32)] := asmLine_lddc asmCoef_zero

/-- Settles O60: the operand's word and the three expansions with operands; `ENCODE` and `FLUSH` are arms of the
assembler. -/
theorem pseudoCommandsExpand : Obligations.PseudoCommandsExpand :=
  ⟨asmCoef_eq_some_iff, fun _ _ _ => asmLine_setdim, asmLine_ldzero, fun _ _ => asmLine_lddc, rfl, rfl⟩

end Sys2Proof
end

