-- ==== Sys2Proof/Proofs/TableReader.lean ====
section
/-! SUPPORT and PROOF. The table file as a list of lines, and the reader on those lines (spec/30_encoding.md R108 to
R112, R118). -/

namespace Sys2Proof.Machine

/-! ### Lines -/

/-- A text: every line, the last one included, ends with a line feed (R108). -/
def textOfLines (ls : List (List Byte)) : List Byte := ls.flatMap (· ++ [lf])

theorem splitLines_textOfLines {ls : List (List Byte)} (h : ∀ l ∈ ls, lf ∉ l) :
    splitLines (textOfLines ls) = (ls, []) := by
  induction ls with
  | nil => rfl
  | cons l ls ih =>
    obtain ⟨hl, hls⟩ := List.forall_mem_cons.1 h
    rw [textOfLines, List.flatMap_cons, splitLines_line hl, ← textOfLines, ih hls]

theorem IsText.lf_not_mem {l : List Byte} (h : IsText l 0) : lf ∉ l := List.count_eq_zero.1 h.lines

/-- The key line of an entry without its line feed (R110, R111). -/
def keyText (isDc : Bool) (x : Nat) : List Byte :=
  if isDc then dec x else dec (symOfKey x).run ++ [comma] ++ dec (symOfKey x).cat

/-- The two lines of an entry (R112). -/
def entryTexts (isDc : Bool) (e : Nat × Bits) : List (List Byte) := [keyText isDc e.1, codeChars e.2]

/-- The lines of a section with these entries (R109). -/
def sectionTexts (isDc : Bool) (es : List (Nat × Bits)) : List (List Byte) :=
  dec es.length :: es.flatMap (entryTexts isDc)

/-- The lines of a table file (R109). -/
def fileTexts (w h : Word) (c : Tables (List (Nat × Bits))) : List (List Byte) :=
  (dec w.toNat ++ [comma] ++ dec h.toNat) ::
    (sectionTexts true c.dcY ++ (sectionTexts false c.acY ++ (sectionTexts true c.dcC ++ sectionTexts false c.acC)))

theorem entryLines_eq_textOfLines (isDc : Bool) (e : Nat × Bits) :
    entryLines isDc e.1 e.2 = textOfLines (entryTexts isDc e) := by
  cases isDc <;> simp [entryLines, keyLine, textOfLines, entryTexts, keyText]

theorem sectionLines_eq_textOfLines (isDc : Bool) (code : List (Option Bits)) :
    sectionLines isDc code = textOfLines (sectionTexts isDc (validEntries code)) := by
  simp only [sectionLines, entryLines_eq_textOfLines]
  simp [textOfLines, sectionTexts, List.flatMap_assoc]

theorem tableFile_eq_textOfLines (w h : Word) (c : Tables (List (Option Bits))) :
    tableFile w h c = textOfLines (fileTexts w h (c.map validEntries)) := by
  simp only [tableFile, sectionLines_eq_textOfLines]
  simp [geometryLine, textOfLines, fileTexts, Tables.map]

/-! ### No line feed within a line -/

theorem isText_keyText (isDc : Bool) (x : Nat) : IsText (keyText isDc x) 0 := by
  cases isDc with
  | true => exact isText_dec x
  | false => exact ((isText_dec _).append isText_comma).append (isText_dec _)

theorem lf_not_mem_of_mem_sectionTexts {isDc : Bool} {es : List (Nat × Bits)} :
    ∀ l ∈ sectionTexts isDc es, lf ∉ l := by
  refine List.forall_mem_cons.2 ⟨(isText_dec _).lf_not_mem, fun l hl => ?_⟩
  obtain ⟨e, -, he⟩ := List.mem_flatMap.1 hl
  simp only [entryTexts, List.mem_cons, List.not_mem_nil, or_false] at he
  obtain rfl | rfl := he
  · exact (isText_keyText _ _).lf_not_mem
  · exact (isText_codeChars _).lf_not_mem

theorem lf_not_mem_of_mem_fileTexts {w h : Word} {c : Tables (List (Nat × Bits))} :
    ∀ l ∈ fileTexts w h c, lf ∉ l := by
  refine List.forall_mem_cons.2 ⟨(((isText_dec _).append isText_comma).append (isText_dec _)).lf_not_mem, ?_⟩
  simp only [List.forall_mem_append]
  exact ⟨lf_not_mem_of_mem_sectionTexts, lf_not_mem_of_mem_sectionTexts, lf_not_mem_of_mem_sectionTexts,
    lf_not_mem_of_mem_sectionTexts⟩

/-! ### The reader, from one line to the file -/

theorem comma_not_mem_dec (u : Nat) : comma ∉ dec u := fun h =>
  have ⟨_, _, hdigits⟩ := dec_spec (u + 1) u (Nat.lt_succ_self u)
  absurd (hdigits comma h) (by decide)

/-- R118: the one comma of a geometry line or an AC key line divides it. -/
theorem readPair_dec_comma_dec (a b : Nat) : readPair (dec a ++ [comma] ++ dec b) = some (a, b) := by
  have hne : ∀ c ∈ dec a, (c != comma) = true := fun c hc =>
    bne_iff_ne.2 fun h => comma_not_mem_dec a (h ▸ hc)
  rw [List.append_assoc, readPair, List.takeWhile_append_of_pos hne, List.dropWhile_append_of_pos hne]
  simp [readDec_dec]

/-- R100: the key byte of a symbol gives the key index back. -/
theorem keyByte_symOfKey (x : Nat) : keyByte (symOfKey x) = x := Nat.div_add_mod' x 16

theorem readKey_keyText (isDc : Bool) (x : Nat) : readKey isDc (keyText isDc x) = some x := by
  cases isDc with
  | true => exact readDec_dec x
  | false =>
    rw [readKey, keyText, if_neg Bool.false_ne_true, if_neg Bool.false_ne_true, readPair_dec_comma_dec]
    exact congrArg some (keyByte_symOfKey x)

theorem readCode_codeChars (b : Bits) : readCode (codeChars b) = some b := by
  induction b with
  | nil => rfl
  | cons x b ih =>
    rw [codeChars, List.map_cons, ← codeChars, readCode, ih]
    cases x <;> rfl

theorem readEntries_entryTexts (isDc : Bool) (es : List (Nat × Bits)) (rest : List (List Byte)) :
    readEntries isDc es.length (es.flatMap (entryTexts isDc) ++ rest) = some (es, rest) := by
  induction es with
  | nil => rfl
  | cons e es ih => simp [entryTexts, readEntries, readKey_keyText, readCode_codeChars, ih]

/-- R118: the count line says how many entries follow, so the section ends where the next one begins. -/
theorem readSection_sectionTexts (isDc : Bool) (es : List (Nat × Bits)) (rest : List (List Byte)) :
    readSection isDc (sectionTexts isDc es ++ rest) = some (es, rest) := by
  rw [sectionTexts, List.cons_append, readSection, readDec_dec]
  exact readEntries_entryTexts isDc es rest

/-- R118: the reader on the lines of a table file. -/
theorem readTableFile_textOfLines (w h : Word) (c : Tables (List (Nat × Bits))) :
    readTableFile (textOfLines (fileTexts w h c)) = some ((w.toNat, h.toNat), c) := by
  have hlast := readSection_sectionTexts false c.acC []
  rw [List.append_nil] at hlast
  rw [readTableFile, splitLines_textOfLines lf_not_mem_of_mem_fileTexts]
  simp only [fileTexts, readPair_dec_comma_dec, readSection_sectionTexts, hlast]

/-- Settles O49: the table file is the text of its lines, and the reader gives those back. -/
theorem tableFileParsesBack : Obligations.TableFileParsesBack := fun w h c => by
  rw [tableFile_eq_textOfLines, readTableFile_textOfLines]

end Sys2Proof.Machine
end

