-- ==== Sys2Proof/Proofs/SetCommands.lean ====
section
/-! SUPPORT and PROOF. `SETW`, `SETH` and `SETN` (spec/40_control_commands.md R135 to R137). -/

namespace Sys2Proof.Machine

variable {s : State}

/-! ### Commands legal in `IDLE` only -/

theorem inPhase_idle {op : BitVec 8} {body : State → Result} (h : s.phase = .idle) :
    inPhase op [.idle] body s = body s :=
  inPhase_of_legal (by simp [h]) (by simp [h])

/-- R131, R261: the refusal, with the command's header word and the phase in `ERRINFO`. -/
theorem inPhase_not_idle {op : BitVec 8} {body : State → Result} (hi : s.phase ≠ .idle) (hf : s.phase ≠ .fault) :
    inPhase op [.idle] body s =
      .next (raise .illegalSequence (headerWord op ||| (phaseCode s.phase).setWidth 32) s) :=
  inPhase_of_illegal hf (by simpa using hi)

/-! ### The three commands -/

theorem headerWord_setw : headerWord 0x02#8 = 0x02000000#32 := by decide
theorem headerWord_seth : headerWord 0x03#8 = 0x03000000#32 := by decide
theorem headerWord_setn : headerWord 0x04#8 = 0x04000000#32 := by decide

variable (n : Word)

theorem encode_setw : encode (.setw n) = [0x02000000#32, n] := congrArg (· :: [n]) headerWord_setw
theorem encode_seth : encode (.seth n) = [0x03000000#32, n] := congrArg (· :: [n]) headerWord_seth
theorem encode_setn : encode (.setn n) = [0x04000000#32, n] := congrArg (· :: [n]) headerWord_setn

theorem exec_setw_idle (h : s.phase = .idle) : exec (.setw n) s = .next { s with width := n } := by
  rw [exec, execSetw, inPhase_idle h, zextOperand]

theorem exec_seth_idle (h : s.phase = .idle) : exec (.seth n) s = .next { s with height := n } := by
  rw [exec, execSeth, inPhase_idle h, zextOperand]

theorem exec_setn_idle (h : s.phase = .idle) : exec (.setn n) s = .next { s with nblk := n } := by
  rw [exec, execSetn, inPhase_idle h, zextOperand]

section
variable (hi : s.phase ≠ .idle) (hf : s.phase ≠ .fault)
include hi hf

theorem exec_setw_not_idle :
    exec (.setw n) s = .next (raise .illegalSequence (0x02000000#32 ||| (phaseCode s.phase).setWidth 32) s) := by
  rw [exec, execSetw, inPhase_not_idle hi hf, headerWord_setw]

theorem exec_seth_not_idle :
    exec (.seth n) s = .next (raise .illegalSequence (0x03000000#32 ||| (phaseCode s.phase).setWidth 32) s) := by
  rw [exec, execSeth, inPhase_not_idle hi hf, headerWord_seth]

theorem exec_setn_not_idle :
    exec (.setn n) s = .next (raise .illegalSequence (0x04000000#32 ||| (phaseCode s.phase).setWidth 32) s) := by
  rw [exec, execSetn, inPhase_not_idle hi hf, headerWord_setn]

end

/-- Settles O16: for each of the three commands, its words, its effect in `IDLE` and its refusal elsewhere. -/
theorem setCommandsStorePayload : Obligations.SetCommandsStorePayload := by
  refine ⟨fun n => ⟨encode_setw n, encode_seth n, encode_setn n⟩,
    fun s n h => ⟨exec_setw_idle n h, exec_seth_idle n h, exec_setn_idle n h⟩, fun s n hi hf => ?_⟩
  simp only [List.forall_mem_cons]
  exact ⟨exec_setw_not_idle n hi hf, exec_seth_not_idle n hi hf, exec_setn_not_idle n hi hf, by simp⟩

end Sys2Proof.Machine
end

