-- ==== Sys2Proof/Proofs/QuantizeZigzag.lean ====
section
/-! SUPPORT and PROOF. The quantiser's rounding, the effect and the range fault of `LDBLK`, and the scan
(spec/41_quantize_zigzag.md R150 to R160). -/

namespace Sys2Proof.Machine

/-! ### quantizer_8x8 -/

/-- Settles O18: `quant_eq_iff` bounds the signed distance on both sides, and `natAbs` joins the two sides. -/
theorem quantIsNearestTiesToEven : Obligations.QuantIsNearestTiesToEven := by
  intro n d hd _
  obtain ⟨hle, hge, hevenAbove, hevenBelow⟩ := (quant_eq_iff n d hd _).1 rfl
  generalize n - quant .halfEven n d * (d * 65536) = x at *
  refine ⟨by omega, fun hhalf => ?_⟩
  obtain hx | hx := Int.natAbs_eq x
  · exact hevenAbove (by omega)
  · exact hevenBelow (by omega)

/-! ### The range check -/

theorem firstOutOfRange_eq_none_iff {q : List Int} :
    firstOutOfRange q = none ↔ ∀ j < q.length, (q.getD j 0).natAbs ≤ coefLimit j := by
  simp only [firstOutOfRange, outOfRangeFrom_none, Nat.zero_add]

theorem firstOutOfRange_eq_some {q : List Int} {i : Nat} (hi : i < q.length)
    (hbefore : ∀ j < i, (q.getD j 0).natAbs ≤ coefLimit j) (hfail : coefLimit i < (q.getD i 0).natAbs) :
    firstOutOfRange q = some i := by
  have h := outOfRangeFrom_some q 0 i hi
  simp only [Nat.zero_add] at h
  exact h hbefore hfail

theorem coefLimit_le (i : Nat) : coefLimit i ≤ 2047 := by
  unfold coefLimit
  split <;> decide

/-- Every bound of R155 is within 12 bits, at an index past the block too, which reads 0. -/
theorem natAbs_getD_le_of_inRange {q : List Int} (h : firstOutOfRange q = none) (j : Nat) :
    (q.getD j 0).natAbs ≤ 2047 := by
  obtain hj | hj := Nat.lt_or_ge j q.length
  · exact (firstOutOfRange_eq_none_iff.1 h j hj).trans (coefLimit_le j)
  · simp [hj]

/-! ### zigzag_64_reorder -/

/-- R157: element `k` of the reordered sequence. -/
theorem zigzag_getD (scan : ZZRom) (q : List Int) (k : Fin 64) :
    (zigzag scan q).getD k.val 0 = q.getD (8 * scan[k].1.toNat + scan[k].2.toNat) 0 := by
  simp [zigzag, List.getD_eq_getElem?_getD]

/-- R40: an element within 12 bits is read back as it was stored. -/
theorem vecOfInts_toInt {z : List Int} {k : Fin 64} (h : (z.getD k.val 0).natAbs ≤ 2047) :
    ((vecOfInts z)[k]).toInt = z.getD k.val 0 := by
  rw [← toInt_ofInt12 _ h]
  simp [vecOfInts]

/-- R160: no pair occurs twice among the 64 entries, and there are 64 pairs. -/
theorem scan_bijective : Function.Bijective fun k : Fin 64 => zzromContent[k] := by
  have hnodup : zzromContent.toList.Nodup := by decide
  refine (Fintype.bijective_iff_injective_and_card _).2 ⟨fun j k h => Fin.ext ?_, rfl⟩
  exact (List.Nodup.getElem_inj_iff hnodup (hi := by simp) (hj := by simp)).1 (by simpa using h)

/-- R160: the reordered sequence at a position's scan number is the block's element at the position. -/
theorem zigzag_getD_of_scan (q : List Int) {r c : BitVec 3} {k : Fin 64} (hk : zzromContent[k] = (r, c)) :
    (zigzag zzromContent q).getD k.val 0 = q.getD (8 * r.toNat + c.toNat) 0 := by
  rw [zigzag_getD, hk]

/-- R160: every element of a block stands in the reordered sequence, so the sequence determines the block. -/
theorem zigzag_injective {q q' : List Int} (hq : q.length = 64) (hq' : q'.length = 64)
    (h : zigzag zzromContent q = zigzag zzromContent q') : q = q' := by
  refine List.ext_getElem (hq.trans hq'.symm) fun i hi hi' => ?_
  obtain ⟨k, hk⟩ := scan_bijective.surjective (BitVec.ofNat 3 (i / 8), BitVec.ofNat 3 (i % 8))
  have hpos : 8 * (BitVec.ofNat 3 (i / 8)).toNat + (BitVec.ofNat 3 (i % 8)).toNat = i := by
    simp only [BitVec.toNat_ofNat]
    omega
  have hget : q.getD i 0 = q'.getD i 0 := by
    rw [← hpos, ← zigzag_getD_of_scan q hk, h, zigzag_getD_of_scan q' hk]
  rwa [List.getD_eq_getElem _ _ hi, List.getD_eq_getElem _ _ hi'] at hget

/-- Settles O24: the table against the generating rule is a closed fact; the rest is `scan_bijective`,
`zigzag_getD_of_scan` and `zigzag_injective`. -/
theorem zigzagIsBijection : Obligations.ZigzagIsBijection :=
  ⟨by decide, fun r c => scan_bijective.existsUnique (r, c), fun q _ _ _ _ hk => zigzag_getD_of_scan q hk,
    fun _ _ => zigzag_injective⟩

/-! ### LDBLK -/

section
variable {s : State} {p : List Word} (hs : s.phase = .load) (hp : p.length = 64)
include hs hp

theorem exec_ldblk_of_load : exec (.ldblk p) s = loadBlock p s := by
  rw [exec, execLdblk, if_pos hp, inPhase_of_legal (by simp [hs]) (by simp [hs])]

variable (hu : s.ldcnt.toNat < unitTotal s)
include hu

theorem exec_ldblk_of_inRange (h : firstOutOfRange (nextBlock p s) = none) :
    exec (.ldblk p) s = .next (storeUnit (nextBlock p s) s) := by
  rw [exec_ldblk_of_load hs hp, loadBlock, if_neg hu.not_ge, h]

theorem exec_ldblk_of_outOfRange {i : Nat} (h : firstOutOfRange (nextBlock p s) = some i) :
    exec (.ldblk p) s = .next (raise .coefficientRange (BitVec.ofNat 32 i) s) := by
  rw [exec_ldblk_of_load hs hp, loadBlock, if_neg hu.not_ge, h]

end

/-- Settles O21: the range check passes, so the reordered block is stored, each element within 12 bits. -/
theorem ldblkStoresUnit : Obligations.LdblkStoresUnit := by
  intro s p hs hp hu hrange
  have hpass : firstOutOfRange (nextBlock p s) = none :=
    firstOutOfRange_eq_none_iff.2 fun j hj => hrange j (nextBlock_length s p hp ▸ hj)
  refine ⟨vecOfInts (zigzag s.zzrom (nextBlock p s)), exec_ldblk_of_inRange hs hp hu hpass, fun k => ?_⟩
  have hk := zigzag_getD s.zzrom (nextBlock p s) k
  exact (vecOfInts_toInt (hk ▸ natAbs_getD_le_of_inRange hpass _)).trans hk

/-- Settles O22: the range check stops at the lowest failing index, and the raise is all that happens. -/
theorem ldblkRefusesOutOfRange : Obligations.LdblkRefusesOutOfRange :=
  fun s p _ hs hp hu hi hbefore hfail => exec_ldblk_of_outOfRange hs hp hu
    (firstOutOfRange_eq_some (nextBlock_length s p hp ▸ hi) hbefore hfail)

end Sys2Proof.Machine
end

