-- ==== Sys2Proof/Proofs/RunLength.lean ====
section
/-! SUPPORT and PROOF. The category, the terminator, the split of a run at sixteen zeros, and the inverse of the
run-length encoder (spec/42_run_length.md R170 to R181). -/

namespace Sys2Proof.Machine

/-! ### The category -/

theorem cat_neg (v : Int) : cat (-v) = cat v := congrArg bitlen v.natAbs_neg

theorem cat_eq_zero_iff {v : Int} : cat v = 0 ↔ v = 0 := by
  refine ⟨fun h => ?_, fun h => h ▸ rfl⟩
  by_contra hv
  exact absurd h (Nat.one_le_iff_ne_zero.1 (cat_pos v hv))

/-- R170: the interval of the magnitudes of a positive category. -/
theorem cat_eq_iff (v : Int) {k : Nat} (hk : 1 ≤ k) :
    cat v = k ↔ 2 ^ (k - 1) ≤ v.natAbs ∧ v.natAbs ≤ 2 ^ k - 1 := by
  rw [← Nat.lt_iff_le_pred (Nat.two_pow_pos k)]
  exact bitlen_eq_iff v.natAbs k hk

/-- Settles O25: `cat_neg` and `cat_eq_iff`. -/
theorem categoryIsMagnitudeWidth : Obligations.CategoryIsMagnitudeWidth :=
  ⟨rfl, fun v => ⟨cat_neg v, fun _ => cat_eq_iff v⟩⟩

/-! ### The pairs and the terminator -/

/-- Settles O27: `rleByRun_shape` from the start; before the terminator category 0 goes with a run of 15 only
(R180 (a)). -/
theorem rleEndsWithOneTerminator : Obligations.RleEndsWithOneTerminator := by
  intro a ha
  obtain ⟨ps, hps, hlen, hpairs⟩ := rleByRun_shape a 0 (Nat.zero_le _)
  refine ⟨ps, (rle_eq a).trans hps, ha ▸ hlen, fun p hp hsym => ?_⟩
  obtain ⟨-, hzero, -⟩ := hpairs p hp
  rw [hsym] at hzero
  exact absurd (hzero rfl) (by decide)

/-- R178: the run field of a pair has four bits. -/
theorem run_le_of_mem_rle {a : List Int} {p : RlePair} (hp : p ∈ rle a) : p.sym.run ≤ 15 := by
  obtain ⟨ps, hps, -, hpairs⟩ := rleByRun_shape a 0 (Nat.zero_le _)
  rw [rle_eq, hps, List.mem_append, List.mem_singleton] at hp
  obtain hp | rfl := hp
  · exact (hpairs p hp).1
  · exact Nat.zero_le _

/-! ### The encoder, one element at a time -/

/-- The pair of sixteen zeros (R177). -/
def zrl : RlePair := { sym := { run := 15, cat := 0 }, value := [] }

theorem rleByRun_of_all_zero {a : List Int} (h : ∀ v ∈ a, v = 0) (run : Nat) : rleByRun run a = [eob] := by
  cases a with
  | nil => rfl
  | cons x xs => exact if_pos (List.forall_mem_cons.1 h)

/-- R176 step 3, for a nonzero element. -/
theorem rleByRun_nonzero {x : Int} (hx : x ≠ 0) (run : Nat) (xs : List Int) :
    rleByRun run (x :: xs) = { sym := { run := run, cat := cat x }, value := val x } :: rleByRun 0 xs := by
  simp [rleByRun, hx]

section
variable {xs : List Int} (h : ∃ v ∈ xs, v ≠ 0)
include h

/-- R176 step 2: a zero before the last nonzero element is counted. -/
theorem rleByRun_zero_of_lt {run : Nat} (hrun : run < 15) : rleByRun run (0 :: xs) = rleByRun (run + 1) xs := by
  have hxs : ¬ ∀ v ∈ xs, v = 0 := by simpa using h
  simp [rleByRun, hxs, hrun]

/-- R177: the sixteenth zero before the last nonzero element emits a ZRL. -/
theorem rleByRun_zero_of_full : rleByRun 15 (0 :: xs) = zrl :: rleByRun 0 xs := by
  have hxs : ¬ ∀ v ∈ xs, v = 0 := by simpa using h
  rw [rleByRun, if_neg fun hz => hxs hz.2, if_neg (by decide)]
  rfl

end

/-- R177, R178: `n` zeros before a nonzero element, the counter standing at `run`, whatever follows. -/
theorem rleByRun_replicate_zero {v : Int} (hv : v ≠ 0) (rest : List Int) (n : Nat) : ∀ run ≤ 15,
    rleByRun run (List.replicate n 0 ++ v :: rest) = List.replicate ((run + n) / 16) zrl ++
      { sym := { run := (run + n) % 16, cat := cat v }, value := val v } :: rleByRun 0 rest := by
  induction n with
  | zero =>
    intro run hrun
    rw [Nat.add_zero, Nat.div_eq_of_lt (by omega), Nat.mod_eq_of_lt (by omega)]
    exact rleByRun_nonzero hv run rest
  | succ n ih =>
    intro run hrun
    have hnz : ∃ w ∈ List.replicate n 0 ++ v :: rest, w ≠ 0 := ⟨v, by simp, hv⟩
    rw [List.replicate_succ, List.cons_append]
    obtain hlt | rfl := Nat.lt_or_eq_of_le hrun
    · rw [rleByRun_zero_of_lt hnz hlt, ih (run + 1) hlt, Nat.add_assoc, Nat.add_comm 1 n]
    · have hwrap : 15 + (n + 1) = n + 16 := by omega
      rw [rleByRun_zero_of_full hnz, ih 0 (Nat.zero_le _), Nat.zero_add, hwrap, Nat.add_div_right n (by decide),
        Nat.add_mod_right, List.replicate_succ, List.cons_append]

/-- Settles O29: `rleByRun_replicate_zero` with the counter at 0 and only zeros after the element;
`run_le_of_mem_rle`. -/
theorem rleSplitsRunsAtSixteen : Obligations.RleSplitsRunsAtSixteen := by
  refine ⟨fun n v _ hv => ?_, fun _ _ => run_le_of_mem_rle⟩
  have hrest : ∀ w ∈ List.replicate (62 - n) (0 : Int), w = 0 := fun _ => List.eq_of_mem_replicate
  rw [rle_eq, rleByRun_replicate_zero hv _ n 0 (Nat.zero_le _), rleByRun_of_all_zero hrest, Nat.zero_add]
  rfl

/-! ### The inverse -/

/-- R181: what a pair before the terminator stands for; a zero element occurs only in a ZRL, so not with run 0. -/
theorem unrleElems_cons {run : Nat} {x : Int} (h : x = 0 → run ≠ 0) (ps : List RlePair) :
    unrleElems ({ sym := { run := run, cat := cat x }, value := val x } :: ps) =
      List.replicate run 0 ++ x :: unrleElems ps := by
  have hsym : ({ run := run, cat := cat x } : Sym) ≠ { run := 0, cat := 0 } := fun he =>
    h (cat_eq_zero_iff.1 (congrArg Sym.cat he)) (congrArg Sym.run he)
  have helem : (if 0 < cat x then valInverse (val x) else 0) = x := by
    split
    · exact valInverse_val x
    · next hcat => exact (cat_eq_zero_iff.1 (Nat.eq_zero_of_not_pos hcat)).symm
  rw [unrleElems, if_neg hsym, helem, List.append_assoc, List.singleton_append]

/-- R181: the pairs give back the zeros counted so far and the elements, up to zeros at the end. -/
theorem unrleElems_rleByRun (run : Nat) (a : List Int) :
    ∃ m, List.replicate run 0 ++ a = unrleElems (rleByRun run a) ++ List.replicate m 0 := by
  fun_induction rleByRun run a with
  | case1 run => exact ⟨run, by simp [unrleElems, eob]⟩
  | case2 run x xs hz =>
    have hxs : x :: xs = List.replicate (xs.length + 1) 0 := List.eq_replicate_of_mem (List.forall_mem_cons.2 hz)
    exact ⟨run + (xs.length + 1), by rw [hxs, List.replicate_append_replicate]; rfl⟩
  | case3 run x xs _ hcount ih =>
    obtain ⟨m, hm⟩ := ih
    exact ⟨m, by rw [← hm, hcount.1, List.replicate_succ', List.append_assoc, List.singleton_append]⟩
  | case4 run x xs _ hemit ih =>
    obtain ⟨m, hm⟩ := ih
    have hrun : x = 0 → run ≠ 0 := by rintro hx rfl; exact hemit ⟨hx, by decide⟩
    refine ⟨m, ?_⟩
    rw [unrleElems_cons hrun, List.append_assoc, List.cons_append, ← hm, List.replicate_zero, List.nil_append]

/-- Settles O30: the zeros that `unrleElems_rleByRun` leaves open are those that `unrle` adds to reach 63. -/
theorem rleIsInvertible : Obligations.RleIsInvertible := by
  intro a ha
  obtain ⟨m, hm⟩ := unrleElems_rleByRun 0 a
  rw [List.replicate_zero, List.nil_append, ← rle_eq] at hm
  have hlen := congrArg List.length hm
  rw [ha, List.length_append, List.length_replicate] at hlen
  rw [unrle, hlen, Nat.add_sub_cancel_left, ← hm]

end Sys2Proof.Machine
end

