-- ==== Sys2Proof/Proofs/Collection.lean ====
section
/-! SUPPORT and PROOF. Frequency collection as counting in a list of keys, and the sums of the counters
(spec/43_huffman.md R191 to R194). -/

namespace Sys2Proof.Machine

/-! ### Counting in a list -/

theorem count_map_eq_length_filter {α : Type} (f : α → Nat) (l : List α) (x : Nat) :
    (l.map f).count x = (l.filter fun a => decide (f a = x)).length := by
  rw [List.count_eq_countP, List.countP_map, List.countP_eq_length_filter]
  rfl

theorem countP_lt_succ (l : List Nat) (n : Nat) : l.countP (· < n + 1) = l.countP (· < n) + l.count n := by
  induction l with
  | nil => rfl
  | cons a l ih =>
    simp only [List.countP_cons, List.count_cons, ih, decide_eq_true_eq, beq_iff_eq]
    split_ifs <;> omega

/-- The counters below `n` count each key below `n` once. -/
theorem sum_count_range (l : List Nat) (n : Nat) : ((List.range n).map fun x => l.count x).sum = l.countP (· < n) := by
  induction n with
  | zero => simp
  | succ n ih => rw [List.range_succ, List.map_append, List.sum_append, ih, countP_lt_succ]; rfl

theorem eq_map_range_of_getD {l : List Nat} {n : Nat} {g : Nat → Nat} (hlen : l.length = n)
    (h : ∀ x < n, l.getD x 0 = g x) : l = (List.range n).map g := by
  subst hlen
  refine List.ext_getElem (by simp) fun x hx _ => ?_
  rw [List.getElem_map, List.getElem_range, ← h x hx, List.getD_eq_getElem _ 0 hx]

theorem getD_map_range {n x : Nat} (g : Nat → Nat) (hx : x < n) : ((List.range n).map g).getD x 0 = g x := by
  simp [hx]

/-! ### The keys that are counted -/

/-- The units of `us` that are of class `k`. -/
def classUnits (s : State) (k : ChClass) (us : List Nat) : List Nat := us.filter fun u => decide (unitClass s u = k)

/-- The keys that the units `us` count in the DC table of class `k` (R192). -/
def dcKeys (s : State) (k : ChClass) (us : List Nat) : List Nat :=
  (classUnits s k us).map fun u => cat ((coefs s u).headD 0)

/-- The keys that the units `us` count in the AC table of class `k` (R192). -/
def acKeys (s : State) (k : ChClass) (us : List Nat) : List Nat :=
  (classUnits s k us).flatMap fun u => (rle (coefs s u).tail).map fun p => keyByte p.sym

/-- Collection over units, from any tables: each counter grows by the number of occurrences of its key. -/
theorem foldl_countVec (s : State) (us : List Nat) : ∀ f : Tables (List Nat), fullTables f →
    fullTables (us.foldl (fun f u => countVec (unitClass s u) (coefs s u) f) f) ∧
    (∀ k, ∀ x < 12, ((us.foldl (fun f u => countVec (unitClass s u) (coefs s u) f) f).get (dcTable k)).getD x 0 =
      (f.get (dcTable k)).getD x 0 + (dcKeys s k us).count x) ∧
    (∀ k, ∀ x < 256, ((us.foldl (fun f u => countVec (unitClass s u) (coefs s u) f) f).get (acTable k)).getD x 0 =
      (f.get (acTable k)).getD x 0 + (acKeys s k us).count x) := by
  induction us with
  | nil => exact fun f hf => ⟨hf, fun _ _ _ => rfl, fun _ _ _ => rfl⟩
  | cons u us ih =>
    intro f hf
    obtain ⟨hfull, hdc, hac⟩ := countVec_spec (unitClass s u) (coefs s u) f hf
    obtain ⟨ihfull, ihdc, ihac⟩ := ih _ hfull
    refine ⟨ihfull, fun k x hx => ?_, fun k x hx => ?_⟩
    · rw [List.foldl_cons, ihdc k x hx, hdc k x hx, Nat.add_assoc]
      by_cases hk : unitClass s u = k <;> simp [dcKeys, classUnits, hk, List.count_cons, Nat.add_comm]
    · rw [List.foldl_cons, ihac k x hx, hac k x hx, Nat.add_assoc, ← count_map_eq_length_filter]
      by_cases hk : unitClass s u = k <;> simp [acKeys, classUnits, hk]

/-- R41: collection keeps the sizes of the tables. -/
theorem collect_full (s : State) : fullTables (collect s) := (foldl_countVec s _ _ zeroFreq_full).1

/-- R192, R193: a DC table counts the DC keys of its class. -/
theorem collect_get_dcTable (s : State) (k : ChClass) :
    (collect s).get (dcTable k) = (List.range 12).map fun x => (dcKeys s k (List.range (unitTotal s))).count x := by
  obtain ⟨hfull, hdc, -⟩ := foldl_countVec s (List.range (unitTotal s)) zeroFreq zeroFreq_full
  refine eq_map_range_of_getD ((hfull _).trans (by cases k <;> rfl)) fun x hx => (hdc k x hx).trans ?_
  rw [zeroFreq_getD, Nat.zero_add]

/-- R192, R193: an AC table counts the AC keys of its class. -/
theorem collect_get_acTable (s : State) (k : ChClass) :
    (collect s).get (acTable k) = (List.range 256).map fun x => (acKeys s k (List.range (unitTotal s))).count x := by
  obtain ⟨hfull, -, hac⟩ := foldl_countVec s (List.range (unitTotal s)) zeroFreq zeroFreq_full
  refine eq_map_range_of_getD ((hfull _).trans (by cases k <;> rfl)) fun x hx => (hac k x hx).trans ?_
  rw [zeroFreq_getD, Nat.zero_add]

theorem count_dcKeys (s : State) (k : ChClass) (us : List Nat) (x : Nat) :
    (dcKeys s k us).count x =
      (us.filter fun u => decide (unitClass s u = k) && decide (cat ((coefs s u).headD 0) = x)).length := by
  rw [dcKeys, count_map_eq_length_filter, classUnits, List.filter_filter]
  simp only [Bool.and_comm]

theorem count_acKeys (s : State) (k : ChClass) (us : List Nat) (x : Nat) :
    (acKeys s k us).count x = ((us.filter fun u => decide (unitClass s u = k)).map fun u =>
      ((rle (coefs s u).tail).filter fun p => decide (keyByte p.sym = x)).length).sum := by
  rw [acKeys, List.count_flatMap, classUnits]
  simp only [Function.comp_def, count_map_eq_length_filter]

/-! ### The class of a unit -/

theorem unitClass_eq_luma_iff {s : State} {u : Nat} : unitClass s u = .luma ↔ u % s.cfg.nch = 0 := by
  rw [unitClass_eq]; split <;> simp_all

theorem unitClass_eq_chroma_iff {s : State} {u : Nat} : unitClass s u = .chroma ↔ u % s.cfg.nch ≠ 0 := by
  rw [unitClass_eq]; split <;> simp_all

/-- Settles O31: each table counts in its class's list of keys; a unit is of class `LUMA` when its number is a multiple
of `NCH`. -/
theorem countersCountOccurrences : Obligations.CountersCountOccurrences := by
  intro s x
  have hdc (k : ChClass) (hx : x < 12) := (congrArg (·.getD x 0) (collect_get_dcTable s k)).trans
    ((getD_map_range _ hx).trans (count_dcKeys s k _ x))
  have hac (k : ChClass) (hx : x < 256) := (congrArg (·.getD x 0) (collect_get_acTable s k)).trans
    ((getD_map_range _ hx).trans (count_acKeys s k _ x))
  simp only [← unitClass_eq_luma_iff, ← unitClass_eq_chroma_iff]
  exact ⟨fun hx => ⟨hdc .luma hx, hdc .chroma hx⟩, fun hx => ⟨hac .luma hx, hac .chroma hx⟩⟩

/-! ### Sums -/

theorem classUnits_luma_length {s : State} (hn : 1 ≤ s.cfg.nch) :
    (classUnits s .luma (List.range (unitTotal s))).length = s.nblk.toNat := by
  have hcount := Nat.count_modEq_card (s.nblk.toNat * s.cfg.nch) hn 0
  rw [Nat.mul_div_cancel _ hn, Nat.mul_mod_left, Nat.zero_mod, if_neg (Nat.lt_irrefl 0), Nat.add_zero] at hcount
  rw [← hcount, Nat.count, List.countP_eq_length_filter]
  exact congrArg List.length (List.filter_congr fun _ _ => decide_eq_decide.2 unitClass_eq_luma_iff)

theorem classUnits_chroma_length {s : State} (hn : 1 ≤ s.cfg.nch) :
    (classUnits s .chroma (List.range (unitTotal s))).length = s.nblk.toNat * (s.cfg.nch - 1) := by
  have hrest : (fun u => decide (unitClass s u = .chroma)) = fun u => !decide (unitClass s u = .luma) :=
    funext fun u => by simp [unitClass_eq_luma_iff, unitClass_eq_chroma_iff]
  have hsplit : (classUnits s .luma (List.range (unitTotal s))).length +
      (classUnits s .chroma (List.range (unitTotal s))).length = unitTotal s := by
    rw [classUnits, classUnits, hrest, ← List.length_eq_length_filter_add, List.length_range]
  rw [classUnits_luma_length hn] at hsplit
  exact (Nat.eq_sub_of_add_eq' hsplit).trans (Nat.mul_sub_one _ _).symm

theorem keyByte_eq_zero_iff {x : Sym} : keyByte x = 0 ↔ x = { run := 0, cat := 0 } := by
  obtain ⟨run, cat⟩ := x
  simp [keyByte]

/-- R194: a unit counts at most 64 AC keys, the terminator's exactly once. -/
theorem rle_keys {a : List Int} (ha : a.length = 63) :
    (rle a).length ≤ 64 ∧ ((rle a).map fun p => keyByte p.sym).count 0 = 1 := by
  obtain ⟨ps, hps, hlen, hne⟩ := rleEndsWithOneTerminator a ha
  have hzero : (ps.map fun p => keyByte p.sym).count 0 = 0 := by
    rw [List.count_eq_zero, List.mem_map]
    rintro ⟨p, hp, hkey⟩
    exact hne p hp (keyByte_eq_zero_iff.1 hkey)
  rw [hps]
  constructor
  · rw [List.length_append]; exact Nat.succ_le_succ hlen
  · rw [List.map_append, List.count_append, hzero]; rfl

section
variable {s : State} (h : s.Inv) (hall : s.ldcnt.toNat = unitTotal s) (k : ChClass)
include h hall

theorem classUnits_inRange {u : Nat} (hu : u ∈ classUnits s k (List.range (unitTotal s))) : vecInRange (coefs s u) :=
  coefs_inRange h (hall ▸ List.mem_range.1 (List.mem_of_mem_filter hu))

/-- R194: every unit of the class counts one DC key. -/
theorem sum_dcTable :
    ((collect s).get (dcTable k)).sum = (classUnits s k (List.range (unitTotal s))).length := by
  rw [collect_get_dcTable, sum_count_range, dcKeys, List.countP_map, List.countP_eq_length.2]
  intro u hu
  obtain ⟨-, hdc, -⟩ := classUnits_inRange h hall k hu
  exact decide_eq_true (Nat.lt_succ_of_le (cat_le _ 11 (Nat.lt_of_le_of_lt hdc (by decide))))

/-- R194: every unit of the class counts one terminator. -/
theorem getD_zero_acTable :
    ((collect s).get (acTable k)).getD 0 0 = (classUnits s k (List.range (unitTotal s))).length := by
  have hone : ∀ u ∈ classUnits s k (List.range (unitTotal s)),
      (List.count 0 ∘ fun u => (rle (coefs s u).tail).map fun p => keyByte p.sym) u = 1 := fun u hu =>
    (rle_keys (by rw [List.length_tail, (classUnits_inRange h hall k hu).1])).2
  rw [collect_get_acTable, getD_map_range _ (by decide), acKeys, List.count_flatMap, List.map_congr_left hone]
  simp

/-- R194: every unit of the class counts at most 64 AC keys. -/
theorem sum_acTable_le :
    ((collect s).get (acTable k)).sum ≤ 64 * (classUnits s k (List.range (unitTotal s))).length := by
  have hle : ∀ n ∈ (classUnits s k (List.range (unitTotal s))).map fun u =>
      ((rle (coefs s u).tail).map fun p => keyByte p.sym).length, n ≤ 64 := by
    simp only [List.forall_mem_map, List.length_map]
    exact fun u hu => (rle_keys (by rw [List.length_tail, (classUnits_inRange h hall k hu).1])).1
  calc ((collect s).get (acTable k)).sum
      ≤ (acKeys s k (List.range (unitTotal s))).length := by
        rw [collect_get_acTable, sum_count_range]; exact List.countP_le_length
    _ ≤ 64 * (classUnits s k (List.range (unitTotal s))).length := by
        rw [acKeys, List.length_flatMap, Nat.mul_comm]
        simpa using List.sum_le_card_nsmul _ 64 hle

end

/-- Settles O37: the sums of each class in the number of its units; `NCH` is at most 5 and `NBLK` below `2^32`. -/
theorem counterSumsAndBounds : Obligations.CounterSumsAndBounds := by
  intro s h hall
  obtain ⟨hn, hn5⟩ : 1 ≤ s.cfg.nch ∧ s.cfg.nch ≤ 5 := by
    have := h.params
    simp only [Params.wf, Bool.and_eq_true, decide_eq_true_eq] at this
    exact this.1
  have hluma := classUnits_luma_length hn
  have hchroma := classUnits_chroma_length hn
  have hacY := hluma ▸ sum_acTable_le h hall .luma
  have hacC := hchroma ▸ sum_acTable_le h hall .chroma
  have hblocks := s.nblk.isLt
  have hunits : s.nblk.toNat * (s.cfg.nch - 1) ≤ s.nblk.toNat * 4 := Nat.mul_le_mul_left _ (by omega)
  simp only [acTable, Tables.get] at hacY hacC
  refine ⟨hluma ▸ sum_dcTable h hall .luma, hchroma ▸ sum_dcTable h hall .chroma,
    hluma ▸ getD_zero_acTable h hall .luma, hchroma ▸ getD_zero_acTable h hall .chroma, hacY, hacC,
    by omega, by omega, fun h3 => ?_⟩
  rw [h3] at hacC
  omega

end Sys2Proof.Machine
end

