-- ==== Sys2Proof/Proofs/CodeTable.lean ====
section
/-! SUPPORT and PROOF. Which keys have a code, the lengths of the codes, and the codes of two observed keys
(spec/43_huffman.md R195 to R210). -/

namespace Sys2Proof.Machine

/-! ### Which keys have a code -/

/-- The entries of a code table as one list: the observed keys, each code of the lengths R203 and R205 give. -/
theorem exists_codeList (freq : List Nat) : ∃ l : List (Nat × Bits),
    (∀ x b, (codesOf freq)[x]? = some (some b) ↔ (x, b) ∈ l) ∧
    (l.map Prod.fst).Perm ((observed freq).map Prod.fst) ∧
    ∀ e ∈ l, 1 ≤ e.2.length ∧ ((observed freq).length = 1 → e.2 = [false]) ∧
      (2 ≤ (observed freq).length → e.2.length + 1 ≤ (observed freq).length) := by
  obtain ⟨l, hcodes, hperm, hnodup, -, hpos, hmany, hone, -⟩ := codes_spec freq
  refine ⟨l, codesOf_get hcodes hnodup fun k hk => (obs_lt (hperm.mem_iff.1 hk)).1, hperm, fun e he =>
    ⟨hpos e he, fun h1 => ?_, fun h2 => (hmany h2).2 e he⟩⟩
  obtain ⟨k, rfl⟩ := hone h1
  rw [List.mem_singleton.1 he]

theorem codesOf_length (freq : List Nat) : (codesOf freq).length = freq.length := by
  obtain ⟨l, hcodes, -⟩ := codes_spec freq
  rw [hcodes, List.length_map, List.length_range]

theorem mem_observed_keys_iff {freq : List Nat} {x : Nat} (hx : x < freq.length) :
    x ∈ (observed freq).map Prod.fst ↔ 0 < freq.getD x 0 :=
  ⟨fun h => (obs_lt h).2, obs_of hx⟩

/-- R43 (a): exactly the observed keys have a code. -/
theorem exists_code_iff {freq : List Nat} {x : Nat} (hx : x < freq.length) :
    (∃ b, (codesOf freq)[x]? = some (some b)) ↔ 0 < freq.getD x 0 := by
  obtain ⟨l, hl, hperm, -⟩ := exists_codeList freq
  rw [← mem_observed_keys_iff hx, ← hperm.mem_iff]
  simp [hl]

/-- R43 (c), R203: the length of a code. -/
theorem code_length {freq : List Nat} {x : Nat} {b : Bits} (h : (codesOf freq)[x]? = some (some b)) :
    1 ≤ b.length ∧ ((observed freq).length = 1 → b = [false]) ∧
      (2 ≤ (observed freq).length → b.length + 1 ≤ (observed freq).length) := by
  obtain ⟨l, hl, -, hlen⟩ := exists_codeList freq
  exact hlen _ ((hl x b).1 h)

/-- R195: a table without an observed key has no valid entry. -/
theorem validEntries_replicate_zero (n : Nat) : validEntries (codesOf (List.replicate n 0)) = [] := by
  refine List.eq_nil_iff_forall_not_mem.2 fun ⟨x, b⟩ he => ?_
  obtain ⟨-, hcode⟩ := (mem_validEntriesFrom _ 0 x b).1 he
  obtain ⟨hx, -⟩ := List.getElem?_eq_some_iff.1 hcode
  rw [Nat.sub_zero, codesOf_length] at hx
  have hcount := (exists_code_iff hx).1 ⟨b, hcode⟩
  rw [List.getD_eq_getElem _ 0 hx, List.getElem_replicate] at hcount
  exact Nat.lt_irrefl 0 hcount

/-! ### Two observed keys -/

/-- R198: between an earlier node and a later one the weights decide, the earlier one first at equal weights. -/
theorem before_iff_of_ord_lt {a b : Node} (h : a.ord < b.ord) : a.before b = true ↔ a.weight ≤ b.weight := by
  rw [before_iff, Node.Bef]; omega

/-- R198, R199: of two leaves the one before the other is child 0. -/
theorem buildTree_of_pair {freq : List Nat} {a b : Node} (h : leaves freq = [a, b]) :
    buildTree freq = some (if a.before b then .inner a.tree b.tree else .inner b.tree a.tree) := by
  rw [buildTree, h]
  cases hab : a.before b <;> simp [mergeAll, takeMin, hab, mergeNodes]

/-- R202: the codes of a tree of two leaves. -/
theorem codesOf_of_pair {freq : List Nat} {p q : Nat} (h : buildTree freq = some (.inner (.leaf p) (.leaf q)))
    (hp : p < freq.length) (hq : q < freq.length) (hpq : p ≠ q) :
    (codesOf freq)[p]? = some (some [false]) ∧ (codesOf freq)[q]? = some (some [true]) := by
  have hnodup : ((treeCodes (.inner (.leaf p) (.leaf q))).map Prod.fst).Nodup := by
    simpa [treeCodes, walk] using hpq
  have hcodes : codesOf freq =
      (List.range freq.length).map fun k => (treeCodes (.inner (.leaf p) (.leaf q))).lookup k := by
    rw [codesOf, h]
  have hlt : ∀ k ∈ (treeCodes (.inner (.leaf p) (.leaf q))).map Prod.fst, k < freq.length := by
    simp [treeCodes, walk, hp, hq]
  simp [codesOf_get hcodes hnodup hlt, treeCodes, walk]

section
variable {freq : List Nat} {x y : Nat} (hxy : x < y) (hy : y < freq.length) (hcx : 0 < freq.getD x 0)
  (hcy : 0 < freq.getD y 0) (hother : ∀ z, z ≠ x → z ≠ y → freq.getD z 0 = 0)
include hxy hy hcx hcy hother

/-- R196: the leaves are in ascending order of their keys. -/
theorem observed_of_two : observed freq = [(x, freq.getD x 0), (y, freq.getD y 0)] := by
  have hkeys : ((List.range freq.length).filter fun k => decide (0 < freq.getD k 0)) = [x, y] := by
    refine List.Perm.eq_of_pairwise' (r := (· ≤ ·)) (List.pairwise_le_range.filter _) (by simp; omega) ?_
    refine (List.perm_ext_iff_of_nodup (List.nodup_range.filter _) (by simp; omega)).2 fun z => ?_
    rw [List.mem_filter, List.mem_range, decide_eq_true_eq, List.mem_pair]
    constructor
    · rintro ⟨-, hz⟩
      by_contra hne
      rw [not_or] at hne
      exact absurd (hother z hne.1 hne.2) (Nat.ne_of_gt hz)
    · rintro (rfl | rfl)
      · exact ⟨hxy.trans hy, hcx⟩
      · exact ⟨hy, hcy⟩
  rw [observed_keys, hkeys]
  rfl

/-- R202: of two observed keys the one counted less gets `0`, at equal counts the smaller key. -/
theorem codesOf_of_two :
    (codesOf freq)[x]? = some (some [decide (freq.getD y 0 < freq.getD x 0)]) ∧
    (codesOf freq)[y]? = some (some [decide (freq.getD x 0 ≤ freq.getD y 0)]) := by
  have hx := hxy.trans hy
  have hleaves : leaves freq = [⟨freq.getD x 0, 0, .leaf x⟩, ⟨freq.getD y 0, 1, .leaf y⟩] := by
    rw [leaves, observed_of_two hxy hy hcx hcy hother]; rfl
  have hbefore := before_iff_of_ord_lt (a := ⟨freq.getD x 0, 0, .leaf x⟩) (b := ⟨freq.getD y 0, 1, .leaf y⟩)
    Nat.zero_lt_one
  have htree := buildTree_of_pair hleaves
  by_cases hle : freq.getD x 0 ≤ freq.getD y 0
  · rw [decide_eq_false (Nat.not_lt.2 hle), decide_eq_true hle]
    rw [if_pos (hbefore.2 hle)] at htree
    exact codesOf_of_pair htree hx hy hxy.ne
  · rw [decide_eq_true (Nat.lt_of_not_le hle), decide_eq_false hle]
    rw [if_neg (mt hbefore.1 hle)] at htree
    exact (codesOf_of_pair htree hy hx hxy.ne').symm

end

/-- Settles O33: `exists_code_iff`, `code_length` and `codesOf_of_two`; the tables of R208, R209 and R210 are
evaluated. -/
theorem codesExactlyObservedKeys : Obligations.CodesExactlyObservedKeys := by
  refine ⟨fun freq => ⟨codesOf_length freq, fun x hx => ⟨exists_code_iff hx, fun _ => code_length⟩⟩,
    fun freq x y hxy hy hcx hcy hother => codesOf_of_two hxy hy hcx hcy hother,
    ?_, ?_, ?_, ?_, ?_, ?_, ?_, validEntries_replicate_zero⟩
  all_goals decide +kernel

end Sys2Proof.Machine
end

