-- ==== Sys2Proof/Proofs/UnitBits.lean ====
section
/-! SUPPORT and PROOF. When the bit sequences of `EMIT` exist and what they are: a unit's, the units' and the whole
(spec/44_bitstream.md R220 to R227). -/

namespace Sys2Proof.Machine

variable {s : State} {code : Tables (List (Option Bits))} {t : TableId} {b : Bits}

/-! ### What has bits, and which -/

theorem lookup_eq_ok_iff {x : Nat} : lookup code t x = .ok b ↔ (code.get t)[x]? = some (some b) := by
  unfold lookup
  split <;> simp_all

theorem pairBits_cons_eq_ok_iff {p : RlePair} {ps : List RlePair} :
    pairBits code t (p :: ps) = .ok b ↔
      ∃ c bs, (code.get t)[keyByte p.sym]? = some (some c) ∧ pairBits code t ps = .ok bs ∧
        b = c ++ p.value ++ bs := by
  simp only [← lookup_eq_ok_iff, pairBits]
  cases lookup code t (keyByte p.sym) <;> cases pairBits code t ps <;> simp [eq_comm]

/-- R222. -/
theorem vecBits_eq_ok_iff {k : ChClass} {z : List Int} :
    vecBits code k z = .ok b ↔
      ∃ c bs, (code.get (dcTable k))[cat (z.headD 0)]? = some (some c) ∧
        pairBits code (acTable k) (rle z.tail) = .ok bs ∧ b = c ++ val (z.headD 0) ++ bs := by
  simp only [← lookup_eq_ok_iff, vecBits, acPairs]
  cases lookup code (dcTable k) (cat (z.headD 0)) <;> cases pairBits code (acTable k) (rle z.tail) <;>
    simp [eq_comm]

theorem unitsBits_cons_eq_ok_iff {u : Nat} {us : List Nat} :
    unitsBits s (u :: us) = .ok b ↔
      ∃ c bs, unitBits s u = .ok c ∧ unitsBits s us = .ok bs ∧ b = c ++ bs := by
  rw [unitsBits]
  cases unitBits s u <;> cases unitsBits s us <;> simp [eq_comm]

/-- R224. -/
theorem emitBits_eq_ok_iff :
    emitBits s = .ok b ↔
      ∃ bs, unitsBits s (List.range (unitTotal s)) = .ok bs ∧ b = bin 32 s.nblk.toNat ++ bs := by
  rw [emitBits]
  cases unitsBits s (List.range (unitTotal s)) <;> simp [eq_comm, headerBits]

/-- Settles O38: `vecBits_eq_ok_iff` with the pairs' bits of `pairBits_of_codes`. -/
theorem unitBitsInterleaveCodesAndValues : Obligations.UnitBitsInterleaveCodesAndValues := by
  intro s u c cs hdc hlen hac
  exact vecBits_eq_ok_iff.2 ⟨c, _, hdc, pairBits_of_codes s.code _ _ cs hlen hac, rfl⟩

/-! ### `EMIT` -/

/-- R220: `EMIT` in `TABLES` when the sequence exists. -/
theorem exec_emit_of_ok (hs : s.phase = .tables) (h : emitBits s = .ok b) : exec .emit s = .next (finishEmit b s) := by
  rw [exec, execEmit, inPhase_of_legal (by simp [hs]) (by simp [hs]), h]

/-- Settles O39: `unitsBits_of_ok` over all units, and the header's length. -/
theorem emitConcatenatesUnits : Obligations.EmitConcatenatesUnits := by
  intro s bs hs hlen hunits
  have hall : unitsBits s (List.range (unitTotal s)) = .ok bs.flatten := by
    refine unitsBits_of_ok s _ bs (by rw [hlen, List.length_range]) fun i u hi => ?_
    obtain ⟨hlt, rfl⟩ := List.getElem?_eq_some_iff.1 hi
    rw [List.length_range] at hlt
    rw [List.getElem_range]
    exact hunits i hlt
  rw [exec_emit_of_ok hs (emitBits_eq_ok_iff.2 ⟨_, hall, rfl⟩), finishEmit, List.length_append, bin_length]

/-! ### An image of no blocks -/

theorem codesOf_replicate_zero (n : Nat) : codesOf (List.replicate n 0) = List.replicate n none := by
  have hobs : observed (List.replicate n 0) = [] := by
    rw [observed_keys, List.map_eq_nil_iff, List.filter_eq_nil_iff]
    intro k hk
    rw [List.length_replicate, List.mem_range] at hk
    simp [hk]
  rw [codesOf, buildTree_none _ hobs]
  exact List.map_replicate

/-- R195, R227: without units no table has a code. -/
theorem builtCode_of_no_units (h : unitTotal s = 0) : builtCode s = invalidCode := by
  rw [builtCode, collect, h]
  simp [zeroFreq, invalidCode, Tables.of, Tables.map, codesOf_replicate_zero]

theorem mem_invalidCode {e : Option Bits} (h : e ∈ invalidCode.get t) : e = none := by
  cases t <;> exact List.eq_of_mem_replicate h

theorem validEntriesFrom_replicate_none (n x : Nat) : validEntriesFrom x (List.replicate n none) = [] := by
  induction n generalizing x with
  | zero => rfl
  | succ n ih => exact ih (x + 1)

/-- R227: the section of a table without a code is the line `0`. -/
theorem sectionLines_replicate_none (isDc : Bool) (n : Nat) :
    sectionLines isDc (List.replicate n none) = [0x30#8, lf] := by
  rw [sectionLines, validEntries, validEntriesFrom_replicate_none]
  rfl

/-- R227: the table file without a code. -/
theorem tableFile_invalidCode (w h : Word) :
    tableFile w h invalidCode = geometryLine w h ++ [0x30#8, lf, 0x30#8, lf, 0x30#8, lf, 0x30#8, lf] := by
  simp [tableFile, invalidCode, Tables.of, sectionLines_replicate_none]

/-- R227: the header of no blocks is four zero bytes. -/
theorem pack_header_zero : pack (bin 32 0) = [0#8, 0#8, 0#8, 0#8] := by decide

/-- R190: `BUILD` in `LOAD` with every unit loaded. -/
theorem exec_build_of_loaded (hs : s.phase = .load) (h : s.ldcnt.toNat = unitTotal s) :
    exec .build s = .next (buildTables s) := by
  rw [exec, execBuild, inPhase_of_legal (by simp [hs]) (by simp [hs]), if_pos h]

/-- Settles O50: without units `BUILD` leaves `invalidCode` and `EMIT` the header alone. -/
theorem emptyImageFiles : Obligations.EmptyImageFiles := by
  intro s hs hn hl
  have hunits : unitTotal s = 0 := by simp [unitTotal, hn]
  have hcode := builtCode_of_no_units hunits
  have hbits : emitBits (buildTables s) = .ok (bin 32 0) := by
    have hunits' : unitTotal (buildTables s) = 0 := hunits
    exact emitBits_eq_ok_iff.2 ⟨[], by rw [hunits']; rfl, by rw [buildTables_nblk, hn]; rfl⟩
  refine ⟨buildTables s, finishEmit (bin 32 0) (buildTables s), exec_build_of_loaded hs (by rw [hunits, hl]; rfl),
    exec_emit_of_ok rfl hbits, rfl, rfl, pack_header_zero, fun k e he => ?_, ?_⟩
  · rw [finishEmit_code, buildTables_code, hcode] at he
    exact mem_invalidCode he
  · rw [finishEmit_code, buildTables_code, hcode, tableFile_invalidCode, geometryLine]
    simp [lf, comma]

end Sys2Proof.Machine
end

