-- ==== Sys2Proof/Proofs/EmittedLength.lean ====
section
/-! SUPPORT and PROOF. In a state that meets the invariant every key of a unit has a code, and how long codes, units and
the bit sequence are (spec/43_huffman.md R204; spec/44_bitstream.md R229, R230). -/

namespace Sys2Proof.Machine

/-! ### The pairs of elements in range -/

section
variable {a : List Int} (ha : ∀ v ∈ a, v.natAbs ≤ 1023)
include ha

/-- R102, R174: what a pair of the encoder is when the elements are in range. -/
theorem possible_of_mem_rle {p : RlePair} (hp : p ∈ rle a) :
    possibleSym p.sym = true ∧ p.value.length = p.sym.cat ∧ p.sym.cat ≤ 10 := by
  obtain ⟨ps, hps, -, hpairs⟩ := rleByRun_shape a 0 (Nat.zero_le _)
  rw [rle_eq, hps, List.mem_append, List.mem_singleton] at hp
  obtain hp | rfl := hp
  · obtain ⟨hrun, hzero, hlen, v, hv, hcat⟩ := hpairs p hp
    have hle : p.sym.cat ≤ 10 := hcat ▸ cat_le v 10 (Nat.lt_succ_of_le (ha v hv))
    refine ⟨?_, hlen, hle⟩
    obtain h0 | hpos := Nat.eq_zero_or_pos p.sym.cat
    · simp [possibleSym, h0, hzero h0]
    · simp [possibleSym, hrun, hle, Nat.succ_le_of_lt hpos]
  · decide

/-- R230: 63 elements have at most 630 value bits. -/
theorem sum_value_length_rle_le (hlen : a.length = 63) : ((rle a).map fun p => p.value.length).sum ≤ 630 := by
  obtain ⟨ps, hps, hle, -⟩ := rleEndsWithOneTerminator a hlen
  have hvalue : ∀ n ∈ ps.map fun p => p.value.length, n ≤ 10 := by
    rw [List.forall_mem_map]
    intro p hp
    obtain ⟨-, hlen, hcat⟩ := possible_of_mem_rle ha (hps ▸ List.mem_append_left _ hp)
    exact hlen.trans_le hcat
  have hsum := List.sum_le_card_nsmul _ 10 hvalue
  rw [List.length_map, smul_eq_mul] at hsum
  rw [hps, List.map_append, List.sum_append]
  exact Nat.le_trans (Nat.add_le_add_right hsum _) (by simp [eob]; omega)

end

/-! ### Bits exist when the codes do -/

theorem exists_pairBits {code : Tables (List (Option Bits))} {t : TableId} {ps : List RlePair}
    (h : ∀ p ∈ ps, ∃ c, (code.get t)[keyByte p.sym]? = some (some c)) : ∃ b, pairBits code t ps = .ok b := by
  induction ps with
  | nil => exact ⟨[], rfl⟩
  | cons p ps ih =>
    obtain ⟨hp, hps⟩ := List.forall_mem_cons.1 h
    obtain ⟨c, hc⟩ := hp
    obtain ⟨bs, hbs⟩ := ih hps
    exact ⟨_, pairBits_cons_eq_ok_iff.2 ⟨c, bs, hc, hbs, rfl⟩⟩

section
variable {s : State} (h : s.Inv) (hbuilt : tablesBuilt s)
include h hbuilt

theorem coefs_inRange_of_built {u : Nat} (hu : u < unitTotal s) : vecInRange (coefs s u) := by
  obtain ⟨hall, -, -⟩ := hbuilt
  exact coefs_inRange h (hall ▸ hu)

/-- R229: the DC category of a unit was counted, so it has a code. -/
theorem exists_dcCode {u : Nat} (hu : u < unitTotal s) :
    ∃ c, (s.code.get (dcTable (unitClass s u)))[cat ((coefs s u).headD 0)]? = some (some c) := by
  obtain ⟨-, hdc, -⟩ := coefs_inRange_of_built h hbuilt hu
  obtain ⟨-, hcode, -⟩ := hbuilt
  have hcat : cat ((coefs s u).headD 0) < 12 :=
    Nat.lt_succ_of_le (cat_le _ 11 (Nat.lt_of_le_of_lt hdc (by decide)))
  have hmem : cat ((coefs s u).headD 0) ∈ dcKeys s (unitClass s u) (List.range (unitTotal s)) :=
    List.mem_map.2 ⟨u, by simp [classUnits, hu], rfl⟩
  rw [hcode, builtCode_get, exists_code_iff (by rw [collect_get_dcTable]; simpa using hcat), collect_get_dcTable,
    getD_map_range _ hcat]
  exact List.count_pos_iff.2 hmem

/-- R229: the symbols of a unit were counted, so they have codes. -/
theorem exists_acCode {u : Nat} (hu : u < unitTotal s) {p : RlePair} (hp : p ∈ rle (coefs s u).tail) :
    ∃ c, (s.code.get (acTable (unitClass s u)))[keyByte p.sym]? = some (some c) := by
  obtain ⟨-, -, hac⟩ := coefs_inRange_of_built h hbuilt hu
  obtain ⟨-, hcode, -⟩ := hbuilt
  obtain ⟨hsym, -, -⟩ := possible_of_mem_rle hac hp
  obtain ⟨hkey, -⟩ := keyByte_of_possible hsym
  have hmem : keyByte p.sym ∈ acKeys s (unitClass s u) (List.range (unitTotal s)) :=
    List.mem_flatMap.2 ⟨u, by simp [classUnits, hu], List.mem_map_of_mem hp⟩
  rw [hcode, builtCode_get, exists_code_iff (by rw [collect_get_acTable]; simpa using hkey), collect_get_acTable,
    getD_map_range _ hkey]
  exact List.count_pos_iff.2 hmem

theorem exists_unitBits {u : Nat} (hu : u < unitTotal s) : ∃ b, unitBits s u = .ok b := by
  obtain ⟨c, hc⟩ := exists_dcCode h hbuilt hu
  obtain ⟨bs, hbs⟩ := exists_pairBits fun p hp => exists_acCode h hbuilt hu (p := p) hp
  exact ⟨_, vecBits_eq_ok_iff.2 ⟨c, bs, hc, hbs, rfl⟩⟩

end

/-- Settles O41: `exists_unitBits` for every unit, and then O39. -/
theorem emitNeverInconsistent : Obligations.EmitNeverInconsistent := by
  intro s h hs
  obtain ⟨hbuilt, -⟩ := h.inTables hs
  choose! f hf using fun (u : Nat) (hu : u < unitTotal s) => exists_unitBits h hbuilt hu
  have hlen : ((List.range (unitTotal s)).map f).length = unitTotal s := by simp
  have hunits : ∀ u < unitTotal s, unitBits s u = .ok (((List.range (unitTotal s)).map f).getD u []) := by
    intro u hu
    rw [hf u hu]
    simp [hu]
  exact ⟨_, hlen, hunits, emitConcatenatesUnits s _ hs hlen hunits⟩

/-! ### The length of a code -/

/-- R204: a code is shorter than the number of observed keys, but for a single key. -/
theorem code_length_le {freq : List Nat} {n x : Nat} {b : Bits} (hn : 1 ≤ n) (hobs : (observed freq).length ≤ n + 1)
    (h : (codesOf freq)[x]? = some (some b)) : b.length ≤ n := by
  obtain ⟨hx, -⟩ := List.getElem?_eq_some_iff.1 h
  rw [codesOf_length] at hx
  have hpos : 0 < (observed freq).length := by
    rw [← List.length_map (f := Prod.fst)]
    exact List.length_pos_of_mem ((mem_observed_keys_iff hx).2 ((exists_code_iff hx).1 ⟨b, h⟩))
  obtain ⟨-, hone, hmany⟩ := code_length h
  obtain h1 | h2 : (observed freq).length = 1 ∨ 2 ≤ (observed freq).length := by omega
  · rw [hone h1]; exact hn
  · have := hmany h2; omega

/-- The key bytes of the 162 symbols (R102). -/
def possibleKeys : List Nat := (List.range 256).filter fun x => possibleSym (symOfKey x)

theorem possibleKeys_length : possibleKeys.length = 162 := by decide +kernel

theorem observed_keys_nodup (freq : List Nat) : ((observed freq).map Prod.fst).Nodup := by
  obtain ⟨l, -, hperm, hnodup, -⟩ := codes_spec freq
  exact hperm.nodup_iff.1 hnodup

/-- R230: of the 12 categories none has a code of more than 11 bits. -/
theorem dcCode_length {s : State} (hbuilt : tablesBuilt s) (k : ChClass) {x : Nat} {c : Bits}
    (hc : (s.code.get (dcTable k))[x]? = some (some c)) :
    1 ≤ c.length ∧ c.length ≤ 11 := by
  have hobs : (observed ((collect s).get (dcTable k))).length ≤ 12 := by
    rw [observed_keys, List.length_map]
    refine (List.length_filter_le _ _).trans_eq ?_
    rw [collect_get_dcTable, List.length_range, List.length_map, List.length_range]
  obtain ⟨-, hcode, -⟩ := hbuilt
  rw [hcode, builtCode_get] at hc
  exact ⟨(code_length hc).1, code_length_le (by decide) hobs hc⟩

section
variable {s : State} (h : s.Inv) (hbuilt : tablesBuilt s) (k : ChClass)
include h hbuilt

theorem mem_possibleKeys_of_observed {x : Nat} (hx : x ∈ (observed ((collect s).get (acTable k))).map Prod.fst) :
    x ∈ possibleKeys := by
  obtain ⟨hlt, hcount⟩ := obs_lt hx
  rw [collect_get_acTable, List.length_map, List.length_range] at hlt
  rw [collect_get_acTable, getD_map_range _ hlt, List.count_pos_iff, acKeys, List.mem_flatMap] at hcount
  obtain ⟨u, hu, hkey⟩ := hcount
  obtain ⟨p, hp, rfl⟩ := List.mem_map.1 hkey
  obtain ⟨hall, -, -⟩ := hbuilt
  obtain ⟨-, -, hac⟩ := classUnits_inRange h hall k hu
  obtain ⟨hsym, -, -⟩ := possible_of_mem_rle hac hp
  obtain ⟨-, hinv⟩ := keyByte_of_possible hsym
  exact List.mem_filter.2 ⟨List.mem_range.2 hlt, by rw [hinv]; exact hsym⟩

/-- R230: of the 162 symbols none has a code of more than 161 bits. -/
theorem acCode_length {x : Nat} {c : Bits} (hc : (s.code.get (acTable k))[x]? = some (some c)) :
    1 ≤ c.length ∧ c.length ≤ 161 := by
  have hobs : (observed ((collect s).get (acTable k))).length ≤ 162 := by
    rw [← List.length_map (f := Prod.fst), ← possibleKeys_length]
    exact (List.subperm_of_subset (observed_keys_nodup _)
      fun _ => mem_possibleKeys_of_observed h hbuilt k).length_le
  obtain ⟨-, hcode, -⟩ := hbuilt
  rw [hcode, builtCode_get] at hc
  exact ⟨(code_length hc).1, code_length_le (by decide) hobs hc⟩

end

/-! ### The length of a unit and of the sequence -/

/-- The bits of pairs: at least one for each code, at most `m`, and the values. -/
theorem pairBits_length {code : Tables (List (Option Bits))} {t : TableId} {m : Nat}
    (hcode : ∀ (x : Nat) (c : Bits), (code.get t)[x]? = some (some c) → 1 ≤ c.length ∧ c.length ≤ m)
    (ps : List RlePair) : ∀ b, pairBits code t ps = .ok b →
      ps.length ≤ b.length ∧ b.length ≤ m * ps.length + (ps.map fun p => p.value.length).sum := by
  induction ps with
  | nil => rintro b ⟨⟩; exact ⟨Nat.le_refl _, Nat.zero_le _⟩
  | cons p ps ih =>
    intro b hb
    obtain ⟨c, bs, hc, hbs, rfl⟩ := pairBits_cons_eq_ok_iff.1 hb
    have hlc := hcode _ c hc
    have hlbs := ih bs hbs
    simp only [List.length_cons, List.length_append, List.map_cons, List.sum_cons, Nat.mul_succ]
    omega

/-- R230: a unit has 2 to 10956 bits. -/
theorem unitBits_length {s : State} (h : s.Inv) (hbuilt : tablesBuilt s) {u : Nat} (hu : u < unitTotal s) {b : Bits}
    (hb : unitBits s u = .ok b) : 2 ≤ b.length ∧ b.length ≤ 10956 := by
  obtain ⟨hlen, hdc, hac⟩ := coefs_inRange_of_built h hbuilt hu
  obtain ⟨c, bs, hc, hbs, rfl⟩ := vecBits_eq_ok_iff.1 hb
  have htail : (coefs s u).tail.length = 63 := by rw [List.length_tail, hlen]
  have hpairs := pairBits_length (fun _ _ => acCode_length h hbuilt _) _ _ hbs
  have hvalues := sum_value_length_rle_le hac htail
  have hcat := cat_le ((coefs s u).headD 0) 11 (Nat.lt_of_le_of_lt hdc (by decide))
  have hlc := dcCode_length hbuilt _ hc
  obtain ⟨ps, hps, hle, -⟩ := rleEndsWithOneTerminator _ htail
  have hcount := congrArg List.length hps
  simp only [List.length_append, List.length_singleton, val_length] at hcount ⊢
  omega

theorem unitsBits_length {s : State} {lo hi : Nat} (us : List Nat)
    (hunit : ∀ u ∈ us, ∀ b, unitBits s u = .ok b → lo ≤ b.length ∧ b.length ≤ hi) :
    ∀ b, unitsBits s us = .ok b → lo * us.length ≤ b.length ∧ b.length ≤ hi * us.length := by
  induction us with
  | nil => rintro b ⟨⟩; exact ⟨Nat.le_refl _, Nat.zero_le _⟩
  | cons u us ih =>
    intro b hb
    obtain ⟨c, bs, hc, hbs, rfl⟩ := unitsBits_cons_eq_ok_iff.1 hb
    obtain ⟨hu, hus⟩ := List.forall_mem_cons.1 hunit
    have hlc := hu c hc
    have hlbs := ih hus bs hbs
    simp only [List.length_cons, List.length_append, Nat.mul_succ]
    omega

/-- Settles O42: `unitBits_length` summed over the units of the sequence that the invariant says stands in `DONE`; below
`2^40` units of at most 10956 bits keep `BITLEN` exact. -/
theorem bitLengthBounds : Obligations.BitLengthBounds := by
  intro s h hs
  obtain ⟨hbuilt, hemit, hbitlen⟩ := h.inDone hs
  obtain ⟨bs, hbs, hbuf⟩ := emitBits_eq_ok_iff.1 hemit
  have hunits := unitsBits_length _
    (fun u hu b => unitBits_length h hbuilt (List.mem_range.1 hu) (b := b)) bs hbs
  have hbufLen : s.bitbuf.length = 32 + bs.length := by rw [hbuf, List.length_append, bin_length]
  have htotal := unitTotal_lt s h
  rw [List.length_range] at hunits
  have hexact : s.bitlen.toNat = s.bitbuf.length := by
    rw [hbitlen, BitVec.toNat_ofNat]
    exact Nat.mod_eq_of_lt (by omega)
  omega

end Sys2Proof.Machine
end

