-- ==== Sys2Proof/Proofs/DataFile.lean ====
section
/-! SUPPORT and PROOF. The reader of the data file undoes `EMIT` and the packing (spec/44_bitstream.md R231). -/

namespace Sys2Proof.Machine

/-! ### Matching the codes of a table -/

theorem mem_validEntries_iff {code : List (Option Bits)} {x : Nat} {c : Bits} :
    (x, c) ∈ validEntries code ↔ code[x]? = some (some c) := by
  simp [validEntries, mem_validEntriesFrom]

/-- R231: where no other code begins like `c`, the entry whose code stands first is found, whatever follows. -/
theorem matchCode_append {es : List (Nat × Bits)} {x : Nat} {c : Bits} (hmem : (x, c) ∈ es)
    (hfree : ∀ e ∈ es, e ≠ (x, c) → ¬ e.2 <+: c ∧ ¬ c <+: e.2) (rest : Bits) :
    matchCode es (c ++ rest) = some (x, rest) := by
  induction es with
  | nil => cases hmem
  | cons e es ih =>
    obtain ⟨y, d⟩ := e
    rw [matchCode]
    by_cases he : (y, d) = (x, c)
    · cases he
      rw [dropPrefix_append]
    · obtain ⟨hdc, hcd⟩ := hfree _ List.mem_cons_self he
      split
      · next rest' hdrop =>
        have hd : d <+: c ++ rest := ⟨rest', dropPrefix_some hdrop⟩
        exact absurd (List.prefix_or_prefix_of_prefix hd (List.prefix_append c rest)) (not_or.2 ⟨hdc, hcd⟩)
      · exact ih ((List.mem_cons.1 hmem).resolve_left (Ne.symm he)) fun e' he' => hfree e' (List.mem_cons_of_mem _ he')

/-- R205 (a), R231: the codes of a frequency table are told apart. -/
theorem matchCode_codesOf {freq : List Nat} {x : Nat} {c : Bits} (h : (codesOf freq)[x]? = some (some c))
    (rest : Bits) : matchCode (validEntries (codesOf freq)) (c ++ rest) = some (x, rest) := by
  obtain ⟨l, hcodes, hperm, hnodup, hfree, -⟩ := codes_spec freq
  have hmem : ∀ y d, (y, d) ∈ validEntries (codesOf freq) ↔ (y, d) ∈ l := fun y d =>
    mem_validEntries_iff.trans (codesOf_get hcodes hnodup (fun k hk => (obs_lt (hperm.mem_iff.1 hk)).1) y d)
  have hxc := mem_validEntries_iff.2 h
  refine matchCode_append hxc (fun e he hne => ?_) rest
  have : Std.Symm fun d e : Nat × Bits => ¬ d.2 <+: e.2 ∧ ¬ e.2 <+: d.2 := ⟨fun _ _ => And.symm⟩
  exact hfree.forall ((hmem _ _).1 he) ((hmem _ _).1 hxc) hne

theorem matchCode_builtCode {s : State} {t : TableId} {x : Nat} {c : Bits}
    (h : ((builtCode s).get t)[x]? = some (some c)) (rest : Bits) :
    matchCode (validEntries ((builtCode s).get t)) (c ++ rest) = some (x, rest) := by
  rw [builtCode_get] at h ⊢
  exact matchCode_codesOf h rest

/-! ### Pairs, units and the sequence -/

/-- R231: the pairs up to the terminator are read back from their bits. -/
theorem readPairs_of_pairBits {s : State} {t : TableId} (ps : List RlePair)
    (hps : ∀ p ∈ ps, p.sym ≠ { run := 0, cat := 0 } ∧ possibleSym p.sym = true ∧ p.value.length = p.sym.cat) :
    ∀ (fuel : Nat) (b rest : Bits), ps.length < fuel → pairBits (builtCode s) t (ps ++ [eob]) = .ok b →
      readPairs (validEntries ((builtCode s).get t)) fuel (b ++ rest) = some (ps ++ [eob], rest) := by
  induction ps with
  | nil =>
    intro fuel b rest hfuel hb
    obtain ⟨fuel, rfl⟩ := Nat.exists_eq_succ_of_ne_zero (Nat.ne_of_gt hfuel)
    obtain ⟨c, bs, hc, ⟨⟩, rfl⟩ := pairBits_cons_eq_ok_iff.1 hb
    have hbits : c ++ eob.value ++ [] ++ rest = c ++ rest := by simp [eob]
    rw [hbits, readPairs, matchCode_builtCode hc]
    simp [eob, keyByte, symOfKey]
  | cons p ps ih =>
    intro fuel b rest hfuel hb
    obtain ⟨fuel, rfl⟩ := Nat.exists_eq_succ_of_ne_zero (Nat.ne_zero_of_lt hfuel)
    obtain ⟨c, bs, hc, hbs, rfl⟩ := pairBits_cons_eq_ok_iff.1 hb
    obtain ⟨⟨hne, hsym, hlen⟩, hps⟩ := List.forall_mem_cons.1 hps
    obtain ⟨-, hinv⟩ := keyByte_of_possible hsym
    have hkey : keyByte p.sym ≠ 0 := mt keyByte_eq_zero_iff.1 hne
    have hread := ih hps fuel bs rest (Nat.lt_of_succ_lt_succ hfuel) hbs
    rw [List.append_assoc, List.append_assoc, readPairs, matchCode_builtCode hc]
    simp [hinv, hkey, ← hlen, hread]

/-- R231: a unit is read back from its bits. -/
theorem readVec_of_unitBits {s : State} (h : s.Inv) (hbuilt : tablesBuilt s) {u : Nat} (hu : u < unitTotal s)
    {b : Bits} (hb : unitBits s u = .ok b) (rest : Bits) :
    readVec (validEntries (s.code.get (dcTable (unitClass s u)))) (validEntries (s.code.get (acTable (unitClass s u))))
      (b ++ rest) = some (coefs s u, rest) := by
  obtain ⟨hlen, -, hac⟩ := coefs_inRange_of_built h hbuilt hu
  obtain ⟨-, hcode, -⟩ := hbuilt
  obtain ⟨c, bs, hc, hbs, rfl⟩ := vecBits_eq_ok_iff.1 hb
  have htail : (coefs s u).tail.length = 63 := by rw [List.length_tail, hlen]
  obtain ⟨ps, hps, hle, hne⟩ := rleEndsWithOneTerminator _ htail
  have hpairs : ∀ p ∈ ps,
      p.sym ≠ { run := 0, cat := 0 } ∧ possibleSym p.sym = true ∧ p.value.length = p.sym.cat := by
    intro p hp
    obtain ⟨hsym, hvalue, -⟩ := possible_of_mem_rle hac (hps ▸ List.mem_append_left _ hp)
    exact ⟨hne p hp, hsym, hvalue⟩
  rw [hcode] at hc hbs ⊢
  rw [hps] at hbs
  have hread := readPairs_of_pairBits ps hpairs 64 bs rest (Nat.lt_succ_of_le hle) hbs
  have hvec : valInverse (val ((coefs s u).headD 0)) :: unrle (ps ++ [eob]) = coefs s u := by
    rw [valInverse_val, ← hps, rleIsInvertible _ htail]
    match coefs s u, hlen with
    | _ :: _, _ => rfl
  rw [List.append_assoc, List.append_assoc, readVec, matchCode_builtCode hc]
  simp only [← val_length, List.length_append, List.take_left, List.drop_left, hread, hvec]
  rw [if_neg (by omega)]

theorem readUnits_of_unitsBits {s : State} (h : s.Inv) (hbuilt : tablesBuilt s) (us : List Nat)
    (hus : ∀ u ∈ us, u < unitTotal s) : ∀ b rest : Bits, unitsBits s us = .ok b →
      readUnits s.code (us.map (unitClass s)) (b ++ rest) = some (us.map (coefs s), rest) := by
  induction us with
  | nil => rintro b rest ⟨⟩; rfl
  | cons u us ih =>
    intro b rest hb
    obtain ⟨c, bs, hc, hbs, rfl⟩ := unitsBits_cons_eq_ok_iff.1 hb
    obtain ⟨hu, hus⟩ := List.forall_mem_cons.1 hus
    rw [List.map_cons, readUnits, List.append_assoc, readVec_of_unitBits h hbuilt hu hc]
    simp [ih hus bs rest hbs]

/-- Settles O44: unpacking gives the sequence and its padding; the header is read as `NBLK`, and the units are read back
with the padding left over. -/
theorem dataFileDecodesToCoefficients : Obligations.DataFileDecodesToCoefficients := by
  intro s h hs
  obtain ⟨hbuilt, hemit, -⟩ := h.inDone hs
  obtain ⟨bs, hbs, hbuf⟩ := emitBits_eq_ok_iff.1 hemit
  obtain ⟨pad, hpad⟩ : ∃ pad, unpack (pack s.bitbuf) = bin 32 s.nblk.toNat ++ (bs ++ pad) :=
    ⟨_, by rw [unpack_pack, padBits, hbuf, List.append_assoc]⟩
  have hhead : (bin 32 s.nblk.toNat).length = 32 := bin_length 32 _
  have hnblk : ofBits (bin 32 s.nblk.toNat) = s.nblk.toNat := by
    rw [ofBits_bin, Nat.mod_eq_of_lt s.nblk.isLt]
  have hclasses : unitClasses s.cfg.nch s.nblk.toNat = (List.range (unitTotal s)).map (unitClass s) := rfl
  have hread := readUnits_of_unitsBits h hbuilt _ (fun u => List.mem_range.1) bs pad hbs
  rw [readDataFile, hpad]
  simp [List.take_left' hhead, List.drop_left' hhead, hhead, hnblk, hclasses, hread]

end Sys2Proof.Machine
end

