-- ==== Sys2Proof/Proofs/FaultCauses.lean ====
section
/-! SUPPORT and PROOF. The causes `IllegalCommand`, `CapacityExceeded` and `PathNotFound`, and what `FAULT` ignores
(spec/60_exceptions.md R262, R264, R266, R269). -/

namespace Sys2Proof.Machine

variable {s : State}

/-! ### A step that consumes a command or an illegal header -/

section
variable {rest : List Word} (hr : s.rst = false)
include hr

theorem step_of_command {i : Instr} (h : decode s.cs = .command i rest) :
    step s = exec i { s with cs := rest } := by
  simp [step, hr, h]

theorem step_of_illegal {w : Word} (h : decode s.cs = .illegal w rest) :
    step s = illegalHeader w { s with cs := rest } := by
  simp [step, hr, h]

end

theorem illegalHeader_of_fault (w : Word) (h : s.phase = .fault) : illegalHeader w s = .next s := if_pos h

theorem illegalHeader_of_ne_fault (w : Word) (h : s.phase ≠ .fault) :
    illegalHeader w s = .next (raise .illegalCommand w s) := if_neg h

/-- Settles O8: outside `FAULT` an illegal header raises `IllegalCommand` in the state with its words consumed. -/
theorem illegalCommandTaken : Obligations.IllegalCommandTaken :=
  fun _ w _ hr hs h => (step_of_illegal hr h).trans (illegalHeader_of_ne_fault w hs)

/-! ### The phase `FAULT` -/

/-- R93: the decoder takes as many payload words as the header announces, so what it yields is well formed. -/
theorem wellFormed_of_decode {ws rest : List Word} {i : Instr} (h : decode ws = .command i rest) :
    i.wellFormed = true := by
  cases ws with
  | nil => cases h
  | cons w ws =>
    rw [decode] at h
    split at h
    · cases h
    · next hlen =>
      have htake : (ws.take (payloadCount w)).length = payloadCount w :=
        List.length_take_of_le (Nat.le_of_not_lt hlen)
      split at h <;> cases h
      next hi =>
      obtain ⟨hz, hi⟩ := Option.ite_none_right_eq_some.1 hi
      obtain ⟨-, -, hwf⟩ := instrOf_eq_some hi (by rw [headerWord_opField hz, htake])
      exact hwf

/-- R269 for a command: but for `NOP`, which does nothing in any phase, it is `inPhase` that ignores it. -/
theorem exec_of_fault {i : Instr} (hi : i ≠ .init) (hwf : i.wellFormed = true) (hs : s.phase = .fault) :
    exec i s = .next s := by
  cases i with
  | nop => rfl
  | init => exact absurd rfl hi
  | ldblk p => exact (if_pos (of_decide_eq_true hwf)).trans (inPhase_of_fault hs)
  | setw | seth | setn | begin | build | emit | wrtab | wrdat =>
    simp only [exec, execSetw, execSeth, execSetn, execBegin, execBuild, execEmit, execWrtab, execWrdat,
      inPhase_of_fault hs]

/-- Settles O9: `exec_of_fault` for what the decoder yields, and `illegalHeader_of_fault`. -/
theorem faultPhaseIgnores : Obligations.FaultPhaseIgnores := fun _ _ hr hs =>
  ⟨fun _ hi h => (step_of_command hr h).trans (exec_of_fault hi (wellFormed_of_decode h) hs),
    fun w h => (step_of_illegal hr h).trans (illegalHeader_of_fault w hs)⟩

/-! ### `BEGIN` -/

theorem exec_begin_of_le (hs : s.phase = .idle) (h : s.nblk.toNat ≤ s.cfg.maxN) :
    exec .begin s = .next (beginLoad s) := by
  rw [exec, execBegin, inPhase_idle hs, if_neg h.not_gt]

theorem exec_begin_of_gt (hs : s.phase = .idle) (h : s.cfg.maxN < s.nblk.toNat) :
    exec .begin s = .next (raise .capacityExceeded s.nblk s) := by
  rw [exec, execBegin, inPhase_idle hs, if_pos h]

/-- Settles O17: `BEGIN` on the two sides of the capacity. -/
theorem beginEntersLoadWithinCapacity : Obligations.BeginEntersLoadWithinCapacity :=
  fun _ hs => ⟨exec_begin_of_le hs, exec_begin_of_gt hs⟩

/-! ### Absent sinks -/

section
variable (hs : s.phase = .done)
include hs

theorem inPhase_done {op : BitVec 8} {body : State → Result} : inPhase op [.done] body s = body s :=
  inPhase_of_legal (by simp [hs]) (by simp [hs])

theorem exec_wrtab_of_absent (h : sinkAnswer s 0 = false) :
    exec .wrtab s = .next (raise .pathNotFound 0#32 (answerUsed s)) := by
  simp [exec, execWrtab, inPhase_done hs, writeTable, h]

theorem exec_wrdat_of_absent (h : sinkAnswer s 1 = false) :
    exec .wrdat s = .next (raise .pathNotFound 1#32 (answerUsed s)) := by
  simp [exec, execWrdat, inPhase_done hs, writeData, h]

end

/-- A question to a sink uses up nothing but its answer: with the queue put back, the raise is that of the state before
(R70, R268). -/
theorem raise_answerUsed (k : FaultKind) (info : Word) (s : State) :
    { raise k info (answerUsed s) with answers := s.answers, asked := s.asked } = raise k info s := rfl

/-- Settles O47: both commands raise `PathNotFound` after the question, which `raise_answerUsed` shows to be the only
other change. -/
theorem absentSinkRaises : Obligations.AbsentSinkRaises := fun s hs =>
  ⟨fun h => ⟨_, exec_wrtab_of_absent hs h, raise_answerUsed _ _ s⟩,
    fun h => ⟨_, exec_wrdat_of_absent hs h, raise_answerUsed _ _ s⟩⟩

end Sys2Proof.Machine
end

