-- ==== Sys2Proof/Proofs/CommandStream.lean ====
section
/-! SUPPORT and PROOF. The decoder said once, header word by header word; the two directions of the encoding and the step
that the decoder's answer selects (spec/30_encoding.md R90 to R98; spec/20_memory.md R75, R78). -/

namespace Sys2Proof.Machine

variable {w : Word} {ws rest : List Word} {i : Instr}

/-! ### What the decoder answers -/

/-- R78: only a missing word makes the decoder wait. -/
theorem decode_cons_eq_waiting_iff : decode (w :: ws) = .waiting ↔ ws.length < payloadCount w := by
  rw [decode]
  split
  · simp [*]
  · split <;> simp [*]

/-- R93: the rest of the stream after a command is what stands after the payload its header announces. -/
theorem decode_cons_eq_command_iff :
    decode (w :: ws) = .command i rest ↔
      payloadCount w ≤ ws.length ∧ decodeCommand w (ws.take (payloadCount w)) = some i ∧
        rest = ws.drop (payloadCount w) := by
  rw [decode]
  split
  · next h => simp [h]
  · next h => cases decodeCommand w (ws.take (payloadCount w)) <;> simp [Nat.le_of_not_lt h, eq_comm]

/-- R93, R96: the payload of an illegal header is consumed with it. -/
theorem decode_cons_eq_illegal_iff {h : Word} :
    decode (w :: ws) = .illegal h rest ↔
      payloadCount w ≤ ws.length ∧ decodeCommand w (ws.take (payloadCount w)) = none ∧ h = w ∧
        rest = ws.drop (payloadCount w) := by
  rw [decode]
  split
  · next h => simp [h]
  · next h => cases decodeCommand w (ws.take (payloadCount w)) <;> simp [Nat.le_of_not_lt h, eq_comm]

theorem decodeCommand_eq_some_iff {p : List Word} :
    decodeCommand w p = some i ↔ rsvdField w = 0#24 ∧ instrOf (opField w) p = some i :=
  Option.ite_none_right_eq_some

/-! ### The two directions of the encoding -/

/-- Settles O2: the header announces as many words as the payload has, so the decoder takes exactly the payload, and the
opcode map gives the command back. -/
theorem decodeOfEncode : Obligations.DecodeOfEncode := by
  intro i rest hwf
  have hlen := payload_length hwf
  rw [encode, List.cons_append, decode_cons_eq_command_iff, ← hlen, List.take_left, List.drop_left,
    decodeCommand_eq_some_iff, opField_headerWord]
  exact ⟨by simp, ⟨rsvdField_headerWord _, instrOf_opcode_payload i⟩, rfl⟩

/-- Settles O3: the header is that of its own opcode (`headerWord_opField`), the payload is the words taken, and these
and the rest are the whole stream. -/
theorem encodeOfDecode : Obligations.EncodeOfDecode := by
  intro ws i rest h
  refine ⟨wellFormed_of_decode h, ?_⟩
  cases ws with
  | nil => cases h
  | cons w ws =>
    obtain ⟨hlen, hdec, rfl⟩ := decode_cons_eq_command_iff.1 h
    obtain ⟨hz, hi⟩ := decodeCommand_eq_some_iff.1 hdec
    have htake : (ws.take (payloadCount w)).length = payloadCount w := List.length_take_of_le hlen
    obtain ⟨hop, hpay, -⟩ := instrOf_eq_some hi (by rw [headerWord_opField hz, htake])
    rw [encode, hop, hpay, headerWord_opField hz, List.cons_append, List.take_append_drop]

/-- Settles O1: the eleven encodings are computed. -/
theorem specWordsDecode : Obligations.SpecWordsDecode := by
  refine ⟨?_, ?_, ?_, ?_, ?_, ?_, ?_, ?_, ?_, ?_, ?_⟩ <;> decide

/-! ### The meaning of a header word -/

theorem toNat_opField (w : Word) : (opField w).toNat = w.toNat / 2 ^ 24 := by
  have := w.isLt
  simp only [opField, BitVec.extractLsb'_toNat, Nat.shiftRight_eq_div_pow]
  omega

theorem toNat_rsvdField (w : Word) : (rsvdField w).toNat = w.toNat % 2 ^ 24 := by
  simp [rsvdField]

theorem opField_eq_iff {w : Word} {op : BitVec 8} : opField w = op ↔ w.toNat / 2 ^ 24 = op.toNat := by
  rw [← BitVec.toNat_inj, toNat_opField]

theorem rsvdField_eq_zero_iff {w : Word} : rsvdField w = 0#24 ↔ w.toNat % 2 ^ 24 = 0 := by
  rw [← BitVec.toNat_inj, toNat_rsvdField]
  rfl

/-- R93. -/
theorem payloadCount_eq (w : Word) :
    payloadCount w =
      if w.toNat / 2 ^ 24 ∈ [2, 3, 4] then 1 else if w.toNat / 2 ^ 24 = 16 then 64 else 0 := by
  simp only [payloadCount, opField_eq_iff, List.mem_cons, List.not_mem_nil, or_false]
  rfl

/-- R92: the opcode map has a command for the eleven listed opcodes, given the payload that R93 announces. -/
theorem exists_instrOf_iff {op : BitVec 8} {p : List Word} (hp : p.length = payloadCount (headerWord op)) :
    (∃ i, instrOf op p = some i) ↔
      op ∈ [0x00#8, 0x01#8, 0x02#8, 0x03#8, 0x04#8, 0x05#8, 0x10#8, 0x20#8, 0x30#8, 0x40#8, 0x41#8] := by
  constructor
  · rintro ⟨i, hi⟩
    obtain ⟨rfl, -⟩ := instrOf_eq_some hi hp
    cases i <;> simp [Instr.opcode]
  · simp only [List.mem_cons, List.not_mem_nil, or_false]
    rintro (rfl | rfl | rfl | rfl | rfl | rfl | rfl | rfl | rfl | rfl | rfl)
    case inr.inr.inl | inr.inr.inr.inl | inr.inr.inr.inr.inl =>
      obtain ⟨n, rfl⟩ := List.length_eq_one_iff.1 hp
      exact ⟨_, rfl⟩
    all_goals exact ⟨_, rfl⟩

/-- R96. -/
theorem exists_decodeCommand_iff {p : List Word} (hp : p.length = payloadCount w) :
    (∃ i, decodeCommand w p = some i) ↔
      w.toNat % 2 ^ 24 = 0 ∧ w.toNat / 2 ^ 24 ∈ [0, 1, 2, 3, 4, 5, 0x10, 0x20, 0x30, 0x40, 0x41] := by
  have hcount : p.length = payloadCount (headerWord (opField w)) := by
    rw [hp, payloadCount, payloadCount, opField_headerWord]
  simp only [decodeCommand_eq_some_iff, exists_and_left, rsvdField_eq_zero_iff, exists_instrOf_iff hcount,
    List.mem_cons, List.not_mem_nil, or_false, opField_eq_iff]
  rfl

/-- Settles O4: `payloadCount_eq` for the counts; with its payload present a header is illegal exactly when
`decodeCommand` yields none, and `exists_decodeCommand_iff` says when it yields a command. -/
theorem headerHasOneMeaning : Obligations.HeaderHasOneMeaning := by
  intro w ws
  rw [payloadCount_eq]
  refine ⟨fun h => if_pos h, fun h => ?_, fun h => ?_, fun hlen => ?_⟩
  · rw [h]; rfl
  · rw [if_neg fun h' => h (List.mem_append_left [16] h'), if_neg fun h' => h (by rw [h']; decide)]
  · rw [← payloadCount_eq] at hlen ⊢
    have hcommand := exists_decodeCommand_iff (List.length_take_of_le hlen)
    constructor
    · rw [decode_cons_eq_illegal_iff, ← hcommand, not_exists, Option.eq_none_iff_forall_ne_some]
      simp [hlen]
    · simp only [decode_cons_eq_command_iff, hlen, true_and, and_true, hcommand]

/-! ### Waiting and stepping -/

/-- Settles O5: `decode_cons_eq_waiting_iff` for a stream with a header; an empty stream waits. -/
theorem incompleteCommandWaits : Obligations.IncompleteCommandWaits := by
  refine ⟨fun ws => ?_, fun s hr hd => by simp [step, hr, hd]⟩
  cases ws with
  | nil => simp [decode]
  | cons w ws => simp [decode_cons_eq_waiting_iff]

/-- Settles O6: `step_of_command`, with O2 for a stream that begins with a command's words; taking the reset is `INIT` by
definition. -/
theorem stepRunsDecodedCommand : Obligations.StepRunsDecodedCommand :=
  ⟨fun _ _ _ hr hd => step_of_command hr hd,
    fun _ i rest hr hwf hcs => step_of_command hr (hcs ▸ decodeOfEncode i rest hwf), fun _ hr => if_pos hr⟩

end Sys2Proof.Machine
end

