-- ==== Sys2Proof/Proofs/Completion.lean ====
section
/-! SUPPORT and PROOF. What the commands answer: outside their legal phases and below their counts, in `INIT` and after
reset, in `WRTAB` and `WRDAT` with the sink present; and that each answers a next state (spec/40_control_commands.md R130
to R134; spec/60_exceptions.md R265; spec/70_reset_and_hazards.md R312; spec/45_container.md R240, R248). -/

namespace Sys2Proof.Machine

variable {s : State}

/-! ### Commands out of order -/

/-- R131: a command outside its legal phases does nothing but raise `IllegalSequence`. -/
theorem exec_of_not_legal {i : Instr} (hwf : i.wellFormed = true) (hf : s.phase ≠ .fault)
    (hl : legalIn i s.phase = false) :
    exec i s = .next (raise .illegalSequence (sequenceInfo i.opcode s.phase) s) := by
  cases i with
  | nop | init => cases hl
  | ldblk p =>
    exact (if_pos (of_decide_eq_true hwf)).trans (inPhase_of_illegal hf (by simpa [legalIn] using hl))
  | setw | seth | setn | begin | build | emit | wrtab | wrdat =>
    simp only [exec, execSetw, execSeth, execSetn, execBegin, execBuild, execEmit, execWrtab, execWrdat]
    exact inPhase_of_illegal hf (by simpa [legalIn] using hl)

/-- Settles O10: `exec_of_not_legal`, the raise and its `ERRINFO` written out. -/
theorem outOfPhaseRaises : Obligations.OutOfPhaseRaises := fun _ _ => exec_of_not_legal

theorem exec_ldblk_of_full {p : List Word} (hs : s.phase = .load) (hp : p.length = 64)
    (h : unitTotal s ≤ s.ldcnt.toNat) :
    exec (.ldblk p) s = .next (raise .illegalSequence (sequenceInfo 0x10#8 s.phase) s) := by
  rw [exec_ldblk_of_load hs hp, loadBlock, if_pos h]

theorem exec_build_of_missing (hs : s.phase = .load) (h : s.ldcnt.toNat ≠ unitTotal s) :
    exec .build s = .next (raise .illegalSequence (sequenceInfo 0x20#8 s.phase) s) := by
  rw [exec, execBuild, inPhase_of_legal (by simp [hs]) (by simp [hs]), if_neg h]

/-- Settles O11: both counts raise in `LOAD`, so that `ERRINFO` is a closed word. -/
theorem unitCountGuards : Obligations.UnitCountGuards := by
  have hldblk : sequenceInfo 0x10#8 .load = 0x10000001#32 := by decide
  have hbuild : sequenceInfo 0x20#8 .load = 0x20000001#32 := by decide
  refine ⟨fun s p hs hp h => ?_, fun s hs h => ?_⟩
  · rw [exec_ldblk_of_full hs hp h, hs, hldblk, raise]
  · rw [exec_build_of_missing hs h, hs, hbuild, raise]

/-! ### `NOP`, `INIT` and reset -/

/-- Settles O13. -/
theorem nopChangesNothing : Obligations.NopChangesNothing := fun _ => rfl

/-- R31: in `IDLE` without a fault and a flag, `STATUS` reads 0. -/
theorem statusWord_eq_zero (hp : s.phase = .idle) (he : s.err = none) (ht : s.tabw = false) (hd : s.datw = false) :
    statusWord s = 0#32 := by
  rw [statusWord, hp, he, ht, hd]
  decide

/-- Settles O14: `INIT` answers `resetCore`, field by field. -/
theorem initRestoresResetValues : Obligations.InitRestoresResetValues := fun s =>
  ⟨resetCore s, rfl, rfl, rfl, rfl, rfl, rfl, rfl, rfl, rfl, rfl, rfl, rfl, rfl, rfl,
    statusWord_eq_zero rfl rfl rfl rfl, rfl, rfl, rfl, rfl, rfl, rfl, rfl, rfl, rfl⟩

/-- Settles O15: the fields of the literal state; its code tables are `invalidCode`. -/
theorem resetState : Obligations.ResetState :=
  ⟨rfl, rfl, rfl, rfl, rfl, rfl, rfl, rfl, rfl, rfl, rfl, rfl, rfl, rfl, fun _ _ => mem_invalidCode⟩

/-! ### Sinks present -/

section
variable (hs : s.phase = .done)
include hs

theorem exec_wrtab_of_present (h : sinkAnswer s 0 = true) :
    exec .wrtab s = .next (setTabw (replaceSink0 (tableFileBytes s) (answerUsed s))) := by
  simp [exec, execWrtab, inPhase_done hs, writeTable, h]

theorem exec_wrdat_of_present (h : sinkAnswer s 1 = true) :
    exec .wrdat s = .next (setDatw (replaceSink1 (pack s.bitbuf) (answerUsed s))) := by
  simp [exec, execWrdat, inPhase_done hs, writeData, h]

end

/-- Settles O45: with the answer put back on the queue, only the sink and the flag differ. -/
theorem wrtabWritesTableFile : Obligations.WrtabWritesTableFile := fun _ hs h =>
  ⟨_, exec_wrtab_of_present hs h, by rw [setTabw, replaceSink0, answerUsed, tableFileBytes]⟩

/-- Settles O46: as for `WRTAB`. -/
theorem wrdatWritesPackedBits : Obligations.WrdatWritesPackedBits := fun _ hs h =>
  ⟨_, exec_wrdat_of_present hs h, by rw [setDatw, replaceSink1, answerUsed]⟩

/-! ### Every command completes -/

/-- A command completes when its body does. -/
theorem inPhase_completes {op : BitVec 8} {legal : List Phase} {body : State → Result} (h : ∃ t, body s = .next t) :
    ∃ t, inPhase op legal body s = .next t := by
  unfold inPhase
  split
  · exact ⟨_, rfl⟩
  · split
    · exact h
    · exact ⟨_, rfl⟩

theorem exists_next_ite {c : Prop} [Decidable c] {a b : Result} (ha : ∃ t, a = .next t) (hb : ∃ t, b = .next t) :
    ∃ t, (if c then a else b) = .next t := by
  split
  · exact ha
  · exact hb

theorem loadBlock_completes (p : List Word) (s : State) : ∃ t, loadBlock p s = .next t := by
  refine exists_next_ite ⟨_, rfl⟩ ?_
  cases firstOutOfRange (nextBlock p s) with
  | none => exact ⟨_, rfl⟩
  | some i => exact ⟨_, rfl⟩

/-- R312. -/
theorem exec_completes {i : Instr} (hwf : i.wellFormed = true) (s : State) : ∃ t, exec i s = .next t := by
  cases i with
  | nop | init => exact ⟨_, rfl⟩
  | setw | seth | setn =>
    simp only [exec, execSetw, execSeth, execSetn]
    exact inPhase_completes ⟨_, rfl⟩
  | begin | build | wrtab | wrdat =>
    simp only [exec, execBegin, execBuild, execWrtab, execWrdat]
    refine inPhase_completes ?_
    exact exists_next_ite ⟨_, rfl⟩ ⟨_, rfl⟩
  | ldblk p =>
    obtain ⟨t, ht⟩ := inPhase_completes (op := 0x10#8) (legal := [.load]) (loadBlock_completes p s)
    exact ⟨t, (if_pos (of_decide_eq_true hwf)).trans ht⟩
  | emit =>
    rw [exec, execEmit]
    refine inPhase_completes ?_
    cases emitBits s with
    | error info => exact ⟨_, rfl⟩
    | ok b => exact ⟨_, rfl⟩

/-- Settles O7: a step is a reset, a wait, an illegal header, or `exec` of a command that the decoder made well formed. -/
theorem everyCommandCompletes : Obligations.EveryCommandCompletes := by
  refine ⟨fun i s hwf => exec_completes hwf s, fun s => exists_next_ite ⟨_, rfl⟩ ?_⟩
  cases hd : decode s.cs with
  | waiting => exact ⟨_, rfl⟩
  | illegal w rest => exact exists_next_ite ⟨_, rfl⟩ ⟨_, rfl⟩
  | command i rest => exact exec_completes (wellFormed_of_decode hd) _

end Sys2Proof.Machine
end

