-- ==== Sys2Proof/Proofs/Writers.lean ====
section
/-! SUPPORT and PROOF. What writes the configuration registers, the flags and the sinks, and what nothing writes
(spec/10_state.md R25 to R29, R38, R39, R45; spec/43_huffman.md R207). -/

namespace Sys2Proof.Machine

variable {i : Instr} {s t : State}

/-! ### The configuration registers -/

/-- The changes of the configuration registers that R25 to R27 allow a command other than `INIT`. -/
structure ConfigWrite (i : Instr) (s t : State) : Prop where
  width : t.width ≠ s.width → s.phase = .idle ∧ i = .setw t.width
  height : t.height ≠ s.height → s.phase = .idle ∧ i = .seth t.height
  nblk : t.nblk ≠ s.nblk → s.phase = .idle ∧ i = .setn t.nblk

theorem ConfigWrite.of_eq (hw : t.width = s.width) (hh : t.height = s.height) (hn : t.nblk = s.nblk) :
    ConfigWrite i s t :=
  ⟨fun h => absurd hw h, fun h => absurd hh h, fun h => absurd hn h⟩

theorem ownEffect_configWrite (h : ownEffect i s t) : i = .init ∨ ConfigWrite i s t := by
  cases i with
  | init => exact .inl rfl
  | nop => subst h; exact .inr (.of_eq rfl rfl rfl)
  | setw n => obtain ⟨hp, rfl⟩ := h; exact .inr ⟨fun _ => ⟨hp, rfl⟩, fun h => absurd rfl h, fun h => absurd rfl h⟩
  | seth n => obtain ⟨hp, rfl⟩ := h; exact .inr ⟨fun h => absurd rfl h, fun _ => ⟨hp, rfl⟩, fun h => absurd rfl h⟩
  | setn n => obtain ⟨hp, rfl⟩ := h; exact .inr ⟨fun h => absurd rfl h, fun h => absurd rfl h, fun _ => ⟨hp, rfl⟩⟩
  | ldblk p => obtain ⟨-, -, -, -, rfl⟩ := h; exact .inr (.of_eq rfl rfl rfl)
  | emit => obtain ⟨-, b, -, rfl⟩ := h; exact .inr (.of_eq rfl rfl rfl)
  | begin | build => obtain ⟨-, -, rfl⟩ := h; exact .inr (.of_eq rfl rfl rfl)
  | wrtab | wrdat => obtain ⟨-, -, rfl⟩ := h; exact .inr (.of_eq (by simp) (by simp) (by simp))

theorem exec_configWrite (h : exec i s = .next t) : i = .init ∨ ConfigWrite i s t := by
  obtain ⟨-, rfl⟩ | ⟨-, k, info, rfl | rfl⟩ | h := exec_cases h
  · exact .inr (.of_eq rfl rfl rfl)
  · exact .inr (.of_eq rfl rfl rfl)
  · exact .inr (.of_eq rfl rfl rfl)
  · exact ownEffect_configWrite h

/-- Settles O55: a step that executes no command writes no configuration register, but for a reset; a command's writes
are those of `exec_configWrite`. -/
theorem configurationWriters : Obligations.ConfigurationWriters := by
  intro s t hstep
  obtain ⟨hr, -⟩ | ⟨-, -, rfl⟩ | ⟨w, rest, -, -, ⟨-, rfl⟩ | ⟨-, rfl⟩⟩ | ⟨i, rest, -, hd, hexec⟩ := step_cases hstep
  · exact .inl (.inl hr)
  · simp
  · simp
  · simp
  · obtain rfl | ⟨hw, hh, hn⟩ := exec_configWrite hexec
    · exact .inl (.inr ⟨rest, hd⟩)
    · refine .inr ⟨fun h => ?_, fun h => ?_, fun h => ?_⟩
      · obtain ⟨hp, rfl⟩ := hw h
        exact ⟨hp, rest, hd⟩
      · obtain ⟨hp, rfl⟩ := hh h
        exact ⟨hp, rest, hd⟩
      · obtain ⟨hp, rfl⟩ := hn h
        exact ⟨hp, rest, hd⟩

/-! ### The flags and the sinks -/

/-- The changes of one flag and its sink that R29 and R45 allow a command `i`: `write` is the flag's write command and
`k` the sink's number. -/
structure SinkWrite (write : Instr) (k : Nat) (i : Instr) (s : State) (old new : Bool) (before after : List Byte) :
    Prop where
  flag : new ≠ old →
    (new = true ∧ s.phase = .done ∧ sinkAnswer s k = true ∧ i = write) ∨ (new = false ∧ (i = .init ∨ i = .begin))
  sink : after ≠ before → s.phase = .done ∧ sinkAnswer s k = true ∧ i = write

section
variable {write : Instr} {k : Nat} {old new : Bool} {before after : List Byte}

theorem SinkWrite.of_eq (hf : new = old) (hs : after = before) : SinkWrite write k i s old new before after :=
  ⟨fun h => absurd hf h, fun h => absurd hs h⟩

theorem SinkWrite.of_clear (hi : i = .init ∨ i = .begin) : SinkWrite write k i s old false before before :=
  ⟨fun _ => .inr ⟨rfl, hi⟩, fun h => absurd rfl h⟩

theorem SinkWrite.of_write (hp : s.phase = .done) (ha : sinkAnswer s k = true) :
    SinkWrite write k write s old true before after :=
  ⟨fun _ => .inl ⟨rfl, hp, ha, rfl⟩, fun _ => ⟨hp, ha, rfl⟩⟩

end

/-- The changes of both flags and both sinks that a command may make. -/
def sinkWrites (i : Instr) (s t : State) : Prop :=
  SinkWrite .wrtab 0 i s s.tabw t.tabw s.sink0 t.sink0 ∧ SinkWrite .wrdat 1 i s s.datw t.datw s.sink1 t.sink1

theorem ownEffect_sinkWrites (h : ownEffect i s t) : sinkWrites i s t := by
  cases i with
  | nop => subst h; exact ⟨.of_eq rfl rfl, .of_eq rfl rfl⟩
  | init => subst h; exact ⟨.of_clear (.inl rfl), .of_clear (.inl rfl)⟩
  | begin => obtain ⟨-, -, rfl⟩ := h; exact ⟨.of_clear (.inr rfl), .of_clear (.inr rfl)⟩
  | setw | seth | setn => obtain ⟨-, rfl⟩ := h; exact ⟨.of_eq rfl rfl, .of_eq rfl rfl⟩
  | ldblk p => obtain ⟨-, -, -, -, rfl⟩ := h; exact ⟨.of_eq rfl rfl, .of_eq rfl rfl⟩
  | build => obtain ⟨-, -, rfl⟩ := h; exact ⟨.of_eq rfl rfl, .of_eq rfl rfl⟩
  | emit => obtain ⟨-, b, -, rfl⟩ := h; exact ⟨.of_eq rfl rfl, .of_eq rfl rfl⟩
  | wrtab => obtain ⟨hp, ha, rfl⟩ := h; exact ⟨.of_write hp ha, .of_eq (by simp) (by simp)⟩
  | wrdat => obtain ⟨hp, ha, rfl⟩ := h; exact ⟨.of_eq (by simp) (by simp), .of_write hp ha⟩

theorem exec_sinkWrites (h : exec i s = .next t) : sinkWrites i s t := by
  obtain ⟨-, rfl⟩ | ⟨-, k, info, rfl | rfl⟩ | h := exec_cases h
  · exact ⟨.of_eq rfl rfl, .of_eq rfl rfl⟩
  · exact ⟨.of_eq rfl rfl, .of_eq rfl rfl⟩
  · exact ⟨.of_eq rfl rfl, .of_eq rfl rfl⟩
  · exact ownEffect_sinkWrites h

/-- Settles O56: but for a reset, which clears both flags, a step that executes no command leaves flags and sinks alone;
a command's writes are those of `exec_sinkWrites`. -/
theorem flagAndSinkWriters : Obligations.FlagAndSinkWriters := by
  intro s t hstep
  obtain ⟨hr, rfl⟩ | ⟨-, -, rfl⟩ | ⟨w, rest, -, -, ⟨-, rfl⟩ | ⟨-, rfl⟩⟩ | ⟨i, rest, -, hd, hexec⟩ := step_cases hstep
  · simp [takeReset, hr]
  · simp
  · simp
  · simp
  · obtain ⟨⟨htabw, hsink0⟩, ⟨hdatw, hsink1⟩⟩ := exec_sinkWrites hexec
    refine ⟨fun h => ?_, fun h => ?_, fun h => ?_, fun h => ?_⟩
    · obtain ⟨ht, hp, ha, rfl⟩ | ⟨ht, rfl | rfl⟩ := htabw h
      · exact .inl ⟨ht, hp, ha, rest, hd⟩
      · exact .inr ⟨ht, .inr ⟨rest, .inl hd⟩⟩
      · exact .inr ⟨ht, .inr ⟨rest, .inr hd⟩⟩
    · obtain ⟨ht, hp, ha, rfl⟩ | ⟨ht, rfl | rfl⟩ := hdatw h
      · exact .inl ⟨ht, hp, ha, rest, hd⟩
      · exact .inr ⟨ht, .inr ⟨rest, .inl hd⟩⟩
      · exact .inr ⟨ht, .inr ⟨rest, .inr hd⟩⟩
    · obtain ⟨hp, ha, rfl⟩ := hsink0 h
      exact ⟨hp, ha, rest, hd⟩
    · obtain ⟨hp, ha, rfl⟩ := hsink1 h
      exact ⟨hp, ha, rest, hd⟩

/-! ### What nothing writes -/

/-- In these phases the coefficients and the tables of an image stand (R79, R207). -/
def tablesStand (p : Phase) : Prop := p = .tables ∨ p = .done

/-- What R38, R39, R79 and R207 say that a step leaves alone. -/
structure KeepsFixed (s t : State) : Prop where
  qrom : t.qrom = s.qrom
  zzrom : t.zzrom = s.zzrom
  cfg : t.cfg = s.cfg
  tables : tablesStand s.phase → tablesStand t.phase → t.code = s.code ∧ t.cbuf = s.cbuf

theorem ownEffect_keepsFixed (h : ownEffect i s t) : KeepsFixed s t := by
  cases i with
  | nop => subst h; exact ⟨rfl, rfl, rfl, fun _ _ => ⟨rfl, rfl⟩⟩
  | init => subst h; exact ⟨rfl, rfl, rfl, fun _ ht => by simp [tablesStand] at ht⟩
  | setw | seth | setn => obtain ⟨-, rfl⟩ := h; exact ⟨rfl, rfl, rfl, fun _ _ => ⟨rfl, rfl⟩⟩
  | begin | build =>
    obtain ⟨hp, -, rfl⟩ := h
    exact ⟨rfl, rfl, rfl, fun hs _ => by simp [tablesStand, hp] at hs⟩
  | ldblk p =>
    obtain ⟨-, hp, -, -, rfl⟩ := h
    exact ⟨rfl, rfl, rfl, fun hs _ => by simp [tablesStand, hp] at hs⟩
  | emit => obtain ⟨-, b, -, rfl⟩ := h; exact ⟨rfl, rfl, rfl, fun _ _ => ⟨rfl, rfl⟩⟩
  | wrtab | wrdat => obtain ⟨-, -, rfl⟩ := h; exact ⟨by simp, by simp, by simp, by simp⟩

theorem exec_keepsFixed (h : exec i s = .next t) : KeepsFixed s t := by
  obtain ⟨-, rfl⟩ | ⟨-, k, info, rfl | rfl⟩ | h := exec_cases h
  · exact ⟨rfl, rfl, rfl, fun _ _ => ⟨rfl, rfl⟩⟩
  · exact ⟨rfl, rfl, rfl, fun _ _ => ⟨rfl, rfl⟩⟩
  · exact ⟨rfl, rfl, rfl, fun _ _ => ⟨rfl, rfl⟩⟩
  · exact ownEffect_keepsFixed h

/-- Settles O57: `exec_keepsFixed` for a command; a reset ends in `IDLE`, outside the two phases. -/
theorem romsAndTablesImmutable : Obligations.RomsAndTablesImmutable := by
  intro s t hstep
  obtain ⟨-, rfl⟩ | ⟨-, -, rfl⟩ | ⟨w, rest, -, -, ⟨-, rfl⟩ | ⟨-, rfl⟩⟩ | ⟨i, rest, -, -, hexec⟩ := step_cases hstep
  · simp [takeReset]
  · simp
  · simp
  · simp
  · obtain ⟨hq, hz, hc, htables⟩ := exec_keepsFixed hexec
    exact ⟨hq, hz, hc, htables⟩

end Sys2Proof.Machine
end

