-- ==== Sys2Proof/Proofs/QuantizerLaws.lean ====
section
/-! SUPPORT and PROOF. The quantiser's arithmetic, the divisors it uses, and the coefficient buffer it fills
(spec/41_quantize_zigzag.md R150 to R156; spec/10_state.md R38, R40). -/

namespace Sys2Proof.Machine

/-! ### The laws of R156 -/

section
variable {d : Nat} (hd : 1 ≤ d)
include hd

/-- R156 (b): the conditions on the nearest integer are symmetric about 0. -/
theorem quant_neg (n : Int) : quant .halfEven (-n) d = -quant .halfEven n d := by
  obtain ⟨hle, hge, habove, hbelow⟩ := (quant_eq_iff n d hd _).1 rfl
  refine (quant_eq_iff (-n) d hd _).2 ?_
  have hdist : -n - -quant .halfEven n d * (d * 65536) = -(n - quant .halfEven n d * (d * 65536)) := by ring
  rw [hdist]
  generalize n - quant .halfEven n d * (d * 65536) = x at *
  refine ⟨by omega, by omega, fun h => ?_, fun h => ?_⟩
  · have := hbelow (by omega); omega
  · have := habove (by omega); omega

/-- R156 (d): at a half, 0 is the even one. -/
theorem quant_eq_zero_iff (n : Int) : quant .halfEven n d = 0 ↔ 2 * n.natAbs ≤ d * 65536 := by
  rw [quant_eq_iff n d hd]
  omega

/-- R156 (e). -/
theorem quant_mul (m : Int) : quant .halfEven (m * (d * 65536)) d = m := by
  rw [quant_eq_iff _ d hd, Int.sub_self]
  omega

/-- R156 (f): a smaller result is nearest to `n1` only up to half a step above it, and a greater one to `n2` only down to
half a step below, so the two could only cross at one and the same half. -/
theorem quant_mono {n1 n2 : Int} (h : n1 ≤ n2) : quant .halfEven n1 d ≤ quant .halfEven n2 d := by
  by_contra hlt
  obtain ⟨-, hge, -⟩ := (quant_eq_iff n1 d hd _).1 rfl
  obtain ⟨hle, -⟩ := (quant_eq_iff n2 d hd _).1 rfl
  have hstep : (quant .halfEven n2 d + 1) * (d * 65536) ≤ quant .halfEven n1 d * (d * 65536) :=
    Int.mul_le_mul_of_nonneg_right (by omega) (by omega)
  rw [Int.add_mul] at hstep
  obtain rfl : n1 = n2 := by omega
  exact hlt le_rfl

/-- R156 (a): the extreme results are those of the extreme multiples. -/
theorem quant_bounds {n : Int} (hlo : -2147483648 ≤ n) (hhi : n ≤ 2147483647) :
    -32768 ≤ quant .halfEven n d ∧ quant .halfEven n d ≤ 32768 := by
  constructor
  · rw [← quant_mul hd (-32768)]
    exact quant_mono hd (by omega)
  · rw [← quant_mul hd 32768]
    exact quant_mono hd (by omega)

end

/-- Settles O19: one lemma for each of (a) to (f); (c) is the multiple by 0. -/
theorem quantArithmeticLaws : Obligations.QuantArithmeticLaws := fun _ hd _ =>
  ⟨fun _ => quant_bounds hd, quant_neg hd, (quant_eq_zero_iff hd 0).2 (Nat.zero_le _), quant_eq_zero_iff hd,
    quant_mul hd, fun _ _ => quant_mono hd⟩

/-! ### The block of the next unit -/

/-- R150: one word and one divisor for each element. -/
theorem quantBlock_getD (tie : Tie) (m : DivMatrix) {p : List Word} (hp : p.length = 64) (i : Fin 64) :
    (quantBlock tie m p).getD i.val 0 = quant tie (p.getD i.val 0#32).toInt m[i].bits.toNat := by
  have hi : i.val < p.length := i.isLt.trans_eq hp.symm
  simp [quantBlock, List.getD_eq_getElem?_getD, hi, coefNumerator]

/-- R151: the matrix of a unit, from its number modulo `NCH`. -/
theorem qrom_get_unitClass (s : State) (u : Nat) :
    s.qrom.get (unitClass s u) = if u % s.cfg.nch = 0 then s.qrom.luma else s.qrom.chroma := by
  rw [unitClass_eq]
  split <;> rfl

/-- Settles O20: `quantBlock_getD` with the matrix that `qrom_get_unitClass` gives. -/
theorem blockUsesClassMatrix : Obligations.BlockUsesClassMatrix := by
  intro s p i hp
  refine ⟨nextBlock_length s p hp, ?_⟩
  rw [nextBlock, quantBlock_getD _ _ hp, qrom_get_unitClass]
  split <;> rfl

/-! ### The coefficient buffer -/

/-- Settles O23: along the list, the write either puts the vector in front, replaces the head, or goes on behind a head
of another unit. -/
theorem cbufReadAfterWrite : Obligations.CbufReadAfterWrite := by
  intro m u v x
  induction m with
  | nil => simp [CoefMem.write, CoefMem.read, eq_comm]
  | cons a m ih =>
    obtain ⟨w, y⟩ := a
    rw [CoefMem.write]
    split
    · simp [CoefMem.read, eq_comm]
    · split
      · next hw => subst hw; simp only [CoefMem.read, eq_comm (a := v)]; split <;> rfl
      · next hw =>
        simp only [CoefMem.read, ih]
        by_cases hv : w = v
        · rw [if_pos hv, if_pos hv, if_neg fun h => hw (hv.trans h).symm]
        · rw [if_neg hv, if_neg hv]

end Sys2Proof.Machine
end

