-- ==== Sys2Proof/Proofs/CodeLaws.lean ====
section
/-! SUPPORT and PROOF. The laws of the codes of a table (spec/43_huffman.md R205), what `BUILD` leaves (R190, R35), and the
symbols that are counted (spec/30_encoding.md R102). -/

namespace Sys2Proof.Machine

variable {freq : List Nat} {x y : Nat} {b c : Bits}

/-- Settles O28: the proof of R230's bounds already says what a pair of elements in range is. -/
theorem rleSymbolsArePossible : Obligations.RleSymbolsArePossible := by
  intro a _ ha p hp
  obtain ⟨hsym, hlen, -⟩ := possible_of_mem_rle ha hp
  exact ⟨hsym, hlen⟩

/-! ### R205 -/

/-- The entries of a code table as one list with the laws of R205, which `codes_spec` proves of the tree's leaves. -/
theorem exists_codeList_laws (freq : List Nat) : ∃ l : List (Nat × Bits),
    (∀ x b, (codesOf freq)[x]? = some (some b) ↔ (x, b) ∈ l) ∧ l.Nodup ∧
    (l.Pairwise fun d e => ¬ d.2 <+: e.2 ∧ ¬ e.2 <+: d.2) ∧
    (2 ≤ (observed freq).length → (l.map fun e => (1 / 2 : ℚ) ^ e.2.length).sum = 1) ∧
    ((observed freq).length = 1 → ∃ k, l = [(k, [false])]) ∧
    ∀ x y b c, (x, b) ∈ l → (y, c) ∈ l → freq.getD y 0 < freq.getD x 0 → b.length ≤ c.length := by
  obtain ⟨l, hcodes, hperm, hnodup, hprefix, -, hmany, hone, hshort⟩ := codes_spec freq
  exact ⟨l, codesOf_get hcodes hnodup fun k hk => (obs_lt (hperm.mem_iff.1 hk)).1, hnodup.of_map, hprefix,
    fun h => (hmany h).1, hone, hshort⟩

/-- Settles O34: of two different entries of the list neither code begins the other. -/
theorem codesArePrefixFree : Obligations.CodesArePrefixFree := by
  intro freq x y b c hb hc hxy
  obtain ⟨l, hl, -, hprefix, -⟩ := exists_codeList_laws freq
  have : Std.Symm fun d e : Nat × Bits => ¬ d.2 <+: e.2 ∧ ¬ e.2 <+: d.2 := ⟨fun _ _ h => h.symm⟩
  exact (hprefix.forall ((hl x b).1 hb) ((hl y c).1 hc) fun h => hxy (congrArg Prod.fst h)).1

/-- Settles O35: the valid entries of the table are the list in another order, so the sums are the list's. -/
theorem codesAreComplete : Obligations.CodesAreComplete := by
  intro freq
  obtain ⟨l, hl, hnodup, -, hmany, hone, -⟩ := exists_codeList_laws freq
  have hperm : (validEntries (codesOf freq)).Perm l := by
    refine (List.perm_ext_iff_of_nodup (validEntriesFrom_nodup _ 0) hnodup).2 fun ⟨x, b⟩ => ?_
    exact mem_validEntries_iff.trans (hl x b)
  rw [(hperm.map fun e => (1 / 2 : ℚ) ^ e.2.length).sum_eq]
  refine ⟨hmany, fun h => ?_⟩
  obtain ⟨k, rfl⟩ := hone h
  simp

/-- Settles O36: the last law of the list. -/
theorem frequentKeysHaveShortCodes : Obligations.FrequentKeysHaveShortCodes := by
  intro freq x y b c hb hc
  obtain ⟨l, hl, -, -, -, -, hshort⟩ := exists_codeList_laws freq
  exact hshort x y b c ((hl x b).1 hb) ((hl y c).1 hc)

/-! ### BUILD -/

/-- R35: a field placed above the bits in use adds its value at its place. -/
theorem toNat_or_shiftLeft {w : Word} {a k : Nat} (hw : w.toNat < 2 ^ k) (ha : a * 2 ^ k < 2 ^ 32) :
    (w ||| BitVec.ofNat 32 a <<< k).toNat = w.toNat + 2 ^ k * a := by
  have ha' : a < 2 ^ 32 := Nat.lt_of_le_of_lt (Nat.le_mul_of_pos_right a (Nat.two_pow_pos k)) ha
  rw [BitVec.toNat_or, BitVec.toNat_shiftLeft, BitVec.toNat_ofNat, Nat.mod_eq_of_lt ha', Nat.shiftLeft_eq,
    Nat.mod_eq_of_lt ha, Nat.mul_comm a, Nat.or_comm, ← Nat.two_pow_add_eq_or_of_lt hw, Nat.add_comm]

/-- R35: `TABCNT` as a number, when each count fits a byte. -/
theorem toNat_tabcntOf {c : Tables (List (Option Bits))} (h : ∀ t, countValid (c.get t) ≤ 255) :
    (tabcntOf c).toNat =
      countValid c.dcY + 2 ^ 8 * countValid c.acY + 2 ^ 16 * countValid c.dcC + 2 ^ 24 * countValid c.acC := by
  have h0 : countValid c.dcY ≤ 255 := h .dcY
  have h1 : countValid c.acY ≤ 255 := h .acY
  have h2 : countValid c.dcC ≤ 255 := h .dcC
  have h3 : countValid c.acC ≤ 255 := h .acC
  have e0 : (BitVec.ofNat 32 (countValid c.dcY)).toNat = countValid c.dcY := by
    rw [BitVec.toNat_ofNat]; omega
  have e1 := toNat_or_shiftLeft (w := BitVec.ofNat 32 (countValid c.dcY)) (a := countValid c.acY) (k := 8)
    (by omega) (by omega)
  have e2 := toNat_or_shiftLeft (a := countValid c.dcC) (k := 16) (e1.trans_lt (by omega)) (by omega)
  have e3 := toNat_or_shiftLeft (a := countValid c.acC) (k := 24) (e2.trans_lt (by omega)) (by omega)
  rw [tabcntOf, e3, e2, e1, e0]

/-- Settles O32: `exec_build_of_loaded`, its effect written out, and `toNat_tabcntOf`. -/
theorem buildMakesTables : Obligations.BuildMakesTables :=
  ⟨fun s hs h => ⟨collect s, exec_build_of_loaded hs h⟩, fun _ => toNat_tabcntOf⟩

end Sys2Proof.Machine
end

