-- ==== Sys2Proof/Proofs/MissingCode.lean ====
section
/-! SUPPORT and PROOF. `EMIT` with a missing code (spec/44_bitstream.md R221; spec/60_exceptions.md R263, R272). -/

namespace Sys2Proof.Machine

variable {s : State} {u : Nat}

/-! ### The keys of stored coefficients -/

/-- R40: a stored element has 12 bits. -/
theorem natAbs_le_of_mem_coefs {v : Int} (hv : v ∈ coefs s u) : v.natAbs ≤ 2048 := by
  obtain ⟨x, -, rfl⟩ := List.mem_map.1 hv
  have := BitVec.le_toInt x
  have := BitVec.toInt_lt (x := x)
  omega

theorem cat_le_of_mem_coefs {v : Int} (hv : v ∈ coefs s u) : cat v ≤ 12 :=
  cat_le v 12 (Nat.lt_of_le_of_lt (natAbs_le_of_mem_coefs hv) (by decide))

theorem cat_headD_coefs_le : cat ((coefs s u).headD 0) ≤ 12 := by
  cases h : coefs s u with
  | nil => decide
  | cons v vs => exact cat_le_of_mem_coefs (by rw [h]; exact List.mem_cons_self)

/-- R100: the key of a pair is a byte, also of coefficients out of the range of R155. -/
theorem key_lt_of_mem_rle_coefs {p : RlePair} (hp : p ∈ rle (coefs s u).tail) :
    p.sym.run * 16 + p.sym.cat < 256 := by
  obtain ⟨ps, hps, -, hpairs⟩ := rleByRun_shape (coefs s u).tail 0 (Nat.zero_le _)
  rw [rle_eq, hps, List.mem_append, List.mem_singleton] at hp
  obtain hp | rfl := hp
  · obtain ⟨hrun, -, -, v, hv, hcat⟩ := hpairs p hp
    have := cat_le_of_mem_coefs (List.mem_of_mem_tail hv)
    omega
  · decide

/-! ### What a unit without bits records -/

theorem lookup_of_missing {code : Tables (List (Option Bits))} {t : TableId} {x : Nat}
    (h : (code.get t)[x]? = some none) : lookup code t x = .error (lookupInfo t x) := by
  rw [lookup, h]

/-- R272: the DC category is looked up first. -/
theorem unitBits_of_missing_dc (h : (s.code.get (dcTable (unitClass s u)))[cat ((coefs s u).headD 0)]? = some none) :
    unitBits s u =
      .error ((BitVec.ofNat 32 (tableNumber (dcTable (unitClass s u))) <<< 8) |||
        BitVec.ofNat 32 (cat ((coefs s u).headD 0))) := by
  have := cat_headD_coefs_le (s := s) (u := u)
  rw [unitBits, vecBits, lookup_of_missing h, lookupInfo_eq _ _ (by omega)]

/-- R272: then the pairs in order, the first missing one deciding. -/
theorem unitBits_of_missing_ac {i : Nat} {p : RlePair} (hp : (rle (coefs s u).tail)[i]? = some p)
    (hdc : ∃ c, (s.code.get (dcTable (unitClass s u)))[cat ((coefs s u).headD 0)]? = some (some c))
    (hbefore : ∀ j < i, ∀ q, (rle (coefs s u).tail)[j]? = some q →
      ∃ c, (s.code.get (acTable (unitClass s u)))[q.sym.run * 16 + q.sym.cat]? = some (some c))
    (h : (s.code.get (acTable (unitClass s u)))[p.sym.run * 16 + p.sym.cat]? = some none) :
    unitBits s u =
      .error ((BitVec.ofNat 32 (tableNumber (acTable (unitClass s u))) <<< 8) |||
        BitVec.ofNat 32 (p.sym.run * 16 + p.sym.cat)) := by
  obtain ⟨c, hc⟩ := hdc
  have hkey := key_lt_of_mem_rle_coefs (List.mem_of_getElem? hp)
  rw [unitBits, vecBits, lookup_eq_ok_iff.2 hc, acPairs, pairBits_of_missing _ _ _ i p hp hbefore h,
    lookupInfo_eq _ _ hkey]

/-! ### EMIT -/

theorem exec_emit_of_error {info : Word} (hs : s.phase = .tables) (h : emitBits s = .error info) :
    exec .emit s = .next (raise .inconsistentSymbolStatistics info s) := by
  rw [exec, execEmit, inPhase_of_legal (by simp [hs]) (by simp [hs]), h]

/-- R272: the first unit without bits decides what the sequence records. -/
theorem emitBits_of_error {info : Word} (hu : u < unitTotal s) (hbefore : ∀ v < u, ∃ b, unitBits s v = .ok b)
    (h : unitBits s u = .error info) : emitBits s = .error info := by
  have hunits : unitsBits s (List.range (unitTotal s)) = .error info := by
    refine unitsBits_of_error s info _ u u (by simp [hu]) (fun j hj v hv => ?_) h
    obtain ⟨-, rfl⟩ := List.getElem?_eq_some_iff.1 hv
    rw [List.getElem_range]
    exact hbefore j hj
  rw [emitBits, hunits]

/-- Settles O40: `emitBits_of_error` for the unit; for what the unit records, its class fixes the table numbers, 0 and 1
for channel 0, else 2 and 3. -/
theorem emitRefusesMissingCode : Obligations.EmitRefusesMissingCode := by
  refine ⟨fun s u info hs hu hbefore h => exec_emit_of_error hs (emitBits_of_error hu hbefore h), ?_, ?_,
    fun code t x hx h => (lookup_of_missing h).trans (congrArg _ (lookupInfo_eq t x hx))⟩
  · rintro s u x rfl
    refine ⟨fun hch h => ?_, fun hch h => ?_⟩
    · have hclass := unitClass_eq_luma_iff.2 hch
      simpa [hclass, dcTable, tableNumber] using unitBits_of_missing_dc (s := s) (u := u) (by rwa [hclass])
    · have hclass := unitClass_eq_chroma_iff.2 hch
      simpa [hclass, dcTable, tableNumber] using unitBits_of_missing_dc (s := s) (u := u) (by rwa [hclass])
  · intro s u i p hp
    refine ⟨fun hch hdc hbefore h => ?_, fun hch hdc hbefore h => ?_⟩
    · have hclass := unitClass_eq_luma_iff.2 hch
      have herror := unitBits_of_missing_ac hp (by rwa [hclass]) (by rwa [hclass]) (by rwa [hclass])
      rwa [hclass] at herror
    · have hclass := unitClass_eq_chroma_iff.2 hch
      have herror := unitBits_of_missing_ac hp (by rwa [hclass]) (by rwa [hclass]) (by rwa [hclass])
      rwa [hclass] at herror

end Sys2Proof.Machine
end

