-- ==== Sys2Proof/Proofs/InvariantStep.lean ====
section
/-! SUPPORT and PROOF. The invariant holds after reset and is kept by every step and every act of the host
(spec/10_state.md R28, R32, R33, R40 to R44). -/

namespace Sys2Proof.Machine

variable {s t : State}

/-! ### What `BUILD` and `EMIT` read -/

section
variable (hn : t.nblk = s.nblk) (hcfg : t.cfg = s.cfg)
include hn hcfg

theorem unitTotal_congr : unitTotal t = unitTotal s := by
  rw [unitTotal, unitTotal, hn, hcfg]

variable (hcoefs : ∀ u < unitTotal s, coefs t u = coefs s u)
include hcoefs

/-- R191, R192: the counts depend on the units of the image alone. -/
theorem collect_congr : collect t = collect s := by
  rw [collect, collect, unitTotal_congr hn hcfg]
  refine List.foldl_ext _ _ _ fun f u hu => ?_
  rw [hcoefs u (List.mem_range.1 hu), unitClass, unitClass, hcfg]

theorem builtCode_congr : builtCode t = builtCode s := by
  rw [builtCode, builtCode, collect_congr hn hcfg hcoefs]

theorem tablesBuilt_congr (hl : t.ldcnt = s.ldcnt) (hcode : t.code = s.code) (htabcnt : t.tabcnt = s.tabcnt) :
    tablesBuilt t ↔ tablesBuilt s := by
  rw [tablesBuilt, tablesBuilt, hl, hcode, htabcnt, unitTotal_congr hn hcfg, builtCode_congr hn hcfg hcoefs]

/-- R222, R224: the bit sequence depends on `NBLK`, the codes and the units of the image alone. -/
theorem emitBits_congr (hcode : t.code = s.code) : emitBits t = emitBits s := by
  have hunits : ∀ us : List Nat, (∀ u ∈ us, u < unitTotal s) → unitsBits t us = unitsBits s us := by
    intro us hus
    induction us with
    | nil => rfl
    | cons u us ih =>
      obtain ⟨hu, hus⟩ := List.forall_mem_cons.1 hus
      have hunit : unitBits t u = unitBits s u := by
        rw [unitBits, unitBits, hcode, hcoefs u hu, unitClass, unitClass, hcfg]
      rw [unitsBits, unitsBits, hunit, ih hus]
  rw [emitBits, emitBits, unitTotal_congr hn hcfg, hunits _ fun u => List.mem_range.1, headerBits, headerBits, hn]

end

/-! ### The commands -/

/-- R32: outside `FAULT` no fault is recorded. -/
theorem State.Inv.err_eq_none (h : s.Inv) (hp : s.phase ≠ .fault) : s.err = none :=
  Decidable.not_not.1 fun he => hp (h.errPhase.1 he)

/-- R93: consuming words keeps the invariant. -/
theorem inv_consume (h : s.Inv) (rest : List Word) : State.Inv { s with cs := rest } :=
  inv_frame h rfl rfl rfl rfl rfl rfl rfl rfl rfl rfl rfl rfl (.inr ⟨rfl, rfl⟩)

theorem inv_answerUsed (h : s.Inv) : (answerUsed s).Inv :=
  inv_frame h rfl rfl rfl rfl rfl rfl rfl rfl rfl rfl rfl rfl (.inr ⟨rfl, rfl⟩)

section
variable (h : s.Inv)
include h

/-- R137: in `IDLE` no unit is loaded, so any `NBLK` covers the units loaded. -/
theorem inv_setn (hp : s.phase = .idle) (n : Word) : State.Inv { s with nblk := n } where
  scan := h.scan
  params := h.params
  errPhase := h.errPhase
  errInfo := h.errInfo
  count := by
    obtain ⟨hl, -⟩ := h.inIdle hp
    simp [hl]
  memory := h.memory
  loaded := h.loaded
  inIdle := h.inIdle
  capacity hq := by simp [hp] at hq
  inLoad hq := by simp [hp] at hq
  inTables hq := by simp [hp] at hq
  inDone hq := by simp [hp] at hq

/-- R138. -/
theorem inv_beginLoad (hp : s.phase = .idle) (hcap : s.nblk.toNat ≤ s.cfg.maxN) : (beginLoad s).Inv where
  scan := h.scan
  params := h.params
  errPhase := by simp [beginLoad, h.err_eq_none (by simp [hp])]
  errInfo := h.errInfo
  count := Nat.zero_le _
  memory := h.memory
  loaded _ hu := absurd hu (Nat.not_lt_zero _)
  inIdle hq := by simp [beginLoad] at hq
  capacity _ := hcap
  inLoad _ := ⟨rfl, rfl, rfl, rfl, rfl, rfl⟩
  inTables hq := by simp [beginLoad] at hq
  inDone hq := by simp [beginLoad] at hq

/-- R28: the counter does not wrap while a unit is missing. -/
theorem toNat_ldcnt_add_one (hu : s.ldcnt.toNat < unitTotal s) : (s.ldcnt + 1#64).toNat = s.ldcnt.toNat + 1 := by
  have := unitTotal_lt s h
  rw [BitVec.toNat_add_of_lt]
  · rfl
  · simp only [BitVec.toNat_ofNat]; omega

/-- R150: the unit stored passed the range check, and the units before it stay. -/
theorem inv_storeUnit {q : List Int} (hp : s.phase = .load) (hu : s.ldcnt.toNat < unitTotal s) (hq : q.length = 64)
    (hrange : firstOutOfRange q = none) : (storeUnit q s).Inv where
  scan := h.scan
  params := h.params
  errPhase := h.errPhase
  errInfo := h.errInfo
  count := (toNat_ldcnt_add_one h hu).trans_le hu
  memory := write_wf h.memory
  loaded v hv := by
    rw [storeUnit_ldcnt, toNat_ldcnt_add_one h hu] at hv
    obtain hlt | rfl := Nat.lt_or_eq_of_le (Nat.le_of_lt_succ hv)
    · obtain ⟨x, hx, hin⟩ := h.loaded v hlt
      exact ⟨x, mem_write_of_ne hx hlt.ne, hin⟩
    · exact ⟨_, mem_write_self, h.scan ▸ zigzag_range q hq hrange⟩
  inIdle hq := by simp [hp] at hq
  capacity := h.capacity
  inLoad := h.inLoad
  inTables hq := by simp [hp] at hq
  inDone hq := by simp [hp] at hq

/-- R190: the tables built stand, and no bit is emitted yet. -/
theorem inv_buildTables (hp : s.phase = .load) (hu : s.ldcnt.toNat = unitTotal s) : (buildTables s).Inv where
  scan := h.scan
  params := h.params
  errPhase := by simp [h.err_eq_none (by simp [hp])]
  errInfo := h.errInfo
  count := h.count
  memory := h.memory
  loaded := h.loaded
  inIdle hq := by simp at hq
  capacity _ := h.capacity (.inl hp)
  inLoad hq := by simp at hq
  inTables _ := by
    obtain ⟨-, -, hbits, hlen, htabw, hdatw⟩ := h.inLoad hp
    have hcode : builtCode (buildTables s) = builtCode s := builtCode_congr rfl rfl fun _ _ => rfl
    exact ⟨⟨hu, hcode.symm, congrArg tabcntOf hcode.symm⟩, hbits, hlen, htabw, hdatw⟩
  inDone hq := by simp at hq

/-- R220, R226. -/
theorem inv_finishEmit {b : Bits} (hp : s.phase = .tables) (hb : emitBits s = .ok b) : (finishEmit b s).Inv where
  scan := h.scan
  params := h.params
  errPhase := by simp [h.err_eq_none (by simp [hp])]
  errInfo := h.errInfo
  count := h.count
  memory := h.memory
  loaded := h.loaded
  inIdle hq := by simp at hq
  capacity _ := h.capacity (.inr (.inl hp))
  inLoad hq := by simp at hq
  inTables hq := by simp at hq
  inDone _ := by
    obtain ⟨hbuilt, -⟩ := h.inTables hp
    have hunits : ∀ u < unitTotal s, coefs (finishEmit b s) u = coefs s u := fun _ _ => rfl
    have hbits : emitBits (finishEmit b s) = emitBits s := emitBits_congr rfl rfl hunits rfl
    exact ⟨(tablesBuilt_congr rfl rfl hunits rfl rfl rfl).2 hbuilt, hbits.trans hb, rfl⟩

/-- R248, R240: in `DONE` the invariant speaks neither of the flags nor of the sinks. -/
theorem inv_sinkWritten {tabw datw : Bool} {sink0 sink1 : List Byte} (hp : s.phase = .done) :
    State.Inv { answerUsed s with tabw := tabw, datw := datw, sink0 := sink0, sink1 := sink1 } :=
  inv_frame h rfl rfl rfl rfl rfl rfl rfl rfl rfl rfl rfl rfl (.inl hp)

theorem ownEffect_inv {i : Instr} (he : ownEffect i s t) : t.Inv := by
  cases i with
  | nop => subst he; exact h
  | init => subst he; exact inv_reset h
  | setw n | seth n =>
    obtain ⟨-, rfl⟩ := he
    exact inv_frame h rfl rfl rfl rfl rfl rfl rfl rfl rfl rfl rfl rfl (.inr ⟨rfl, rfl⟩)
  | setn n => obtain ⟨hp, rfl⟩ := he; exact inv_setn h hp n
  | begin => obtain ⟨hp, hcap, rfl⟩ := he; exact inv_beginLoad h hp hcap
  | ldblk p =>
    obtain ⟨hlen, hp, hu, hrange, rfl⟩ := he
    exact inv_storeUnit h hp hu (nextBlock_length s p hlen) hrange
  | build => obtain ⟨hp, hu, rfl⟩ := he; exact inv_buildTables h hp hu
  | emit => obtain ⟨hp, b, hb, rfl⟩ := he; exact inv_finishEmit h hp hb
  | wrtab | wrdat => obtain ⟨hp, -, rfl⟩ := he; exact inv_sinkWritten h hp

theorem exec_inv {i : Instr} (he : exec i s = .next t) : t.Inv := by
  obtain ⟨-, rfl⟩ | ⟨-, k, info, rfl | rfl⟩ | he := exec_cases he
  · exact h
  · exact inv_raise k info h
  · exact inv_raise k info (inv_answerUsed h)
  · exact ownEffect_inv h he

/-! ### Steps and the host -/

theorem step_inv (hstep : step s = .next t) : t.Inv := by
  obtain ⟨-, rfl⟩ | ⟨-, -, rfl⟩ | ⟨w, rest, -, -, ⟨-, rfl⟩ | ⟨-, rfl⟩⟩ | ⟨i, rest, -, -, hexec⟩ := step_cases hstep
  · exact inv_reset (inv_frame h rfl rfl rfl rfl rfl rfl rfl rfl rfl rfl rfl rfl (.inr ⟨rfl, rfl⟩))
  · exact h
  · exact inv_consume h rest
  · exact inv_raise _ w (inv_consume h rest)
  · exact exec_inv (inv_consume h rest) hexec

/-- R81: no act of the host touches a field the invariant speaks of. -/
theorem hostAct_inv (a : HostAct) : (hostAct a s).Inv := by
  cases a <;> exact inv_frame h rfl rfl rfl rfl rfl rfl rfl rfl rfl rfl rfl rfl (.inr ⟨rfl, rfl⟩)

end

/-- Settles O53. -/
theorem stepKeepsInvariant : Obligations.StepKeepsInvariant :=
  ⟨fun _ _ h => step_inv h, fun _ a h => hostAct_inv h a⟩

/-- Settles O52: nothing is loaded and no result stands after reset. -/
theorem resetMeetsInvariant : Obligations.ResetMeetsInvariant where
  scan := rfl
  params := rfl
  errPhase := by decide
  errInfo _ := rfl
  count := Nat.zero_le _
  memory := reset_cbuf_wf
  loaded _ hu := absurd hu (Nat.not_lt_zero _)
  inIdle _ := ⟨rfl, rfl, rfl, rfl, rfl, rfl, rfl⟩
  capacity hq := by simp [State.reset] at hq
  inLoad hq := by simp [State.reset] at hq
  inTables hq := by simp [State.reset] at hq
  inDone hq := by simp [State.reset] at hq

end Sys2Proof.Machine
end

