-- ==== Sys2Proof/Proofs/Unspecified.lean ====
section
/-! SUPPORT and PROOF. What the spec leaves unspecified is never read: states that differ in it only answer states that
differ in it only (spec/10_state.md R41, R48; spec/60_exceptions.md R270; spec/70_reset_and_hazards.md R301). -/

namespace Sys2Proof.Machine

variable {s t : State}

/-! ### The relation -/

theorem sameButUnspecified_refl (s : State) : sameButUnspecified s s :=
  ⟨rfl, fun _ => ⟨rfl, rfl, fun _ _ => rfl⟩⟩

/-- In every phase: the second state is the first with other content in the four elements. -/
theorem exists_content (h : sameButUnspecified s t) :
    ∃ f m c b, t = { s with freq := f, cbuf := m, code := c, bitbuf := b } :=
  ⟨t.freq, t.cbuf, t.code, t.bitbuf, h.1⟩

/-- Outside `FAULT`: the second state is the first with another `FREQ` and a `CBUF` that agrees on the units loaded. -/
theorem exists_content_of_ne_fault (h : sameButUnspecified s t) (hp : s.phase ≠ .fault) :
    ∃ f m, t = { s with freq := f, cbuf := m } ∧ ∀ u < s.ldcnt.toNat, CoefMem.read m u = CoefMem.read s.cbuf u := by
  obtain ⟨ht, hstands⟩ := h
  obtain ⟨hcode, hbits, hread⟩ := hstands hp
  rw [hcode, hbits] at ht
  exact ⟨t.freq, t.cbuf, ht, hread⟩

theorem same_of_read {f : Tables (List Nat)} {m : CoefMem}
    (hm : ∀ u < s.ldcnt.toNat, CoefMem.read m u = CoefMem.read s.cbuf u) :
    sameButUnspecified s { s with freq := f, cbuf := m } :=
  ⟨rfl, fun _ => ⟨rfl, rfl, hm⟩⟩

/-- R270: in `FAULT` all four elements are unspecified. -/
theorem same_raise (h : sameButUnspecified s t) (k : FaultKind) (info : Word) :
    sameButUnspecified (raise k info s) (raise k info t) := by
  obtain ⟨f, m, c, b, rfl⟩ := exists_content h
  exact ⟨rfl, fun hp => absurd rfl hp⟩

/-- R301: reset leaves nothing of the old content. -/
theorem resetCore_eq_of_same (h : sameButUnspecified s t) : resetCore t = resetCore s := by
  obtain ⟨f, m, c, b, rfl⟩ := exists_content h
  rfl

theorem takeReset_eq_of_same (h : sameButUnspecified s t) : takeReset t = takeReset s := by
  obtain ⟨f, m, c, b, rfl⟩ := exists_content h
  rfl

theorem same_consume (h : sameButUnspecified s t) (rest : List Word) :
    sameButUnspecified { s with cs := rest } { t with cs := rest } := by
  obtain ⟨ht, hstands⟩ := h
  refine ⟨?_, hstands⟩
  rw [ht]

/-- R14: no register and no sink is among the four elements. -/
theorem sameObservation_of_same (h : sameButUnspecified s t) : sameObservation s t := by
  obtain ⟨f, m, c, b, rfl⟩ := exists_content h
  exact ⟨fun _ => rfl, rfl, rfl⟩

/-! ### The commands -/

/-- Both answer a next state, and the two states differ in unspecified content only. -/
def sameAnswer (r q : Result) : Prop :=
  ∃ s' t', r = .next s' ∧ q = .next t' ∧ sameButUnspecified s' t'

section
variable {f : Tables (List Nat)} {m : CoefMem} (hm : ∀ u < s.ldcnt.toNat, CoefMem.read m u = CoefMem.read s.cbuf u)
include hm

theorem coefs_eq_of_read {u : Nat} (hu : u < s.ldcnt.toNat) : coefs { s with freq := f, cbuf := m } u = coefs s u :=
  congrArg intsOfVec (hm u hu)

/-- R266. -/
theorem begin_same (hp : s.phase = .idle) :
    sameAnswer (exec .begin s) (exec .begin { s with freq := f, cbuf := m }) := by
  obtain hcap | hcap := Nat.lt_or_ge s.cfg.maxN s.nblk.toNat
  · exact ⟨_, _, exec_begin_of_gt hp hcap, exec_begin_of_gt hp hcap, same_raise (same_of_read hm) _ _⟩
  · refine ⟨_, _, exec_begin_of_le hp hcap, exec_begin_of_le hp hcap, same_of_read fun u hu => ?_⟩
    exact absurd hu (Nat.not_lt_zero u)

/-- R150: the same vector is stored at the next unit, and the units before it are not touched. -/
theorem ldblk_same {p : List Word} (hp : s.phase = .load) (hlen : p.length = 64) :
    sameAnswer (exec (.ldblk p) s) (exec (.ldblk p) { s with freq := f, cbuf := m }) := by
  obtain hu | hu := Nat.lt_or_ge s.ldcnt.toNat (unitTotal s)
  · cases hrange : firstOutOfRange (nextBlock p s) with
    | some k =>
      exact ⟨_, _, exec_ldblk_of_outOfRange hp hlen hu hrange,
        exec_ldblk_of_outOfRange (s := { s with freq := f, cbuf := m }) hp hlen hu hrange,
        same_raise (same_of_read hm) _ _⟩
    | none =>
      refine ⟨_, _, exec_ldblk_of_inRange hp hlen hu hrange, exec_ldblk_of_inRange hp hlen hu hrange,
        same_of_read fun u hu => ?_⟩
      have hle : (s.ldcnt + 1#64).toNat ≤ s.ldcnt.toNat + 1 := by
        rw [BitVec.toNat_add]
        exact Nat.mod_le _ _
      rw [storeUnit_cbuf, cbufReadAfterWrite, cbufReadAfterWrite]
      split
      · rfl
      · next hne => exact hm u (Nat.lt_of_le_of_ne (Nat.le_of_lt_succ (hu.trans_le hle)) hne)
  · exact ⟨_, _, exec_ldblk_of_full hp hlen hu, exec_ldblk_of_full hp hlen hu, same_raise (same_of_read hm) _ _⟩

/-- R190: the units counted are the units loaded. -/
theorem build_same (hp : s.phase = .load) :
    sameAnswer (exec .build s) (exec .build { s with freq := f, cbuf := m }) := by
  obtain hu | hu := Decidable.em (s.ldcnt.toNat = unitTotal s)
  · have hcode : builtCode { s with freq := f, cbuf := m } = builtCode s :=
      builtCode_congr rfl rfl fun u hlt => coefs_eq_of_read hm (hu ▸ hlt)
    refine ⟨_, _, exec_build_of_loaded hp hu, exec_build_of_loaded hp hu, ?_⟩
    rw [buildTables, buildTables, hcode]
    exact same_of_read hm
  · exact ⟨_, _, exec_build_of_missing hp hu, exec_build_of_missing hp hu, same_raise (same_of_read hm) _ _⟩

/-- R220: under the invariant the units emitted are the units loaded. -/
theorem emit_same (h : s.Inv) (hp : s.phase = .tables) :
    sameAnswer (exec .emit s) (exec .emit { s with freq := f, cbuf := m }) := by
  obtain ⟨⟨hu, -⟩, -⟩ := h.inTables hp
  have hbits : emitBits { s with freq := f, cbuf := m } = emitBits s :=
    emitBits_congr rfl rfl (fun u hlt => coefs_eq_of_read hm (hu ▸ hlt)) rfl
  cases hb : emitBits s with
  | error info =>
    exact ⟨_, _, exec_emit_of_error hp hb, exec_emit_of_error hp (hbits.trans hb), same_raise (same_of_read hm) _ _⟩
  | ok b => exact ⟨_, _, exec_emit_of_ok hp hb, exec_emit_of_ok hp (hbits.trans hb), same_of_read hm⟩

/-- R70: the host's answer does not depend on the content. -/
theorem wrtab_same (hp : s.phase = .done) :
    sameAnswer (exec .wrtab s) (exec .wrtab { s with freq := f, cbuf := m }) := by
  have hused : sameButUnspecified (answerUsed s) (answerUsed { s with freq := f, cbuf := m }) := same_of_read hm
  cases ha : sinkAnswer s 0 with
  | false => exact ⟨_, _, exec_wrtab_of_absent hp ha, exec_wrtab_of_absent hp ha, same_raise hused _ _⟩
  | true => exact ⟨_, _, exec_wrtab_of_present hp ha, exec_wrtab_of_present hp ha, same_of_read hm⟩

theorem wrdat_same (hp : s.phase = .done) :
    sameAnswer (exec .wrdat s) (exec .wrdat { s with freq := f, cbuf := m }) := by
  have hused : sameButUnspecified (answerUsed s) (answerUsed { s with freq := f, cbuf := m }) := same_of_read hm
  cases ha : sinkAnswer s 1 with
  | false => exact ⟨_, _, exec_wrdat_of_absent hp ha, exec_wrdat_of_absent hp ha, same_raise hused _ _⟩
  | true => exact ⟨_, _, exec_wrdat_of_present hp ha, exec_wrdat_of_present hp ha, same_of_read hm⟩

/-- In a legal phase a command reads of `CBUF` the units loaded at most. -/
theorem exec_same_of_legal (h : s.Inv) {i : Instr} (hwf : i.wellFormed = true) (hl : legalIn i s.phase = true) :
    sameAnswer (exec i s) (exec i { s with freq := f, cbuf := m }) := by
  cases i with
  | nop => exact ⟨_, _, rfl, rfl, same_of_read hm⟩
  | init => exact ⟨_, _, rfl, rfl, sameButUnspecified_refl _⟩
  | setw n => exact ⟨_, _, exec_setw_idle n (eq_of_beq hl), exec_setw_idle n (eq_of_beq hl), same_of_read hm⟩
  | seth n => exact ⟨_, _, exec_seth_idle n (eq_of_beq hl), exec_seth_idle n (eq_of_beq hl), same_of_read hm⟩
  | setn n => exact ⟨_, _, exec_setn_idle n (eq_of_beq hl), exec_setn_idle n (eq_of_beq hl), same_of_read hm⟩
  | begin => exact begin_same hm (eq_of_beq hl)
  | ldblk p => exact ldblk_same hm (eq_of_beq hl) (of_decide_eq_true hwf)
  | build => exact build_same hm (eq_of_beq hl)
  | emit => exact emit_same hm h (eq_of_beq hl)
  | wrtab => exact wrtab_same hm (eq_of_beq hl)
  | wrdat => exact wrdat_same hm (eq_of_beq hl)

end

theorem phase_eq_of_same (h : sameButUnspecified s t) : t.phase = s.phase := by
  obtain ⟨f, m, c, b, rfl⟩ := exists_content h
  rfl

theorem exec_same (hinv : s.Inv) (h : sameButUnspecified s t) {i : Instr} (hwf : i.wellFormed = true) :
    sameAnswer (exec i s) (exec i t) := by
  have hphase := phase_eq_of_same h
  by_cases hp : s.phase = .fault
  · by_cases hi : i = .init
    · subst hi
      exact ⟨_, _, rfl, rfl, resetCore_eq_of_same h ▸ sameButUnspecified_refl _⟩
    · exact ⟨_, _, exec_of_fault hi hwf hp, exec_of_fault hi hwf (hphase.trans hp), h⟩
  · cases hl : legalIn i s.phase with
    | false =>
      refine ⟨_, _, exec_of_not_legal hwf hp hl, exec_of_not_legal hwf (hphase ▸ hp) (hphase ▸ hl), ?_⟩
      rw [hphase]
      exact same_raise h _ _
    | true =>
      obtain ⟨f, m, rfl, hm⟩ := exists_content_of_ne_fault h hp
      exact exec_same_of_legal hm hinv hwf hl

/-! ### The step -/

theorem illegalHeader_same (h : sameButUnspecified s t) (w : Word) :
    sameAnswer (illegalHeader w s) (illegalHeader w t) := by
  have hphase := phase_eq_of_same h
  by_cases hp : s.phase = .fault
  · exact ⟨_, _, illegalHeader_of_fault w hp, illegalHeader_of_fault w (hphase.trans hp), h⟩
  · exact ⟨_, _, illegalHeader_of_ne_fault w hp, illegalHeader_of_ne_fault w (hphase ▸ hp), same_raise h _ _⟩

/-- The request and the stream are no unspecified content, so both states do the same. -/
theorem step_same (hinv : s.Inv) (h : sameButUnspecified s t) : sameAnswer (step s) (step t) := by
  obtain ⟨hrst, hcs⟩ : t.rst = s.rst ∧ t.cs = s.cs := by
    obtain ⟨f, m, c, b, rfl⟩ := exists_content h
    exact ⟨rfl, rfl⟩
  cases hr : s.rst with
  | true =>
    exact ⟨_, _, if_pos hr, if_pos (hrst.trans hr), takeReset_eq_of_same h ▸ sameButUnspecified_refl _⟩
  | false =>
    have hr' := hrst.trans hr
    cases hd : decode s.cs with
    | waiting =>
      obtain ⟨-, hwait⟩ := incompleteCommandWaits
      exact ⟨s, t, hwait s hr hd, hwait t hr' (hcs ▸ hd), h⟩
    | illegal w rest =>
      rw [step_of_illegal hr hd, step_of_illegal hr' (hcs ▸ hd)]
      exact illegalHeader_same (same_consume h rest) w
    | command i rest =>
      rw [step_of_command hr hd, step_of_command hr' (hcs ▸ hd)]
      exact exec_same (inv_consume hinv rest) (same_consume h rest) (wellFormed_of_decode hd)

/-- Settles O58: `step_same`, and then the two states look the same from outside. -/
theorem unspecifiedContentUnobservable : Obligations.UnspecifiedContentUnobservable := by
  intro s s' t t' hinv h hs ht
  obtain ⟨s₁, t₁, hs₁, ht₁, hsame⟩ := step_same hinv h
  cases hs.symm.trans hs₁
  cases ht.symm.trans ht₁
  exact ⟨hsame, sameObservation_of_same hsame⟩

end Sys2Proof.Machine
end
